-- ==== Sys2Proof/Word.lean ====
section
/-! DEFINITION. The word types of the block: bytes, the 16-bit shift-register word, data-line indices
(spec/00_scope.md R9, R12; spec/30_encoding.md R54, R57). -/

namespace Sys2Proof

/-- `u8`: a data byte, an opcode, a wire byte (R9, R12). -/
abbrev Byte := BitVec 8

/-- `bits16`: the shift-register word (R54). -/
abbrev Srw := BitVec 16

/-- A data line, carried by controller pin `DP[i]`, i in 0..7 (R17, R57). -/
abbrev Line := Fin 8

end Sys2Proof
end

