-- ==== Sys2Proof/Syntax.lean ====
section
/-! DEFINITION. The operations of the block as syntax: one constructor of `Instr` per row of
spec/opcode_table.json, with the operands of spec/30_encoding.md R70, and the language in which a handler
program (a parameter of the model, spec/43_command_server.md R107) is written. -/

namespace Sys2Proof

/-- The direction of a pin (10_state.md R17, R19): `IN` or `OUT`. -/
inductive Dir where
  | inp
  | out
  deriving DecidableEq, Repr

/-- A symbolic duration (00_scope.md R5) or a number of microseconds. The model has no time, so the value of a
duration changes no rule (R8). -/
inductive Duration where
  | tWp
  | tSettle
  | tHandshake
  | tServe
  | tIdle
  | micros (n : Nat)
  deriving DecidableEq, Repr

/-- The name by which a handler is registered. The handler's program is a parameter of the model
(43_command_server.md R107): the configuration's `bodies` gives it. -/
abbrev HandlerName := BitVec 16

/-- The operations of opcode_table.json, one constructor a row, in the table's order. The operands have the
forms of 30_encoding.md R70. -/
inductive Instr where
  -- BUS-PRIM
  | push8 (b : Byte)
  | latch
  | dataDir (p : Nat) (d : Dir)
  | dataOut (p : Nat) (x : Bool)
  | dataIn (p : Nat)
  | wePulse
  | delay (t : Duration)
  -- BUS-OP
  | init
  | setAddress (a : Nat) (oe : Bool)
  | read (a : Nat)
  | write (a : Nat) (v : Byte)
  -- XPORT
  | isConnected
  | setRxTimeout (t : Duration)
  | available
  | waitForBytes (n : Nat) (t : Duration)
  | readBuffer (n : Nat)
  | readI8
  | readI16
  | readI32
  | writeBuffer (buf : List Byte)
  | writeI8 (x : Int)
  | writeI16 (x : Int)
  | writeI32 (x : Int)
  | print (text : List Byte)
  | println (text : List Byte)
  -- SERVER
  | registerHandler (op : Byte) (h : HandlerName)
  | serve
  | handshakeAttempt
  | serveConnected
  | syn
  | ack
  | err
  | rst
  | fin
  | bye
  | request (op : Byte)
  -- ENV
  | hostSend (b : Byte)
  | hostLinkUp
  | hostLinkDown
  | eeComplete
  deriving DecidableEq, Repr

/-- What an operation returns to its caller (the result column of 30_encoding.md R70). -/
inductive Value where
  | none
  | bit (b : Bool)
  | bool (b : Bool)
  | u8 (b : Byte)
  | count (n : Nat)
  | int (x : Int)
  | bytes (l : List Byte)
  deriving DecidableEq, Repr

/-- An operand in a handler program: a number, a byte list, or one of the handler's own variables. -/
inductive Arg where
  | num (x : Int)
  | bytes (l : List Byte)
  | var (k : Nat)
  deriving DecidableEq, Repr

/-- The handler's own computing on its variables. -/
inductive BinOp where
  | add
  | sub
  | mul
  | mod
  | lt
  | eq
  | cat
  deriving DecidableEq, Repr

/-- The operations a handler may not issue (43_command_server.md R108). -/
inductive ClosedOp where
  | push8
  | latch
  | dataDir
  | dataOut
  | dataIn
  | wePulse
  | delay
  | init
  | setAddress
  | registerHandler
  | serve
  | handshakeAttempt
  | serveConnected
  deriving DecidableEq, Repr

/-- An operation call in a handler program: the operations R108 exposes, with operands, and the closed ones. The duration of
`setRxTimeout` and `waitForBytes` is written in the program, no variable and nothing computed (DESIGN CHOICE, assumption log
10: the spec leaves the handler's language open, R107). -/
inductive Call where
  | isConnected
  | setRxTimeout (t : Duration)
  | available
  | waitForBytes (n : Arg) (t : Duration)
  | readBuffer (n : Arg)
  | readI8
  | readI16
  | readI32
  | writeBuffer (buf : Arg)
  | writeI8 (x : Arg)
  | writeI16 (x : Arg)
  | writeI32 (x : Arg)
  | print (text : Arg)
  | println (text : Arg)
  | read (a : Arg)
  | write (a v : Arg)
  | closed (c : ClosedOp)
  deriving DecidableEq, Repr

/-- A statement of a handler program. `call dst c` issues an operation and keeps its result in variable `dst`;
`set` and `branch` are the handler's own computing (`branch` goes to position `target` when its operand is true);
`ret` returns to the server, as running past the last statement does. -/
inductive Stmt where
  | call (dst : Option Nat) (c : Call)
  | set (dst : Nat) (op : BinOp) (x y : Arg)
  | branch (x : Arg) (target : Nat)
  | ret
  deriving DecidableEq, Repr

/-- A handler program (43_command_server.md R107). Loops are possible, so a handler need not terminate. -/
abbrev Handler := List Stmt

end Sys2Proof
end

