-- ==== Sys2Proof/WellFormed.lean ====
section
/-! DEFINITION. Which operations have the operand shapes of spec/30_encoding.md R70 and fit their image.
An operation that is not well-formed has no image; some still have a meaning (WRITE_I8 of a value out of range). -/

namespace Sys2Proof

/-- The pin index of a data line is 0..7 (R70). -/
def lineOk (p : Nat) : Bool := p ≤ 7

/-- An address fits the 15 bits below `NOE` (R54; `MAX_ADDRESS ≤ 32767` for every W). -/
def addressOk (a : Nat) : Bool := a < 2 ^ 15

/-- A value of the signed range of an N-bit wire integer (R63). -/
def signedOk (n : Nat) (x : Int) : Bool := -(2 : Int) ^ (n - 1) ≤ x ∧ x < (2 : Int) ^ (n - 1)

/-- Text without the terminator byte (R64). -/
def textOk (s : List Byte) : Bool := !s.contains 0

/-- A count that fits the model's own 32-bit operand field (assumption log 12). -/
def countOk (n : Nat) : Bool := n < 2 ^ 32

/-- A duration that fits the model's own operand field (assumption log 12). -/
def durationOk : Duration → Bool
  | .micros n => countOk n
  | _ => true

/-- `DELAY` takes `T_SETTLE` or `T_IDLE` (R79). -/
def delayOk : Duration → Bool
  | .tSettle => true
  | .tIdle => true
  | _ => false

/-- The well-formed operations. -/
def wellFormed : Instr → Bool
  | .push8 _ => true
  | .latch => true
  | .dataDir p _ => lineOk p
  | .dataOut p _ => lineOk p
  | .dataIn p => lineOk p
  | .wePulse => true
  | .delay t => delayOk t
  | .init => true
  | .setAddress a _ => addressOk a
  | .read a => addressOk a
  | .write a _ => addressOk a
  | .isConnected => true
  | .setRxTimeout t => durationOk t
  | .available => true
  | .waitForBytes n t => countOk n && durationOk t
  | .readBuffer n => countOk n
  | .readI8 => true
  | .readI16 => true
  | .readI32 => true
  | .writeBuffer buf => countOk buf.length
  | .writeI8 x => signedOk 8 x
  | .writeI16 x => signedOk 16 x
  | .writeI32 x => signedOk 32 x
  | .print s => textOk s
  | .println s => textOk s
  | .registerHandler _ _ => true
  | .serve => true
  | .handshakeAttempt => true
  | .serveConnected => true
  | .syn => true
  | .ack => true
  | .err => true
  | .rst => true
  | .fin => true
  | .bye => true
  | .request _ => true
  | .hostSend _ => true
  | .hostLinkUp => true
  | .hostLinkDown => true
  | .eeComplete => true

/-- `i` has the operand shape of its row. -/
abbrev WellFormed (i : Instr) : Prop := wellFormed i = true

end Sys2Proof
end

