-- ==== Sys2Proof/Decode.lean ====
section
/-! DEFINITION. The encodings of spec/30_encoding.md: the shift-register word (R54), the wire integers (R63), the
null-terminated string (R64), the control codes (R58) and the two wire decoders (R65, R66); the record in which
the model writes down an operation (its row number, then its image, then its operands: assumption log 12), its
decoder and its encoder. -/

namespace Sys2Proof

/-! ### Formats -/

/-- The control codes SYN, ACK, ERR, RST, FIN, BYE as bytes (R58). -/
def codeSyn : Byte := 0x73
def codeAck : Byte := 0x61
def codeErr : Byte := 0x65
def codeRst : Byte := 0x72
def codeFin : Byte := 0x66
def codeBye : Byte := 0x62

/-- Format SRW16: `w = (oe ? 0 : 1) << 15 | a` (R54). -/
def srwWord (a : Nat) (oe : Bool) : Srw :=
  ((if oe then (0 : Srw) else 1) <<< 15) ||| BitVec.ofNat 16 a

/-- The first push of a word, `w[15:8]` (R55). -/
def hiByte (w : Srw) : Byte := w.extractLsb' 8 8

/-- The second push of a word, `w[7:0]` (R55). -/
def loByte (w : Srw) : Byte := w.extractLsb' 0 8

/-- The word whose two pushes are `hi` and `lo`. -/
def wordOf (hi lo : Byte) : Srw := hi ++ lo

/-- The address field of a word, bits 14..0 (R54; bits 14..W are zero for a valid address). -/
def srwAddress (w : Srw) : Nat := w.toNat % 2 ^ 15

/-- Is output enable asserted by the word: `NOE = 0` (R54). -/
def srwEnabled (w : Srw) : Bool := !w.getLsbD 15

/-- Format LEI-N with m = N/8: byte k is bits `[8k+7:8k]` of `trunc_N(x)` (R63, R99). -/
def leiEncode (m : Nat) (x : Int) : List Byte :=
  (List.range m).map fun k => (BitVec.ofInt (8 * m) x).extractLsb' (8 * k) 8

/-- The unsigned value of bytes, least significant first (R63). -/
def leNat : List Byte → Nat
  | [] => 0
  | b :: r => b.toNat + 256 * leNat r

/-- Format LEI-N read: `int(b[m-1] ‖ … ‖ b[0])`, two's complement (R63, R94). -/
def leiDecode (m : Nat) (l : List Byte) : Int := (BitVec.ofNat (8 * m) (leNat l)).toInt

/-- Format STRZ: the text bytes, then `0x00` (R64). -/
def strz (s : List Byte) : List Byte := s ++ [0]

/-! ### The wire decoders -/

/-- What a host byte means in the DISCONNECTED state (R65). -/
inductive Handshake where
  | accept
  | reject
  deriving DecidableEq, Repr

/-- What a host byte means in the CONNECTED state, before the table is consulted (R66). -/
inductive Request where
  | bye
  | opcode (op : Byte)
  deriving DecidableEq, Repr

/-- R65: `0x73` is SYN, anything else is rejected. -/
def decodeDisconnected (b : Byte) : Handshake := if b = codeSyn then .accept else .reject

/-- R66: `0x62` is BYE whatever the table holds, any other byte is an opcode. -/
def decodeConnected (b : Byte) : Request := if b = codeBye then .bye else .opcode b

/-! ### Operation records -/

/-- Why bytes are no operation record. -/
inductive DecodeError where
  /-- The bytes end inside the record. -/
  | truncated
  /-- The first byte is no row number of opcode_table.json. -/
  | noSuchRow
  /-- The image is not one the row's pattern admits. -/
  | badImage
  /-- An operand is not of the shape R70 gives. -/
  | badOperand
  deriving DecidableEq, Repr

/-- What a decoder answers: an operation and the bytes after it. -/
abbrev Decoded := Except DecodeError (Instr × List Byte)

/-- Read one byte. -/
def withByte (l : List Byte) (k : Byte → List Byte → Decoded) : Decoded :=
  match l with
  | b :: r => k b r
  | [] => .error .truncated

/-- Read a shift-register word in push order, high byte first (R55). -/
def withWord (l : List Byte) (k : Srw → List Byte → Decoded) : Decoded :=
  match l with
  | hi :: lo :: r => k (wordOf hi lo) r
  | _ => .error .truncated

/-- Read m bytes. -/
def withBytes (m : Nat) (l : List Byte) (k : List Byte → List Byte → Decoded) : Decoded :=
  if m ≤ l.length then k (l.take m) (l.drop m) else .error .truncated

/-- Read a 32-bit count, least significant byte first (the model's own operand field). -/
def withCount (l : List Byte) (k : Nat → List Byte → Decoded) : Decoded :=
  withBytes 4 l fun bs r => k (leNat bs) r

/-- Read a line index 0..7. -/
def withLine (l : List Byte) (k : Nat → List Byte → Decoded) : Decoded :=
  withByte l fun p r => if lineOk p.toNat then k p.toNat r else .error .badOperand

/-- Read a Boolean operand byte, 0 or 1. -/
def withBool (l : List Byte) (k : Bool → List Byte → Decoded) : Decoded :=
  withByte l fun b r =>
    if b = 0 then k false r else if b = 1 then k true r else .error .badOperand

/-- Read a duration: 0 T_WP, 1 T_SETTLE, 2 T_HANDSHAKE, 3 T_SERVE, 4 T_IDLE, 5 and a count of microseconds. -/
def withDuration (l : List Byte) (k : Duration → List Byte → Decoded) : Decoded :=
  withByte l fun b r =>
    if b = 0 then k .tWp r
    else if b = 1 then k .tSettle r
    else if b = 2 then k .tHandshake r
    else if b = 3 then k .tServe r
    else if b = 4 then k .tIdle r
    else if b = 5 then withCount r fun n r' => k (.micros n) r'
    else .error .badOperand

/-- Read a null-terminated string (R64). -/
def takeText : List Byte → Option (List Byte × List Byte)
  | [] => none
  | b :: r => if b = 0 then some ([], r) else (takeText r).map fun (t, r') => (b :: t, r')

/-- Read a text operand in format STRZ. -/
def withText (l : List Byte) (k : List Byte → List Byte → Decoded) : Decoded :=
  match takeText l with
  | some (t, r) => k t r
  | none => .error .truncated

/-- Check a fixed image byte. -/
def withFixed (img : Byte) (l : List Byte) (i : Instr) : Decoded :=
  withByte l fun b r => if b = img then .ok (i, r) else .error .badImage

/-- Decode the image and operands of row `row` of opcode_table.json (rows counted from 0). -/
def decodeRow (row : Nat) (l : List Byte) : Decoded :=
  match row with
  | 0 => withByte l fun b r => .ok (.push8 b, r)
  | 1 => withFixed 0b010 l .latch
  | 2 => withLine l fun p r => withBool r fun d r' => .ok (.dataDir p (if d then .out else .inp), r')
  | 3 => withLine l fun p r => withBool r fun x r' => .ok (.dataOut p x, r')
  | 4 => withLine l fun p r => .ok (.dataIn p, r)
  | 5 => withFixed 0b101 l .wePulse
  | 6 => withDuration l fun t r => if delayOk t then .ok (.delay t, r) else .error .badOperand
  | 7 => withWord l fun w r => if w = 0 then .ok (.init, r) else .error .badImage
  | 8 => withWord l fun w r => .ok (.setAddress (srwAddress w) (srwEnabled w), r)
  | 9 => withWord l fun w r =>
      if srwEnabled w then .ok (.read (srwAddress w), r) else .error .badImage
  | 10 => withWord l fun w r => withByte r fun v r' =>
      if srwEnabled w then .error .badImage else .ok (.write (srwAddress w) v, r')
  | 11 => .ok (.isConnected, l)
  | 12 => withDuration l fun t r => .ok (.setRxTimeout t, r)
  | 13 => .ok (.available, l)
  | 14 => withCount l fun n r => withDuration r fun t r' => .ok (.waitForBytes n t, r')
  | 15 => withCount l fun n r => .ok (.readBuffer n, r)
  | 16 => .ok (.readI8, l)
  | 17 => .ok (.readI16, l)
  | 18 => .ok (.readI32, l)
  | 19 => withCount l fun n r => withBytes n r fun buf r' => .ok (.writeBuffer buf, r')
  | 20 => withBytes 1 l fun bs r => .ok (.writeI8 (leiDecode 1 bs), r)
  | 21 => withBytes 2 l fun bs r => .ok (.writeI16 (leiDecode 2 bs), r)
  | 22 => withBytes 4 l fun bs r => .ok (.writeI32 (leiDecode 4 bs), r)
  | 23 => withText l fun s r => .ok (.print s, r)
  | 24 => withText l fun s r => .ok (.println s, r)
  | 25 => withByte l fun op r => withWord r fun h r' => .ok (.registerHandler op h, r')
  | 26 => .ok (.serve, l)
  | 27 => .ok (.handshakeAttempt, l)
  | 28 => .ok (.serveConnected, l)
  | 29 => withFixed codeSyn l .syn
  | 30 => withFixed codeAck l .ack
  | 31 => withFixed codeErr l .err
  | 32 => withFixed codeRst l .rst
  | 33 => withFixed codeFin l .fin
  | 34 => withFixed codeBye l .bye
  | 35 => withByte l fun op r => .ok (.request op, r)
  | 36 => withByte l fun b r => .ok (.hostSend b, r)
  | 37 => .ok (.hostLinkUp, l)
  | 38 => .ok (.hostLinkDown, l)
  | 39 => .ok (.eeComplete, l)
  | _ => .error .noSuchRow

/-- Decode one operation record: its row number, then its image and operands. Total on any bytes. -/
def decode (l : List Byte) : Decoded := withByte l fun row r => decodeRow row.toNat r

/-- The row of opcode_table.json whose pattern an image of `nbits` bits matches, the most specific pattern first:
of the 16-bit words INIT's `0x0000`, then READ (`NOE = 0`), then WRITE (`NOE = 1`); of the bytes the six control
codes, then REQUEST. The patterns of the other rows are pin or wire images these ones cover, or no bits at all
(assumption log 13). -/
def rowOfImage (nbits w : Nat) : Option Nat :=
  if nbits = 16 then
    if w % 2 ^ 16 = 0 then some 7 else if w.testBit 15 then some 10 else some 9
  else if nbits = 8 then
    if BitVec.ofNat 8 w = codeSyn then some 29
    else if BitVec.ofNat 8 w = codeAck then some 30
    else if BitVec.ofNat 8 w = codeErr then some 31
    else if BitVec.ofNat 8 w = codeRst then some 32
    else if BitVec.ofNat 8 w = codeFin then some 33
    else if BitVec.ofNat 8 w = codeBye then some 34
    else some 35
  else none

/-- The bytes of an image as the block sends them: a 16-bit word in push order (R55), a byte as it is. -/
def imageBytes (nbits w : Nat) : List Byte :=
  if nbits = 16 then [hiByte (BitVec.ofNat 16 w), loByte (BitVec.ofNat 16 w)] else [BitVec.ofNat 8 w]

/-- The operation the decoder reads from an image numbered as opcode_table.json numbers bits; operand bytes above
`nbits` (WRITE's data byte) are zero. -/
def decodeTableWord (nbits w : Nat) : Option Instr :=
  match rowOfImage nbits w with
  | none => none
  | some row =>
    match decode (BitVec.ofNat 8 row :: (imageBytes nbits w ++ [0])) with
    | .ok (i, _) => some i
    | .error _ => none

/-! ### The encoder -/

/-- A duration in the model's own operand field. -/
def encodeDuration : Duration → List Byte
  | .tWp => [0]
  | .tSettle => [1]
  | .tHandshake => [2]
  | .tServe => [3]
  | .tIdle => [4]
  | .micros n => 5 :: leiEncode 4 n

/-- A Boolean operand byte. -/
def encodeBool (b : Bool) : Byte := if b then 1 else 0

/-- The two pushes of a word (R55). -/
def encodeWord (w : Srw) : List Byte := [hiByte w, loByte w]

/-- The record of an operation: row number, image, operands. -/
def encode : Instr → List Byte
  | .push8 b => [0, b]
  | .latch => [1, 0b010]
  | .dataDir p d => [2, BitVec.ofNat 8 p, encodeBool (d == .out)]
  | .dataOut p x => [3, BitVec.ofNat 8 p, encodeBool x]
  | .dataIn p => [4, BitVec.ofNat 8 p]
  | .wePulse => [5, 0b101]
  | .delay t => 6 :: encodeDuration t
  | .init => 7 :: encodeWord (srwWord 0 true)
  | .setAddress a oe => 8 :: encodeWord (srwWord a oe)
  | .read a => 9 :: encodeWord (srwWord a true)
  | .write a v => 10 :: (encodeWord (srwWord a false) ++ [v])
  | .isConnected => [11]
  | .setRxTimeout t => 12 :: encodeDuration t
  | .available => [13]
  | .waitForBytes n t => 14 :: (leiEncode 4 n ++ encodeDuration t)
  | .readBuffer n => 15 :: leiEncode 4 n
  | .readI8 => [16]
  | .readI16 => [17]
  | .readI32 => [18]
  | .writeBuffer buf => 19 :: (leiEncode 4 buf.length ++ buf)
  | .writeI8 x => 20 :: leiEncode 1 x
  | .writeI16 x => 21 :: leiEncode 2 x
  | .writeI32 x => 22 :: leiEncode 4 x
  | .print s => 23 :: strz s
  | .println s => 24 :: strz s
  | .registerHandler op h => 25 :: op :: encodeWord h
  | .serve => [26]
  | .handshakeAttempt => [27]
  | .serveConnected => [28]
  | .syn => [29, codeSyn]
  | .ack => [30, codeAck]
  | .err => [31, codeErr]
  | .rst => [32, codeRst]
  | .fin => [33, codeFin]
  | .bye => [34, codeBye]
  | .request op => [35, op]
  | .hostSend b => [36, b]
  | .hostLinkUp => [37]
  | .hostLinkDown => [38]
  | .eeComplete => [39]

end Sys2Proof
end

