-- ==== Sys2Proof/Config.lean ====
section
/-! DEFINITION. The configuration fixed at construction (spec/00_scope.md R5, spec/10_state.md R33) and the
free values: the bits `Draw()` of the spec and the EEPROM's contents at power-on. -/

namespace Sys2Proof

/-- The parameters of 00_scope.md R5. No operation writes one (10_state.md R33). They are carried in `State`
so that a statement about every state holds for every configuration (assumption log 8). -/
structure Config where
  /-- `ADDR_WIDTH` = W, 1 ≤ W ≤ 15. -/
  addrWidth : Nat
  /-- `RX_CAPACITY` ≥ 1: OPEN. -/
  rxCapacity : Nat
  /-- `EXTRA_RESERVED`. -/
  extraReserved : List Byte
  /-- `ACCESS_TIME_MET` (70_reset_and_hazards.md R139). -/
  accessTimeMet : Bool
  /-- `WE_PULSE_SUFFICIENT` (R140). -/
  wePulseSufficient : Bool
  /-- `SETTLE_SUFFICIENT` (R138). -/
  settleSufficient : Bool
  /-- `RX_TIMEOUT_RESET`: OPEN. -/
  rxTimeoutReset : Duration
  /-- The value of `link` at reset: a parameter of the launch (R23). -/
  linkAtLaunch : Bool
  /-- `HANDLERS`: what the top-level program registers (R132). -/
  handlers : List (Byte × HandlerName)
  /-- The handler programs, named by their position (R107). -/
  bodies : List Handler
  /-- `PIN_SDATA`, `PIN_SCLK`, `PIN_LATCH`, `PIN_WE` and `DP[0..7]`: OPEN pin numbers; no rule reads a number. -/
  sdataPin : Nat
  sclkPin : Nat
  latchPin : Nat
  wePin : Nat
  dataPins : List Nat
  /-- `LINE_PARAMS`: OPEN and unobservable at byte level; no rule reads it. -/
  lineParams : List Nat
  /-- The nominal durations in microseconds; no rule depends on one (R145). -/
  tWp : Nat
  tSettle : Nat
  tHandshake : Nat
  tServe : Nat
  tIdle : Nat
  deriving DecidableEq, Repr

/-- The configuration of `State.reset`: the defaults of R5 and, for the OPEN parameters, values of the model
(DESIGN CHOICE, assumption log 8). -/
def Config.launch : Config :=
  { addrWidth := 11
    rxCapacity := 16
    extraReserved := []
    accessTimeMet := true
    wePulseSufficient := true
    settleSufficient := true
    rxTimeoutReset := .micros 0
    linkAtLaunch := true
    handlers := []
    bodies := []
    sdataPin := 0
    sclkPin := 1
    latchPin := 2
    wePin := 3
    dataPins := [4, 5, 6, 7, 8, 9, 10, 11]
    lineParams := []
    tWp := 1
    tSettle := 5000
    tHandshake := 1000000
    tServe := 1000000
    tIdle := 0 }

/-- The free bits: the n-th `Draw()` of a run is `drawBit n`, under no law (93_implementation_defined.md,
treatment "any value"; assumption log 5). -/
opaque Config.drawBit : Nat → Bool

/-- The contents of an EEPROM cell that nothing has written: unspecified, one value per cell
(10_state.md R28; assumption log 6). -/
opaque Config.powerOnCell : Nat → Byte

end Sys2Proof
end

