-- ==== Sys2Proof/Machine/State.lean ====
section
/-! DEFINITION. The state of the machine as plain data: every piece of state of spec/10_state.md, the reasons a run
stops (spec/60_exceptions.md R116, R117), and the state at power-on (spec/70_reset_and_hazards.md R129). -/

namespace Sys2Proof.Machine

/-- The connection state (10_state.md R25). -/
inductive Fsm where
  | disconnected
  | connected
  deriving DecidableEq, Repr

/-- A control pin: its mode and its level (R19). -/
structure CtlPin where
  mode : Dir
  level : Bool
  deriving DecidableEq, Repr

/-- The operations the events `Timeout` and `ShortRead` name (R31, 42_byte_transport.md R92, R93). -/
inductive WaitOp where
  | waitForBytes
  | readBuffer
  deriving DecidableEq, Repr

/-- The entries of the event history (R31). -/
inductive Event where
  | push (b : Byte)
  | latch (q : Srw)
  | wePulse (a : Nat) (d : Byte)
  | elided (a : Nat)
  | contention
  | timeout (op : WaitOp)
  | shortRead (op : WaitOp) (k n : Nat)
  | rx (b : Byte)
  | rxDropped (b : Byte)
  | tx (b : Byte)
  deriving DecidableEq, Repr

/-- One level of the sequencer position (R27). `op i k`: operation `i` is running and is at its micro-step `k`.
`handler`: SERVE_CONNECTED, the frame below, is at its `run h` (43_command_server.md R112), and the handler registered for
`op` is at statement `pc` of `body` with the variables `vars`. -/
inductive Frame where
  | op (i : Instr) (micro : Nat)
  | handler (op : Byte) (body : Handler) (pc : Nat) (vars : List (Nat × Value))
  deriving DecidableEq, Repr

/-- A step of an agent other than CTRL (00_scope.md R6). -/
inductive Env where
  | hostSend (b : Byte)
  | linkUp
  | linkDown
  | eeComplete
  deriving DecidableEq, Repr

/-- One entry of the schedule: CTRL moves; CTRL moves and a wait it is held in times out (R8); HOST or EE moves. -/
inductive Slot where
  | ctrl
  | timeout
  | env (e : Env)
  deriving DecidableEq, Repr

/-- The model faults (60_exceptions.md R116), each with the operation and operands it records. An operation raises
one by recording it in the sticky set `faults` (a next state); `step` answers it as the outcome of CTRL's turns from
then on (assumption log 1). All are safe: the run ends where the source gives no behaviour. -/
inductive Fault where
  /-- Code 1, raised by READ, WRITE and SET_ADDRESS before INIT has completed, and by PUSH8, LATCH and WE_PULSE while
  the control pins are no outputs. Safe. -/
  | notInitialised (op : Instr)
  /-- Code 2, raised by SET_ADDRESS, READ and WRITE on an address above MAX_ADDRESS. Safe. -/
  | addressRange (op : Instr) (a : Nat)
  /-- Code 3, raised by REGISTER_HANDLER on a reserved opcode. Safe. -/
  | reservedOpcode (op : Byte)
  /-- Code 4, raised by PRINT and PRINTLN on text that holds `0x00`. Safe. -/
  | textContainsNul (op : Instr) (text : List Byte)
  /-- Code 5, raised by WE_PULSE while output enable is asserted; records Q. Safe. -/
  | weWithOeAsserted (q : Srw)
  /-- Code 6, raised by WE_PULSE during a write cycle; records `busy` and Q. Safe. -/
  | writeWhileBusy (a : Nat) (d : Byte) (q : Srw)
  deriving DecidableEq, Repr

/-- The refusals (60_exceptions.md R117): an operation marks the state refused (a next state) and `step` answers the
refusal at CTRL's turns from then on (assumption log 2). All are safe: the model claims nothing of such a run. -/
inductive Refusal where
  /-- Answered by `exec` for an instruction that has no meaning yet. Safe. -/
  | notModelled (mnemonic : String)
  /-- `NOT_EXPOSED`: a running handler issued an operation it may not use (43_command_server.md R108). Safe. -/
  | notExposed (op : Instr)
  /-- `UNMODELLED`: an operand shape the table does not list: DELAY with another duration, a data line above 7, a
  handler name with no program. Safe. -/
  | unmodelled (op : Instr)
  /-- `UNMODELLED`: a handler issued a call whose operands have not the shape R70 asks for. Safe. -/
  | unmodelledCall (c : Call)
  deriving DecidableEq, Repr

/-- The machine's state. The fields `calls`, `ret`, `sched` and `draws` are the model's own; the others are the
spec's. -/
structure State where
  /-- The configuration: read by rules, written by none (R33). -/
  cfg : Config
  /-- `S`, the stage register of the shift-register chain (R14). -/
  stage : Srw
  /-- `Q`, the output register of the chain: address and output enable (R15). -/
  q : Srw
  /-- The direction of each data line (R17). -/
  dir : Vector Dir 8
  /-- The output latch of each data line, line i at bit i (R18). -/
  dout : Byte
  /-- `PIN_SDATA`, serial data (R19). -/
  pinSdata : CtlPin
  /-- `PIN_SCLK`, shift clock (R19). -/
  pinSclk : CtlPin
  /-- `PIN_LATCH`, latch line (R19). -/
  pinLatch : CtlPin
  /-- `PIN_WE`, EEPROM write enable, active low (R19). -/
  pinWe : CtlPin
  /-- `ctl_ready` (R19). -/
  ctlReady : Bool
  /-- `init_done` (R20). -/
  initDone : Bool
  /-- The receive buffer, oldest first (R21). -/
  rx : List Byte
  /-- The bytes delivered to the host (R22). -/
  toHost : List Byte
  /-- The serial link is established (R23). -/
  link : Bool
  /-- The default wait bound of the consuming reads (R24). -/
  rxTimeout : Duration
  /-- The connection state (R25). -/
  fsm : Fsm
  /-- The handler table: opcode and handler, keys strictly rising; an opcode without entry is absent (R26). -/
  table : List (Nat × HandlerName)
  /-- The sequencer position, innermost frame first; `[]` is TOP (R27). -/
  seq : List Frame
  /-- The EEPROM array: address and byte, addresses strictly rising; a cell without entry holds its power-on
  contents (R28). -/
  cell : List Host.Cell
  /-- The internal write cycle in progress (R29). -/
  busy : Option (Nat × Byte)
  /-- The sticky set of faults, without repeats (R30, R116). -/
  faults : List Fault
  /-- The sticky mark `refused`, with its reason (R30, R117). -/
  refused : Option Refusal
  /-- The event history, oldest first (R31). -/
  hist : List Event
  /-- The calls of the top-level program before its SERVE loop (70_reset_and_hazards.md R132; log 11). -/
  calls : List Instr
  /-- The result in an operation's answer (30_encoding.md R70), on its way to what called the operation. Between two steps
  it holds no value: nothing keeps a result but its caller (R32; log 9). -/
  ret : Value
  /-- The schedule still to come (00_scope.md R6; log 3). -/
  sched : List Slot
  /-- How many free bits have been drawn (log 5). -/
  draws : Nat
  deriving DecidableEq, Repr

/-- The top-level program's calls before its SERVE loop: INIT, then one REGISTER_HANDLER for each configured handler
(70_reset_and_hazards.md R132). -/
def bootCalls (cfg : Config) : List Instr :=
  .init :: cfg.handlers.map fun (op, h) => .registerHandler op h

/-- The state at power-on under a configuration (R129). S, Q, dir, dout and the control pins are unspecified there:
their values are the model's (DESIGN CHOICE, assumption log 7). -/
def State.powerOn (cfg : Config) : State :=
  { cfg := cfg
    stage := 0
    q := 0
    dir := Vector.replicate 8 .inp
    dout := 0
    pinSdata := ⟨.inp, false⟩
    pinSclk := ⟨.inp, false⟩
    pinLatch := ⟨.inp, false⟩
    pinWe := ⟨.inp, false⟩
    ctlReady := false
    initDone := false
    rx := []
    toHost := []
    link := cfg.linkAtLaunch
    rxTimeout := cfg.rxTimeoutReset
    fsm := .disconnected
    table := []
    seq := []
    cell := []
    busy := none
    faults := []
    refused := none
    hist := []
    calls := bootCalls cfg
    ret := .none
    sched := []
    draws := 0 }

/-- The machine right after power-on, under the launch configuration. -/
def State.reset : State := State.powerOn Config.launch

end Sys2Proof.Machine
end

