-- ==== Sys2Proof/Machine/Flags.lean ====
section
/-! DEFINITION. The conditions the operations test: what plays the role of flags (spec/10_state.md R32), and who drives
the data bus (spec/40_bus_primitives.md R71). No operation writes a flag as a side effect (R32). -/

namespace Sys2Proof.Machine

/-- The condition of WAIT_FOR_BYTES: at least `n` bytes are buffered (42_byte_transport.md R92). -/
def waitMet (n : Nat) (s : State) : Bool := n ≤ s.rx.length

/-- WRITE's equality test: exact 8-bit equality (41_bus_controller.md R85, D46). -/
def elides (cur v : Byte) : Bool := cur == v

/-- The EEPROM drives the data bus: output enable asserted and write enable deasserted (R71). -/
def State.eeDrives (s : State) : Bool := !s.q.getLsbD 15 && s.pinWe.level

/-- Both sides drive some line (R71). -/
def State.contention (s : State) : Bool := s.eeDrives && s.dir.toList.any (· == .out)

/-- CTRL has stopped: a fault is recorded or the state is refused (60_exceptions.md R119, 00_scope.md R7). -/
def State.stopped (s : State) : Bool := !s.faults.isEmpty || s.refused.isSome

/-- CTRL waits for EE: DELAY T_SETTLE holds while the write cycle is in progress (40_bus_primitives.md R79). -/
def State.heldForEe (s : State) : Bool :=
  !s.stopped &&
    match s.seq with
    | .op (.delay .tSettle) (_ + 1) :: _ => s.busy.isSome
    | _ => false

/-- CTRL is held: the fourth outcome of its step, a wait for another agent (00_scope.md R7). Its position is inside
WAIT_FOR_BYTES, past the first look, with the bytes not there, or inside DELAY T_SETTLE with the write cycle in progress. -/
def State.held (s : State) : Bool :=
  s.heldForEe || !s.stopped &&
    match s.seq with
    | .op (.waitForBytes n _) (_ + 1) :: _ => !waitMet n s
    | _ => false

/-- A handler is running: the innermost frame is a handler's (43_command_server.md R108). -/
def State.inHandler (s : State) : Bool :=
  match s.seq with
  | .handler _ _ _ _ :: _ => true
  | _ => false

/-- The events the counters count (R31). -/
def isPush : Event → Bool
  | .push _ => true
  | _ => false

def isLatch : Event → Bool
  | .latch _ => true
  | _ => false

def isWePulse : Event → Bool
  | .wePulse _ _ => true
  | _ => false

/-- The counters derived from the history (R31). -/
def State.pushes (s : State) : Nat := s.hist.countP isPush

def State.latches (s : State) : Nat := s.hist.countP isLatch

def State.wePulses (s : State) : Nat := s.hist.countP isWePulse

end Sys2Proof.Machine
end

