-- ==== Sys2Proof/Machine/Operands.lean ====
section
/-! DEFINITION. Operand forms: addresses and their bound, data lines and bytes, reserved opcodes, and the operands of a
handler's calls (spec/30_encoding.md R70, spec/00_scope.md R12). -/

namespace Sys2Proof.Machine

/-- `MAX_ADDRESS = 2^W − 1` (00_scope.md R5, 90_conflicts.md C1). -/
def maxAddress (cfg : Config) : Nat := 2 ^ cfg.addrWidth - 1

/-- The address is one of the EEPROM's (R12, 20_memory.md R46). -/
def addressInRange (cfg : Config) (a : Nat) : Bool := a ≤ maxAddress cfg

/-- `nat(Q[W-1:0])`, the address the EEPROM sees (10_state.md R15). -/
def State.busAddress (s : State) : Nat := s.q.toNat % 2 ^ s.cfg.addrWidth

/-- `RESERVED = {0x73, 0x62} ∪ EXTRA_RESERVED` (30_encoding.md R67). -/
def reservedOpcode (cfg : Config) (op : Byte) : Bool :=
  op == codeSyn || op == codeBye || cfg.extraReserved.contains op

/-- A data-line operand as a line (R70: 0..7). -/
def lineOf (p : Nat) : Option Line := if h : p < 8 then some ⟨p, h⟩ else none

/-- The data lines from 0 up to 7, and from 7 down to 0 (D36). -/
def linesUp : List Line := [0, 1, 2, 3, 4, 5, 6, 7]
def linesDown : List Line := [7, 6, 5, 4, 3, 2, 1, 0]

/-- `v[i]` (00_scope.md R9). -/
def bitOf (v : Byte) (p : Line) : Bool := v.getLsbD p.val

/-- `v[i] <- x`. -/
def setBit (v : Byte) (p : Line) (x : Bool) : Byte :=
  if x then v ||| ((1 : Byte) <<< p.val) else v &&& ~~~((1 : Byte) <<< p.val)

/-! ### Operands of a handler's calls -/

/-- The handler's variable `k`; a variable nothing was put into holds no value. -/
def varGet (vars : List (Nat × Value)) (k : Nat) : Value := (vars.lookup k).getD .none

/-- Put a value into the handler's variable `k`. -/
def varPut (vars : List (Nat × Value)) (k : Nat) (v : Value) : List (Nat × Value) :=
  (k, v) :: vars.filter fun e => e.1 != k

/-- The value of an operand. -/
def argValue (vars : List (Nat × Value)) : Arg → Value
  | .num x => .int x
  | .bytes l => .bytes l
  | .var k => varGet vars k

/-- A value as an integer; a Boolean or a bit is 0 or 1. -/
def valueInt : Value → Option Int
  | .bit b => some (if b then 1 else 0)
  | .bool b => some (if b then 1 else 0)
  | .u8 b => some b.toNat
  | .count n => some n
  | .int x => some x
  | .none => none
  | .bytes _ => none

/-- A value as a natural number (an address or a count, R12). -/
def valueNat (v : Value) : Option Nat :=
  match valueInt v with
  | some x => if 0 ≤ x then some x.toNat else none
  | none => none

/-- A value as a byte list. R70 gives WRITE_BUFFER a byte list and PRINT a text; a handler's `u8` (a READ result) given
there is taken as the list of that one byte (DESIGN CHOICE, assumption log 10). -/
def valueBytes : Value → Option (List Byte)
  | .bytes l => some l
  | .u8 b => some [b]
  | _ => none

/-- A value as a truth value, for the handler's own branches. -/
def valueTrue (v : Value) : Bool :=
  match valueInt v with
  | some x => x != 0
  | none => false

/-- The handler's own computing. -/
def evalBin (op : BinOp) (x y : Value) : Value :=
  match op, valueInt x, valueInt y, valueBytes x, valueBytes y with
  | .add, some a, some b, _, _ => .int (a + b)
  | .sub, some a, some b, _, _ => .int (a - b)
  | .mul, some a, some b, _, _ => .int (a * b)
  | .mod, some a, some b, _, _ => .int (a % b)
  | .lt, some a, some b, _, _ => .bool (a < b)
  | .eq, _, _, _, _ => .bool (x == y)
  | .cat, _, _, some l, some r => .bytes (l ++ r)
  | _, _, _, _, _ => .none

/-- The operation a closed call stands for; it is refused whatever its operands are (43_command_server.md R108). -/
def closedInstr : ClosedOp → Instr
  | .push8 => .push8 0
  | .latch => .latch
  | .dataDir => .dataDir 0 .inp
  | .dataOut => .dataOut 0 false
  | .dataIn => .dataIn 0
  | .wePulse => .wePulse
  | .delay => .delay .tIdle
  | .init => .init
  | .setAddress => .setAddress 0 true
  | .registerHandler => .registerHandler 0 0
  | .serve => .serve
  | .handshakeAttempt => .handshakeAttempt
  | .serveConnected => .serveConnected

/-- The operation a handler's call issues with its variables, or none where an operand has not the shape R70 asks
for. `WRITE`'s value is `trunc_8` of the operand. -/
def callInstr (vars : List (Nat × Value)) : Call → Option Instr
  | .isConnected => some .isConnected
  | .setRxTimeout t => some (.setRxTimeout t)
  | .available => some .available
  | .waitForBytes n t => (valueNat (argValue vars n)).map fun n => .waitForBytes n t
  | .readBuffer n => (valueNat (argValue vars n)).map .readBuffer
  | .readI8 => some .readI8
  | .readI16 => some .readI16
  | .readI32 => some .readI32
  | .writeBuffer b => (valueBytes (argValue vars b)).map .writeBuffer
  | .writeI8 x => (valueInt (argValue vars x)).map .writeI8
  | .writeI16 x => (valueInt (argValue vars x)).map .writeI16
  | .writeI32 x => (valueInt (argValue vars x)).map .writeI32
  | .print t => (valueBytes (argValue vars t)).map .print
  | .println t => (valueBytes (argValue vars t)).map .println
  | .read a => (valueNat (argValue vars a)).map .read
  | .write a v =>
    match valueNat (argValue vars a), valueInt (argValue vars v) with
    | some a, some v => some (.write a (BitVec.ofInt 8 v))
    | _, _ => none
  | .closed c => some (closedInstr c)

end Sys2Proof.Machine
end

