-- ==== Sys2Proof/Machine/Ops.lean ====
section
/-! DEFINITION. The shared operations over the state: sparse maps (the EEPROM array and the handler table), events and
free bits, raising a fault and refusing (spec/60_exceptions.md R116 to R120), the byte transport's ends
(spec/42_byte_transport.md R87, R105, R106), the EEPROM's own step (spec/40_bus_primitives.md R80), and what the
schedule does between two micro-steps (spec/00_scope.md R6), and where a wait holds CTRL (R7, R8). -/

namespace Sys2Proof.Machine

/-! ### Sparse maps -/

/-- The entry of key `k`. -/
def sparseGet {α : Type} : List (Nat × α) → Nat → Option α
  | [], _ => none
  | (k', v) :: r, k => if k' = k then some v else sparseGet r k

/-- Put `v` at key `k`, keeping the keys strictly rising. -/
def sparsePut {α : Type} : List (Nat × α) → Nat → α → List (Nat × α)
  | [], k, v => [(k, v)]
  | (k', v') :: r, k, v =>
    if k < k' then (k, v) :: (k', v') :: r
    else if k' = k then (k, v) :: r
    else (k', v') :: sparsePut r k v

/-- The canonical form: keys strictly rising. -/
def sparseWf {α : Type} : List (Nat × α) → Bool
  | [] => true
  | [_] => true
  | (a, _) :: (b, y) :: r => a < b && sparseWf ((b, y) :: r)

/-- `MemRead`: the byte something has written at `a`. An address nothing has written has no value here. -/
def Memory.read (m : List Host.Cell) (a : Nat) : Option Byte := sparseGet m a

/-- `MemWrite`: one byte. -/
def Memory.write (m : List Host.Cell) (a : Nat) (v : Byte) : List Host.Cell := sparsePut m a v

/-- The canonical form of the EEPROM array: addresses strictly rising. An unlisted address has no value, so no entry
can equal what an unlisted address reads as. -/
def Memory.wf (m : List Host.Cell) : Bool := sparseWf m

/-- `cell[a]`: the byte written last, or the cell's power-on contents, a free value (R28, assumption log 6). -/
def State.cellByte (s : State) (a : Nat) : Byte := (Memory.read s.cell a).getD (Config.powerOnCell a)

/-- `table[op]` (R26). -/
def State.tableAt (s : State) (op : Byte) : Option HandlerName := sparseGet s.table op.toNat

/-- The program of a handler name, where the configuration gives one (43_command_server.md R107). -/
def bodyOf (cfg : Config) (h : HandlerName) : Option Handler := cfg.bodies[h.toNat]?

/-! ### Events and free bits -/

/-- `emit(event)` (00_scope.md R10). -/
def State.emit (e : Event) (s : State) : State := { s with hist := s.hist ++ [e] }

/-- Emit `Contention` where contention has become true (40_bus_primitives.md R71). -/
def State.noteContention (before : Bool) (s : State) : State :=
  if !before && s.contention then s.emit .contention else s

/-- The next free bit. -/
def State.drawn (s : State) : Bool := Config.drawBit s.draws

/-- The state once the next free bit is drawn. -/
def State.drew (s : State) : State := { s with draws := s.draws + 1 }

/-- `n` free bytes, each of eight free bits. -/
def drawByte : List Line → Byte → State → Byte × State
  | [], acc, s => (acc, s)
  | p :: ps, acc, s => drawByte ps (setBit acc p s.drawn) s.drew

def drawBytes : Nat → State → List Byte × State
  | 0, s => ([], s)
  | n + 1, s =>
    let (b, s1) := drawByte linesUp 0 s
    let (bs, s2) := drawBytes n s1
    (b :: bs, s2)

/-! ### Faults and refusals: the one "trap entry" (60_exceptions.md R119). There is no return from either (R120). -/

/-- `raise Fault`: the record joins the sticky set, `seq` stays at the operation that raised it, and CTRL stops
(R30, R116, R119). -/
def State.raise (i : Instr) (f : Fault) (s : State) : State :=
  { s with
    seq := .op i 0 :: s.seq
    faults := if s.faults.contains f then s.faults else s.faults ++ [f] }

/-- `refuse(reason)`: the sticky mark, whose first reason stays, and CTRL stops (R30, R117). -/
def State.refuse (i : Instr) (r : Refusal) (s : State) : State :=
  { s with
    seq := .op i 0 :: s.seq
    refused := some (s.refused.getD r) }

/-- The result of a piece of an operation: it ran and answers `a`, or it has not returned: CTRL stopped in it, is held in
it, or runs the handler it started, `seq` showing where. -/
inductive Flow (α : Type) where
  | ok (a : α) (s : State)
  | stop (s : State)

/-- Go on with the rest where the piece has returned. -/
def Flow.bind {α β : Type} (x : Flow α) (k : α → State → Flow β) : Flow β :=
  match x with
  | .ok a s => k a s
  | .stop s => .stop s

/-- The outcome of an operation: what `k` makes of its answer, or the state in which it has not returned. -/
def Flow.finish {α : Type} (x : Flow α) (k : α → State → State) : Host.Outcome State Fault Refusal :=
  match x with
  | .ok a s => .next (k a s)
  | .stop s => .next s

/-- An operation a running handler may not issue: refused `NOT_EXPOSED` there (43_command_server.md R108). -/
def unlessHandler (i : Instr) (s : State) (k : Host.Outcome State Fault Refusal) :
    Host.Outcome State Fault Refusal :=
  if s.inHandler then .next (s.refuse i (.notExposed i)) else k

/-! ### Steps of HOST and EE -/

/-- HOST_SEND (R105): enabled while the link is up; a byte that finds the buffer full is lost. -/
def hostSend (b : Byte) (s : State) : State :=
  if s.link then
    if s.rx.length < s.cfg.rxCapacity then ({ s with rx := s.rx ++ [b] } : State).emit (.rx b)
    else s.emit (.rxDropped b)
  else s

/-- HOST_LINK_UP and HOST_LINK_DOWN (R106). -/
def setLink (up : Bool) (s : State) : State := { s with link := up }

/-- EE_COMPLETE (R80): enabled while a write cycle is in progress. -/
def eeComplete (s : State) : State :=
  match s.busy with
  | some (a, d) => { s with cell := Memory.write s.cell a d, busy := none }
  | none => s

/-- The instruction an environment step is. -/
def envInstr : Env → Instr
  | .hostSend b => .hostSend b
  | .linkUp => .hostLinkUp
  | .linkDown => .hostLinkDown
  | .eeComplete => .eeComplete

/-- An environment step between two micro-steps of CTRL. -/
def applyEnv (e : Env) (s : State) : State :=
  match e with
  | .hostSend b => hostSend b s
  | .linkUp => setLink true s
  | .linkDown => setLink false s
  | .eeComplete => eeComplete s

/-! ### The schedule inside an operation -/

/-- HOST and EE take the steps the schedule places before CTRL's next turn; the turn is used up. An empty schedule
lets CTRL's operation go on (R6). -/
def yieldAlong : List Slot → State → State
  | [], s => { s with sched := [] }
  | .ctrl :: r, s => { s with sched := r }
  | .timeout :: r, s => { s with sched := r }
  | .env e :: r, s => yieldAlong r (applyEnv e s)

/-- The point between two micro-steps of CTRL. -/
def State.yield (s : State) : State := yieldAlong s.sched s

/-- The point before micro-step `k` of operation `i`, called from `base`: others may step, and `seq` shows the place
(10_state.md R27). -/
def State.micro (i : Instr) (k : Nat) (base : List Frame) (s : State) : State :=
  { s.yield with seq := .op i k :: base }

/-- The operation called from `base` returns. -/
def State.back (base : List Frame) (s : State) : State := { s with seq := base }

/-! ### The transport's ends -/

/-- `TxPush(b)` (R87): with the link down the byte is delivered or lost, by a free bit. -/
def txPush (b : Byte) (s : State) : State :=
  let s1 := s.emit (.tx b)
  if s1.link then { s1 with toHost := s1.toHost ++ [b] }
  else
    let s2 := s1.drew
    if s1.drawn then { s2 with toHost := s2.toHost ++ [b] } else s2

/-- `for b in buf: TxPush(b)`, the micro-steps `k`, `k+1`, … of operation `i` (R98, R99, R103). -/
def txAll (i : Instr) (base : List Frame) : Nat → List Byte → State → State
  | _, [], s => s
  | k, b :: bs, s => txAll i base (k + 1) bs (txPush b (s.micro i k base))

/-- `RxPop() for 1..n`, the micro-steps `k`, `k+1`, … of operation `i` (R93). -/
def rxPop (i : Instr) (base : List Frame) : Nat → Nat → State → List Byte × State
  | _, 0, s => ([], s)
  | k, n + 1, s =>
    let s1 := s.micro i k base
    match s1.rx with
    | [] => ([], s1)
    | b :: r =>
      let (bs, s2) := rxPop i base (k + 1) n { s1 with rx := r }
      (b :: bs, s2)

/-- WAIT_FOR_BYTES n, t called from `base` (R92), its first look: it returns true, or CTRL is held in it. -/
def waitBytes (n : Nat) (t : Duration) (base : List Frame) (s : State) : Flow Bool :=
  if waitMet n s then .ok true (s.back base) else .stop { s with seq := .op (.waitForBytes n t) 1 :: base }

/-- A later look of a held WAIT_FOR_BYTES (R92, R8, R118): the bytes are there, or the wait ends by timeout where this turn
lets it (`late`), or CTRL is still held. -/
def waitAgain (late : Bool) (n : Nat) (base : List Frame) (s : State) : Flow Bool :=
  if waitMet n s then .ok true (s.back base)
  else if late then .ok false ((s.emit (.timeout .waitForBytes)).back base)
  else .stop s

/-- READ_BUFFER n called from `base`, after its wait (R93): the n oldest bytes, or on a timeout the bytes present and free
bytes for the missing ones. -/
def readAfterWait (n : Nat) (ok : Bool) (base : List Frame) (s : State) : List Byte × State :=
  if ok then
    let (bs, t) := rxPop (.readBuffer n) base 1 n s
    (bs, t.back base)
  else
    let k := s.rx.length
    let (got, t) := rxPop (.readBuffer n) base 1 k s
    let (missing, u) := drawBytes (n - k) (t.emit (.shortRead .readBuffer k n))
    (got ++ missing, u.back base)

/-- READ_BUFFER n called from `base` (R93). -/
def readBytes (n : Nat) (base : List Frame) (s : State) : Flow (List Byte) :=
  (waitBytes n s.rxTimeout (.op (.readBuffer n) 0 :: base) s).bind fun ok t =>
  let (bs, u) := readAfterWait n ok base t
  .ok bs u

end Sys2Proof.Machine
end

