-- ==== Sys2Proof/Machine/BusPrim.lean ====
section
/-! DEFINITION. The bus primitives (spec/40_bus_primitives.md): the line values, the chain, the data lines, the strobe
and the delay, and the meanings of the BUS-PRIM rows. -/

namespace Sys2Proof.Machine

/-! ### Line values (R71) -/

/-- `chip_bit(i)`: the cell's bit, or `Draw()` (none) while busy or where the access time is not met. -/
def chipBit (s : State) (p : Line) : Option Bool :=
  if s.busy.isSome then none
  else if s.cfg.accessTimeMet then some (bitOf (s.cellByte s.busAddress) p)
  else none

/-- `line(i)`: the level on data line i, or `Draw()` (none) where both sides drive or none does. -/
def lineLevel (s : State) (p : Line) : Option Bool :=
  match s.dir[p], s.eeDrives with
  | .out, false => some (bitOf s.dout p)
  | .inp, true => chipBit s p
  | .out, true => none
  | .inp, false => none

/-! ### The primitives as micro-steps -/

/-- One serial bit (R73): SDATA takes the bit, then SCLK goes 0→1→0 and the chain shifts on the rising edge. -/
def shiftBit (b : Bool) (s : State) : State :=
  let s1 := { s with pinSdata := { s.pinSdata with level := b }, pinSclk := { s.pinSclk with level := false } }
  let s2 := { s1 with
    pinSclk := { s1.pinSclk with level := true }
    stage := (s1.stage <<< 1) ||| (if s1.pinSdata.level then 1 else 0) }
  { s2 with pinSclk := { s2.pinSclk with level := false } }

/-- The eight bits of a byte, most significant first. -/
def shiftByte (b : Byte) : List Line → State → State
  | [], s => s
  | p :: ps, s => shiftByte b ps (shiftBit (bitOf b p) s)

/-- PUSH8 (R72). -/
def push8 (b : Byte) (s : State) : Flow Unit :=
  if s.ctlReady then .ok () ((shiftByte b linesDown s).emit (.push b))
  else .stop (s.raise (.push8 b) (.notInitialised (.push8 b)))

/-- LATCH (R74): the outputs take the stage at the rising edge, all 16 at once. -/
def latch (s : State) : Flow Unit :=
  if s.ctlReady then
    let s1 := { s with pinLatch := { s.pinLatch with level := true }, q := s.stage }
    let s2 := { s1 with pinLatch := { s1.pinLatch with level := false } }
    .ok () ((s2.emit (.latch s2.q)).noteContention s.contention)
  else .stop (s.raise .latch (.notInitialised .latch))

/-- DATA_DIR (R75). -/
def dataDir (p : Line) (d : Dir) (s : State) : State :=
  ({ s with dir := s.dir.set p.val d } : State).noteContention s.contention

/-- DATA_OUT (R76). -/
def dataOut (p : Line) (x : Bool) (s : State) : State := { s with dout := setBit s.dout p x }

/-- DATA_IN (R77): the sampled bit and the state; reading an output pin, a floating, busy or too-early line draws. -/
def dataIn (p : Line) (s : State) : Bool × State :=
  if s.dir[p] = .out then (s.drawn, s.drew)
  else
    match lineLevel s p with
    | some x => (x, s)
    | none => (s.drawn, s.drew)

/-- `d[i] <- (if dir[i] = OUT then dout[i] else Draw())` for each line (R78). -/
def drivenByte : List Line → Byte → State → Byte × State
  | [], d, s => (d, s)
  | p :: ps, d, s =>
    if s.dir[p] = .out then drivenByte ps (setBit d p (bitOf s.dout p)) s
    else drivenByte ps (setBit d p s.drawn) s.drew

/-- The strobe past WE_PULSE's checks (R78): write enable goes low and high, and a write cycle of byte `d` at `a`
starts, or, where the pulse need not suffice, starts or not by a free bit. -/
def strobe (a : Nat) (d : Byte) (s : State) : State :=
  let s1 := { s with pinWe := { s.pinWe with level := false } }
  let s2 := { s1 with pinWe := { s1.pinWe with level := true } }
  let starts := s2.cfg.wePulseSufficient || s2.drawn
  let s3 := if s2.cfg.wePulseSufficient then s2 else s2.drew
  let s4 := if starts then { s3 with busy := some (a, d) } else s3
  s4.emit (.wePulse a d)

/-- WE_PULSE (R78), its checks in the order of 60_exceptions.md R118. -/
def wePulse (s : State) : Flow Unit :=
  if !s.ctlReady then .stop (s.raise .wePulse (.notInitialised .wePulse))
  else if !s.q.getLsbD 15 then .stop (s.raise .wePulse (.weWithOeAsserted s.q))
  else
    match s.busy with
    | some (a, d) => .stop (s.raise .wePulse (.writeWhileBusy a d s.q))
    | none =>
      let (d, s1) := drivenByte linesUp 0 s
      .ok () (strobe s.busAddress d s1)

/-- DELAY T_SETTLE called from `base` (R79): CTRL is held for the write cycle where the settle delay covers it. -/
def settle (base : List Frame) (s : State) : Flow Unit :=
  if s.cfg.settleSufficient && s.busy.isSome then .stop { s with seq := .op (.delay .tSettle) 1 :: base }
  else .ok () (s.back base)

/-- A later look of a held DELAY T_SETTLE (R79): no timeout ends it. -/
def settleAgain (base : List Frame) (s : State) : Flow Unit :=
  if s.busy.isSome then .stop s else .ok () (s.back base)

/-! ### The meanings -/

/-- PUSH8 b (R72). -/
def execPush8 (b : Byte) (s : State) : Host.Outcome State Fault Refusal :=
  unlessHandler (.push8 b) s ((push8 b s).finish fun _ t => t)

/-- LATCH (R74). -/
def execLatch (s : State) : Host.Outcome State Fault Refusal :=
  unlessHandler .latch s ((latch s).finish fun _ t => t)

/-- DATA_DIR p, d (R75); a pin index above 7 is refused UNMODELLED (60_exceptions.md R117). -/
def execDataDir (p : Nat) (d : Dir) (s : State) : Host.Outcome State Fault Refusal :=
  unlessHandler (.dataDir p d) s <|
    match lineOf p with
    | some l => .next (dataDir l d s)
    | none => .next (s.refuse (.dataDir p d) (.unmodelled (.dataDir p d)))

/-- DATA_OUT p, x (R76). -/
def execDataOut (p : Nat) (x : Bool) (s : State) : Host.Outcome State Fault Refusal :=
  unlessHandler (.dataOut p x) s <|
    match lineOf p with
    | some l => .next (dataOut l x s)
    | none => .next (s.refuse (.dataOut p x) (.unmodelled (.dataOut p x)))

/-- DATA_IN p (R77). -/
def execDataIn (p : Nat) (s : State) : Host.Outcome State Fault Refusal :=
  unlessHandler (.dataIn p) s <|
    match lineOf p with
    | some l =>
      let (x, t) := dataIn l s
      .next { t with ret := .bit x }
    | none => .next (s.refuse (.dataIn p) (.unmodelled (.dataIn p)))

/-- WE_PULSE (R78). -/
def execWePulse (s : State) : Host.Outcome State Fault Refusal :=
  unlessHandler .wePulse s ((wePulse s).finish fun _ t => t)

/-- DELAY t (R79); a duration other than T_SETTLE and T_IDLE is refused UNMODELLED (60_exceptions.md R117). -/
def execDelay (t : Duration) (s : State) : Host.Outcome State Fault Refusal :=
  unlessHandler (.delay t) s <|
    match t with
    | .tSettle => (settle s.seq s).finish fun _ u => u
    | .tIdle => .next s
    | t => .next (s.refuse (.delay t) (.unmodelled (.delay t)))

end Sys2Proof.Machine
end

