-- ==== Sys2Proof/Machine/BusOp.lean ====
section
/-! DEFINITION. The bus-controller operations INIT, SET_ADDRESS, READ and WRITE (spec/41_bus_controller.md) as sequences
of the primitives, with the point between two micro-steps (`State.micro`) before each. -/

namespace Sys2Proof.Machine

/-- `for i in lines: DATA_DIR i, d`, the micro-steps `k`, `k+1`, … of operation `i`. -/
def setDirs (i : Instr) (base : List Frame) (d : Dir) : Nat → List Line → State → State
  | _, [], s => s
  | k, p :: ps, s => setDirs i base d (k + 1) ps (dataDir p d (s.micro i k base))

/-- `for i in lines: DATA_OUT i, v[i]`. -/
def driveByte (i : Instr) (base : List Frame) (v : Byte) : Nat → List Line → State → State
  | _, [], s => s
  | k, p :: ps, s => driveByte i base v (k + 1) ps (dataOut p (bitOf v p) (s.micro i k base))

/-- `for i in lines: r[i] <- DATA_IN i`. -/
def sampleByte (i : Instr) (base : List Frame) : Nat → List Line → Byte → State → Byte × State
  | _, [], r, s => (r, s)
  | k, p :: ps, r, s =>
    let (x, t) := dataIn p (s.micro i k base)
    sampleByte i base (k + 1) ps (setBit r p x) t

/-- The two pushes and the latch of SET_ADDRESS a, oe called from `base` (R82, R83): nothing of CTRL comes between. -/
def presentAddress (a : Nat) (oe : Bool) (base : List Frame) (s : State) : Flow Unit :=
  let w := srwWord a oe
  let i := Instr.setAddress a oe
  (push8 (hiByte w) (s.micro i 0 base)).bind fun _ s1 =>
  (push8 (loByte w) (s1.micro i 1 base)).bind fun _ s2 =>
  (latch (s2.micro i 2 base)).bind fun _ s3 => .ok () (s3.back base)

/-- The checks of SET_ADDRESS, READ and WRITE, in the order of 60_exceptions.md R118. -/
def busGuard (i : Instr) (a : Nat) (s : State) : Option Fault :=
  if !s.initDone then some (.notInitialised i)
  else if addressInRange s.cfg a then none
  else some (.addressRange i a)

/-- READ a past its checks, called from `base` (R84): the lines become inputs, the address is presented with output
enabled, the lines are sampled from 7 down to 0. -/
def readCell (a : Nat) (base : List Frame) (s : State) : Flow Byte :=
  let i := Instr.read a
  let s1 := setDirs i base .inp 0 linesUp s
  (presentAddress a true (.op i 8 :: base) (s1.micro i 8 base)).bind fun _ s2 =>
  let (r, s3) := sampleByte i base 9 linesDown 0 s2
  .ok r (s3.back base)

/-- The write phase of WRITE a, v (R85): the lines become outputs, the address is presented with output disabled, the
byte is driven from line 0 up to 7, write enable is pulsed and the settle delay passes. -/
def writePhase (a : Nat) (v : Byte) (base : List Frame) (s : State) : Flow Unit :=
  let i := Instr.write a v
  let s1 := setDirs i base .out 1 linesUp s
  (presentAddress a false (.op i 9 :: base) (s1.micro i 9 base)).bind fun _ s2 =>
  let s3 := driveByte i base v 10 linesUp s2
  (wePulse (s3.micro i 18 base)).bind fun _ s4 =>
  (settle (.op i 19 :: base) (s4.micro i 19 base)).bind fun _ s5 => .ok () (s5.back base)

/-- WRITE a, v past its checks, called from `base` (R85): the elision READ, then nothing or the write phase. -/
def writeCell (a : Nat) (v : Byte) (base : List Frame) (s : State) : Flow Unit :=
  (readCell a (.op (.write a v) 0 :: base) s).bind fun cur s1 =>
  if elides cur v then .ok () ((s1.emit (.elided a)).back base) else writePhase a v base s1

/-- INIT's first step (R81): the levels of the control pins, then their modes, in one micro-step. -/
def initPins (s : State) : State :=
  let s1 := { s with
    pinSdata := { s.pinSdata with level := false }
    pinSclk := { s.pinSclk with level := false }
    pinLatch := { s.pinLatch with level := false }
    pinWe := { s.pinWe with level := true } }
  { s1 with
    pinSdata := { s1.pinSdata with mode := .out }
    pinSclk := { s1.pinSclk with mode := .out }
    pinLatch := { s1.pinLatch with mode := .out }
    pinWe := { s1.pinWe with mode := .out }
    ctlReady := true }

/-- INIT called from `base` (R81). -/
def initBus (base : List Frame) (s : State) : Flow Unit :=
  let s1 := initPins (s.micro .init 0 base)
  let s2 := setDirs .init base .inp 1 linesUp s1
  (presentAddress 0 true (.op .init 9 :: base) (s2.micro .init 9 base)).bind fun _ s3 =>
  .ok () { s3.back base with initDone := true }

/-! ### The meanings -/

/-- INIT (R81). -/
def execInit (s : State) : Host.Outcome State Fault Refusal :=
  unlessHandler .init s ((initBus s.seq s).finish fun _ t => t)

/-- SET_ADDRESS a, oe (R82). -/
def execSetAddress (a : Nat) (oe : Bool) (s : State) : Host.Outcome State Fault Refusal :=
  unlessHandler (.setAddress a oe) s <|
    match busGuard (.setAddress a oe) a s with
    | some f => .next (s.raise (.setAddress a oe) f)
    | none => (presentAddress a oe s.seq s).finish fun _ t => t

/-- READ a (R84). -/
def execRead (a : Nat) (s : State) : Host.Outcome State Fault Refusal :=
  match busGuard (.read a) a s with
  | some f => .next (s.raise (.read a) f)
  | none => (readCell a s.seq s).finish fun r t => { t with ret := .u8 r }

/-- WRITE a, v (R85). -/
def execWrite (a : Nat) (v : Byte) (s : State) : Host.Outcome State Fault Refusal :=
  match busGuard (.write a v) a s with
  | some f => .next (s.raise (.write a v) f)
  | none => (writeCell a v s.seq s).finish fun _ t => t

end Sys2Proof.Machine
end

