-- ==== Sys2Proof/Machine/Env.lean ====
section
/-! DEFINITION. The steps of HOST and EE (spec/42_byte_transport.md R105, R106; spec/40_bus_primitives.md R80): the
meanings of the ENV rows. A step that is not enabled is no step: the state stays (assumption log 18). -/

namespace Sys2Proof.Machine

/-- HOST_SEND b (R105). -/
def execHostSend (b : Byte) (s : State) : Host.Outcome State Fault Refusal := .next (hostSend b s)

/-- HOST_LINK_UP (R106). -/
def execHostLinkUp (s : State) : Host.Outcome State Fault Refusal := .next (setLink true s)

/-- HOST_LINK_DOWN (R106). -/
def execHostLinkDown (s : State) : Host.Outcome State Fault Refusal := .next (setLink false s)

/-- EE_COMPLETE (R80). -/
def execEeComplete (s : State) : Host.Outcome State Fault Refusal := .next (eeComplete s)

end Sys2Proof.Machine
end

