-- ==== Sys2Proof/Machine/Server.lean ====
section
/-! DEFINITION. The command server (spec/43_command_server.md): registration, the handshake, the dispatch of a request and
the ACK … FIN envelope, and the meanings of the SERVER rows, the wire codes among them. Only HANDSHAKE_ATTEMPT's and
SERVE_CONNECTED's answers to a byte write the connection state (spec/10_state.md R25). -/

namespace Sys2Proof.Machine

/-! ### A byte taken from the wire, the answers of the two server calls -/

/-- The handshake's answer to a byte (R65, R111): ACK and CONNECTED, or RST. -/
def handshakeByte (b : Byte) (s : State) : State :=
  match decodeDisconnected b with
  | .accept => { txPush codeAck s with fsm := .connected }
  | .reject => txPush codeRst s

/-- Dispatch of an opcode by a SERVE_CONNECTED called from `base` (R112). The registered handler starts after ACK, its frame
above SERVE_CONNECTED's, its variables empty (each call starts them afresh: DESIGN CHOICE, assumption log 17); an opcode
without handler draws ERR and ends the session. A name with no program (unreachable: R109 refuses it) is refused
UNMODELLED. -/
def dispatchOpcode (op : Byte) (base : List Frame) (s : State) : Flow Unit :=
  match s.tableAt op with
  | some h =>
    match bodyOf s.cfg h with
    | some body => .stop { txPush codeAck s with seq := .handler op body 0 [] :: .op .serveConnected 3 :: base }
    | none => .stop ((s.back base).refuse (.request op) (.unmodelled (.registerHandler op h)))
  | none => .ok () { txPush codeErr s with fsm := .disconnected, seq := base }

/-- SERVE_CONNECTED's answer to a byte (R66, R112): BYE before the table. -/
def connectedByte (b : Byte) (base : List Frame) (s : State) : Flow Unit :=
  match decodeConnected b with
  | .bye => .ok () { txPush codeBye s with fsm := .disconnected, seq := base }
  | .opcode op => dispatchOpcode op base s

/-- The server's answer to a byte, by the connection state (R65, R66). -/
def serverByte (b : Byte) (base : List Frame) (s : State) : Flow Unit :=
  match s.fsm with
  | .disconnected => .ok () ((handshakeByte b s).back base)
  | .connected => connectedByte b base s

/-! ### The server's calls -/

/-- HANDSHAKE_ATTEMPT called from `base`, after its wait (R111): nothing on a timeout, otherwise one byte is taken and
answered. -/
def handshakeRest (ok : Bool) (base : List Frame) (s : State) : State :=
  if ok then
    match rxPop .handshakeAttempt base 1 1 s with
    | (b :: _, t) => (handshakeByte b (t.micro .handshakeAttempt 2 base)).back base
    | ([], t) => t.back base
  else s.back base

/-- HANDSHAKE_ATTEMPT called from `base` (R111). -/
def handshakeAttempt (base : List Frame) (s : State) : Flow Unit :=
  (waitBytes 1 .tHandshake (.op .handshakeAttempt 0 :: base) s).bind fun ok t => .ok () (handshakeRest ok base t)

/-- SERVE_CONNECTED called from `base`, after its wait (R112): on a timeout DELAY T_IDLE passes without effect, otherwise one
byte is taken and answered. -/
def connectedRest (ok : Bool) (base : List Frame) (s : State) : Flow Unit :=
  if ok then
    match rxPop .serveConnected base 1 1 s with
    | (b :: _, t) => connectedByte b base (t.micro .serveConnected 2 base)
    | ([], t) => .ok () (t.back base)
  else .ok () ((s.micro .serveConnected 1 base).back base)

/-- SERVE_CONNECTED called from `base` (R112). -/
def serveConnected (base : List Frame) (s : State) : Flow Unit :=
  (waitBytes 1 .tServe (.op .serveConnected 0 :: base) s).bind fun ok t => connectedRest ok base t

/-- SERVE in DISCONNECTED, called from `base`, after an attempt (R110): it returns in CONNECTED and repeats otherwise. -/
def serveAgain (base : List Frame) (s : State) : Flow Unit :=
  if s.fsm = .connected then .ok () (s.back base) else .stop { s with seq := .op .serve 0 :: base }

/-- SERVE called from `base` (R110): by the connection state handshake attempts, or one server call. -/
def serve (base : List Frame) (s : State) : Flow Unit :=
  match s.fsm with
  | .disconnected => (handshakeAttempt (.op .serve 0 :: base) s).bind fun _ t => serveAgain base t
  | .connected => (serveConnected (.op .serve 1 :: base) s).bind fun _ t => .ok () (t.back base)

/-! ### The meanings -/

/-- REGISTER_HANDLER op, h (R109). A name with no program is no handler and is refused UNMODELLED (R117). -/
def execRegisterHandler (op : Byte) (h : HandlerName) (s : State) : Host.Outcome State Fault Refusal :=
  unlessHandler (.registerHandler op h) s <|
    if reservedOpcode s.cfg op then .next (s.raise (.registerHandler op h) (.reservedOpcode op))
    else if (bodyOf s.cfg h).isSome then .next { s with table := sparsePut s.table op.toNat h }
    else .next (s.refuse (.registerHandler op h) (.unmodelled (.registerHandler op h)))

/-- SERVE (R110). -/
def execServe (s : State) : Host.Outcome State Fault Refusal :=
  unlessHandler .serve s ((serve s.seq s).finish fun _ t => t)

/-- HANDSHAKE_ATTEMPT (R111). -/
def execHandshakeAttempt (s : State) : Host.Outcome State Fault Refusal :=
  unlessHandler .handshakeAttempt s ((handshakeAttempt s.seq s).finish fun _ t => t)

/-- SERVE_CONNECTED (R112). -/
def execServeConnected (s : State) : Host.Outcome State Fault Refusal :=
  unlessHandler .serveConnected s ((serveConnected s.seq s).finish fun _ t => t)

/-- SYN from the host (R58, R65, R112 corner case 1): the server's answer to the byte (assumption log 14). -/
def execSyn (s : State) : Host.Outcome State Fault Refusal :=
  unlessHandler .syn s ((serverByte codeSyn s.seq s).finish fun _ t => t)

/-- ACK from the device (R58): the byte is sent. -/
def execAck (s : State) : Host.Outcome State Fault Refusal := unlessHandler .ack s (.next (txPush codeAck s))

/-- ERR from the device (R58): the byte is sent. -/
def execErr (s : State) : Host.Outcome State Fault Refusal := unlessHandler .err s (.next (txPush codeErr s))

/-- RST from the device (R58): the byte is sent. -/
def execRst (s : State) : Host.Outcome State Fault Refusal := unlessHandler .rst s (.next (txPush codeRst s))

/-- FIN: "handler completed". The byte is sent, and the handler that was running has returned: its frame, and its variables
with it, are gone (R58, R112). -/
def sendFin (s : State) : State :=
  let t := txPush codeFin s
  match t.seq with
  | .handler _ _ _ _ :: base => { t with seq := base }
  | _ => t

/-- FIN from the device, on the handler's return (R58, R112). -/
def execFin (s : State) : Host.Outcome State Fault Refusal := .next (sendFin s)

/-- BYE from the host (R58, R66, R112): the server's answer to the byte. -/
def execBye (s : State) : Host.Outcome State Fault Refusal :=
  unlessHandler .bye s ((serverByte codeBye s.seq s).finish fun _ t => t)

/-- REQUEST: a request frame's opcode reaches the server; its payload stays in `rx` for the handler (R60, R112). -/
def execRequest (op : Byte) (s : State) : Host.Outcome State Fault Refusal :=
  unlessHandler (.request op) s ((serverByte op s.seq s).finish fun _ t => t)

end Sys2Proof.Machine
end

