-- ==== Sys2Proof/Machine/Xport.lean ====
section
/-! DEFINITION. The byte transport (spec/42_byte_transport.md): the meanings of the XPORT rows. A handler may issue every
one of them (spec/43_command_server.md R108). None faults but PRINT and PRINTLN (R88). -/

namespace Sys2Proof.Machine

/-- IS_CONNECTED (R89): the link, not the session. -/
def execIsConnected (s : State) : Host.Outcome State Fault Refusal := .next { s with ret := .bool s.link }

/-- SET_RX_TIMEOUT t (R90). -/
def execSetRxTimeout (t : Duration) (s : State) : Host.Outcome State Fault Refusal := .next { s with rxTimeout := t }

/-- AVAILABLE (R91). -/
def execAvailable (s : State) : Host.Outcome State Fault Refusal := .next { s with ret := .count s.rx.length }

/-- WAIT_FOR_BYTES n, t (R92). The bound `t` changes nothing: the schedule decides when the wait times out (R8). Where the
bytes are not there CTRL is held, and `waitAgain` is how the wait goes on. -/
def execWaitForBytes (n : Nat) (t : Duration) (s : State) : Host.Outcome State Fault Refusal :=
  (waitBytes n t s.seq s).finish fun ok u => { u with ret := .bool ok }

/-- READ_BUFFER n (R93). -/
def execReadBuffer (n : Nat) (s : State) : Host.Outcome State Fault Refusal :=
  (readBytes n s.seq s).finish fun bs t => { t with ret := .bytes bs }

/-- The shared decoding of READ_I8, READ_I16 and READ_I32 (operation `i`), m bytes wide (R94). -/
def readInt (i : Instr) (m : Nat) (s : State) : Host.Outcome State Fault Refusal :=
  (readBytes m (.op i 0 :: s.seq) s).finish fun bs t => { t.back s.seq with ret := .int (leiDecode m bs) }

/-- READ_I8 (R95). -/
def execReadI8 (s : State) : Host.Outcome State Fault Refusal := readInt .readI8 1 s

/-- READ_I16 (R96). -/
def execReadI16 (s : State) : Host.Outcome State Fault Refusal := readInt .readI16 2 s

/-- READ_I32 (R97). -/
def execReadI32 (s : State) : Host.Outcome State Fault Refusal := readInt .readI32 4 s

/-- Operation `i` sends bytes, one micro-step each, and returns (R87). -/
def sendAll (i : Instr) (l : List Byte) (s : State) : State := (txAll i s.seq 0 l s).back s.seq

/-- WRITE_BUFFER buf (R98). -/
def execWriteBuffer (buf : List Byte) (s : State) : Host.Outcome State Fault Refusal :=
  .next (sendAll (.writeBuffer buf) buf s)

/-- WRITE_I8 x (R99, R100). -/
def execWriteI8 (x : Int) (s : State) : Host.Outcome State Fault Refusal :=
  .next (sendAll (.writeI8 x) (leiEncode 1 x) s)

/-- WRITE_I16 x (R99, R101). -/
def execWriteI16 (x : Int) (s : State) : Host.Outcome State Fault Refusal :=
  .next (sendAll (.writeI16 x) (leiEncode 2 x) s)

/-- WRITE_I32 x (R99, R102). -/
def execWriteI32 (x : Int) (s : State) : Host.Outcome State Fault Refusal :=
  .next (sendAll (.writeI32 x) (leiEncode 4 x) s)

/-- The shared behaviour of PRINT and PRINTLN (R103, R104): text that holds `0x00` faults, nothing sent. -/
def printText (i : Instr) (text : List Byte) (s : State) : State :=
  if text.contains 0 then s.raise i (.textContainsNul i text) else sendAll i (strz text) s

/-- PRINT s (R103). -/
def execPrint (text : List Byte) (s : State) : Host.Outcome State Fault Refusal :=
  .next (printText (.print text) text s)

/-- PRINTLN s (R104): as PRINT, no line terminator. -/
def execPrintln (text : List Byte) (s : State) : Host.Outcome State Fault Refusal :=
  .next (printText (.println text) text s)

end Sys2Proof.Machine
end

