-- ==== Sys2Proof/Machine/Dispatch.lean ====
section
/-! DEFINITION. One arm per instruction: the meaning of each row of spec/opcode_table.json. -/

namespace Sys2Proof.Machine

def exec (i : Instr) (s : State) : Host.Outcome State Fault Refusal :=
  match i with
  | .push8 b => Sys2Proof.Machine.execPush8 b s
  | .latch => Sys2Proof.Machine.execLatch s
  | .dataDir p d => Sys2Proof.Machine.execDataDir p d s
  | .dataOut p x => Sys2Proof.Machine.execDataOut p x s
  | .dataIn p => Sys2Proof.Machine.execDataIn p s
  | .wePulse => Sys2Proof.Machine.execWePulse s
  | .delay t => Sys2Proof.Machine.execDelay t s
  | .init => Sys2Proof.Machine.execInit s
  | .setAddress a oe => Sys2Proof.Machine.execSetAddress a oe s
  | .read a => Sys2Proof.Machine.execRead a s
  | .write a v => Sys2Proof.Machine.execWrite a v s
  | .isConnected => Sys2Proof.Machine.execIsConnected s
  | .setRxTimeout t => Sys2Proof.Machine.execSetRxTimeout t s
  | .available => Sys2Proof.Machine.execAvailable s
  | .waitForBytes n t => Sys2Proof.Machine.execWaitForBytes n t s
  | .readBuffer n => Sys2Proof.Machine.execReadBuffer n s
  | .readI8 => Sys2Proof.Machine.execReadI8 s
  | .readI16 => Sys2Proof.Machine.execReadI16 s
  | .readI32 => Sys2Proof.Machine.execReadI32 s
  | .writeBuffer buf => Sys2Proof.Machine.execWriteBuffer buf s
  | .writeI8 x => Sys2Proof.Machine.execWriteI8 x s
  | .writeI16 x => Sys2Proof.Machine.execWriteI16 x s
  | .writeI32 x => Sys2Proof.Machine.execWriteI32 x s
  | .print text => Sys2Proof.Machine.execPrint text s
  | .println text => Sys2Proof.Machine.execPrintln text s
  | .registerHandler op h => Sys2Proof.Machine.execRegisterHandler op h s
  | .serve => Sys2Proof.Machine.execServe s
  | .handshakeAttempt => Sys2Proof.Machine.execHandshakeAttempt s
  | .serveConnected => Sys2Proof.Machine.execServeConnected s
  | .syn => Sys2Proof.Machine.execSyn s
  | .ack => Sys2Proof.Machine.execAck s
  | .err => Sys2Proof.Machine.execErr s
  | .rst => Sys2Proof.Machine.execRst s
  | .fin => Sys2Proof.Machine.execFin s
  | .bye => Sys2Proof.Machine.execBye s
  | .request op => Sys2Proof.Machine.execRequest op s
  | .hostSend b => Sys2Proof.Machine.execHostSend b s
  | .hostLinkUp => Sys2Proof.Machine.execHostLinkUp s
  | .hostLinkDown => Sys2Proof.Machine.execHostLinkDown s
  | .eeComplete => Sys2Proof.Machine.execEeComplete s

end Sys2Proof.Machine
end

