-- ==== Sys2Proof/Machine/Sequencer.lean ====
section
/-! DEFINITION. The sequencer: whose turn it is, which operation runs next, how a held operation goes on, and what an
operation returns to (spec/00_scope.md R6, R7, R8; spec/10_state.md R27; spec/43_command_server.md R107, R112;
spec/70_reset_and_hazards.md R132). -/

namespace Sys2Proof.Machine

/-- What a step does. -/
inductive Turn where
  /-- HOST or EE moves: operation `i` in state `s`. -/
  | env (i : Instr) (s : State)
  /-- CTRL runs operation `i` in state `s`; what it returns to is `base`. -/
  | run (i : Instr) (base : List Frame) (s : State)
  /-- CTRL goes on inside an operation, is still held, or a handler computes: the state is `s`. -/
  | own (s : State)
  /-- CTRL has stopped at a fault. -/
  | fault (f : Fault)
  /-- CTRL has stopped at a refusal. -/
  | refused (r : Refusal)

/-- The running handler goes to statement `pc` with variables `vars`. -/
def handlerAt (op : Byte) (body : Handler) (base : List Frame) (pc : Nat) (vars : List (Nat × Value))
    (s : State) : State :=
  { s with seq := .handler op body pc vars :: base }

/-- The variables of the handler at statement `pc` once its call has returned `v`. -/
def takeResult (body : Handler) (pc : Nat) (vars : List (Nat × Value)) (v : Value) : List (Nat × Value) :=
  match body[pc]? with
  | some (.call (some k) _) => varPut vars k v
  | _ => vars

/-- Operation `i`, called from `base` and standing at micro-step `k`, goes on: the operation it called has returned `v`. -/
def goOn (i : Instr) (k : Nat) (v : Value) (base : List Frame) (s : State) : Flow Value :=
  match i, v with
  | .readBuffer n, .bool ok =>
    let (bs, t) := readAfterWait n ok base s
    .ok (.bytes bs) t
  | .readI8, .bytes bs => .ok (.int (leiDecode 1 bs)) (s.back base)
  | .readI16, .bytes bs => .ok (.int (leiDecode 2 bs)) (s.back base)
  | .readI32, .bytes bs => .ok (.int (leiDecode 4 bs)) (s.back base)
  | .handshakeAttempt, .bool ok => .ok .none (handshakeRest ok base s)
  | .serveConnected, .bool ok => (connectedRest ok base s).bind fun _ t => .ok .none t
  | .serve, _ => if k = 0 then (serveAgain base s).bind fun _ t => .ok .none t else .ok .none (s.back base)
  | _, _ => .ok .none (s.back base)

/-- An operation called from these frames has returned `v`: each goes on in turn until one has not returned, or the running
handler has the value and stands at its next statement, or CTRL is at TOP. -/
def returnTo : List Frame → Value → State → State
  | [], _, s => s.back []
  | .handler op body pc vars :: base, v, s => handlerAt op body base (pc + 1) (takeResult body pc vars v) s
  | .op i k :: base, v, s =>
    match goOn i k v base s with
    | .ok v' t => returnTo base v' t
    | .stop t => t

/-- What follows a later look of a held operation called from `base`. -/
def afterLook {α : Type} (base : List Frame) (x : Flow α) (v : α → Value) : State :=
  match x with
  | .ok a t => returnTo base (v a) t
  | .stop t => t

/-- The turn of a running handler (R107): its next statement, or FIN when it has returned (R112). -/
def handlerTurn (op : Byte) (body : Handler) (pc : Nat) (vars : List (Nat × Value)) (base : List Frame)
    (s : State) : Turn :=
  match body[pc]? with
  | none => .run .fin base s
  | some .ret => .run .fin base s
  | some (.call _ c) =>
    match callInstr vars c with
    | some i => .run i s.seq s
    | none => .own { s with refused := some (s.refused.getD (.unmodelledCall c)) }
  | some (.set dst o x y) =>
    .own (handlerAt op body base (pc + 1) (varPut vars dst (evalBin o (argValue vars x) (argValue vars y))) s)
  | some (.branch x target) =>
    .own (handlerAt op body base (if valueTrue (argValue vars x) then target else pc + 1) vars s)

/-- CTRL's turn where it has not stopped: the next call of the top-level program at TOP, and SERVE for ever after the
last (R132); a held operation looks again, the wait ending by timeout where this turn lets it (`late`); SERVE's loop goes on
(R110); a running handler goes on. -/
def ctrlTurn (late : Bool) (s : State) : Turn :=
  match s.seq with
  | [] =>
    match s.calls with
    | i :: rest => .run i [] { s with calls := rest }
    | [] => .run .serve [] s
  | .handler op body pc vars :: base => handlerTurn op body pc vars base s
  | .op (.waitForBytes n _) (_ + 1) :: base => .own (afterLook base (waitAgain late n base s) .bool)
  | .op (.delay .tSettle) (_ + 1) :: base => .own (afterLook base (settleAgain base s) fun _ => .none)
  | .op i _ :: base => .run i base (s.back base)

/-- CTRL's turn: a stopped CTRL answers why (R119, R7). -/
def ctrlOrStop (late : Bool) (s : State) : Turn :=
  match s.faults with
  | f :: _ => .fault f
  | [] =>
    match s.refused with
    | some r => .refused r
    | none => ctrlTurn late s

/-- Whose turn it is: HOST's or EE's where the schedule says so, otherwise CTRL's (R6). Where the schedule is at its end, EE
moves while a write cycle is in progress, so that a busy chip eventually completes (R80), and a held wait ends by timeout: the
weak fairness of R8, R80 and R92 (assumption log 4). -/
def nextTurn (s : State) : Turn :=
  match s.sched with
  | .env e :: rest => .env (envInstr e) { s with sched := rest }
  | .ctrl :: rest => ctrlOrStop false { s with sched := rest }
  | .timeout :: rest => ctrlOrStop true { s with sched := rest }
  | [] => if s.busy.isSome then .env .eeComplete s else ctrlOrStop true s

/-- CTRL's operation, called from `base`, has answered `t`. Where it has returned (`seq` is `base` again), its result goes to
what called it, and nothing keeps it (10_state.md R32). -/
def afterRun (base : List Frame) (t : State) : State :=
  let u := { t with ret := .none }
  if !t.stopped && t.seq = base then returnTo base t.ret u else u

/-- What a step answers once its operation has. -/
def afterOutcome (base : List Frame) (o : Host.Outcome State Fault Refusal) : Host.Outcome State Fault Refusal :=
  match o with
  | .next t => .next (afterRun base t)
  | .fault f => .fault f
  | .refused r => .refused r

/-- `s` with `i` as the call CTRL makes next, at TOP, and CTRL's turn the next one. -/
def placeCall (i : Instr) (s : State) : State :=
  { s with seq := [], calls := i :: s.calls, sched := .ctrl :: s.sched }

end Sys2Proof.Machine
end

