-- ==== Sys2Proof/Machine/Step.lean ====
section
/-! DEFINITION. One step of the machine: the agent whose turn it is runs its operation (spec/00_scope.md R6, R7). -/

namespace Sys2Proof.Machine

/-- One step. -/
def step (s : State) : Host.Outcome State Fault Refusal :=
  match nextTurn s with
  | .env i t => exec i t
  | .run i base t => afterOutcome base (exec i { t with ret := .none })
  | .own t => .next t
  | .fault f => .fault f
  | .refused r => .refused r

/-- `s` with the operation of an opcode-table image placed as the call CTRL makes next (assumption log 11). Bits that
are no operation place nothing. -/
def State.withFetchWord (s : State) (nbits w : Nat) : State :=
  match decodeTableWord nbits w with
  | some i => placeCall i s
  | none => s

end Sys2Proof.Machine
end

