-- ==== Sys2Proof/Machine/Reset.lean ====
section
/-! DEFINITION. A reset of the controller, which the EEPROM outlives (spec/10_state.md R28; spec/70_reset_and_hazards.md
R129). No operation and no step of the block resets it: this is the state a new run starts from. -/

namespace Sys2Proof.Machine

/-- The EEPROM array and the count of free bits where power goes: the array keeps its contents (R28), and a cell whose write
cycle is cut off holds a free byte (DESIGN CHOICE, assumption log 28). -/
def cutOff (s : State) : List Host.Cell × Nat :=
  match s.busy with
  | none => (s.cell, s.draws)
  | some (a, _) =>
    let (b, t) := drawByte linesUp 0 s
    (Memory.write s.cell a b, t.draws)

/-- `s` after a reset of the controller: the power-on state of R129 under the same configuration, with the EEPROM array as it
was left. -/
def State.controllerReset (s : State) : State :=
  { State.powerOn s.cfg with cell := (cutOff s).1, sched := s.sched, draws := (cutOff s).2 }

end Sys2Proof.Machine
end

