-- ==== Sys2Proof/Safety.lean ====
section
/-! DEFINITION. What claims are stated in: a running machine, the invariant of the machine, and the two wire directions
as the history shows them. -/

namespace Sys2Proof.Machine

/-- CTRL runs: no fault is recorded and the state is not refused (00_scope.md R7). -/
abbrev State.Running (s : State) : Prop := s.faults = [] ∧ s.refused = none

/-- No HOST or EE step is scheduled: an operation of CTRL's runs without one, and at CTRL's turn a wait whose condition is false
times out. -/
abbrev State.Quiet (s : State) : Prop := s.sched = []

/-- No HOST_LINK_DOWN is scheduled. -/
abbrev LinkStays (l : List Slot) : Prop := Slot.env .linkDown ∉ l

/-- The next turn is CTRL's: the head of the schedule is no HOST or EE step, and at the schedule's end no write
cycle is in progress, for EE moves then (00_scope.md R6, 40_bus_primitives.md R80; assumption log 4). -/
def CtrlTurn (s : State) : Prop := (∀ e r, s.sched ≠ .env e :: r) ∧ (s.sched = [] → s.busy = none)

/-- The state in which CTRL's turn begins: the turn is used up. -/
def State.turnTaken (s : State) : State := { s with sched := s.sched.tail }

/-- A wait held at this turn of CTRL's may end by timeout: the schedule says so, or is at its end (R8; log 4). -/
def State.mayTimeOut (s : State) : Bool := s.sched.head? != some .ctrl

/-- A configuration within the bounds of 00_scope.md R5. -/
abbrev ConfigOk (c : Config) : Prop := 1 ≤ c.addrWidth ∧ c.addrWidth ≤ 15 ∧ 1 ≤ c.rxCapacity

/-- The EEPROM array is in canonical form and within the address space (10_state.md R28, R29). -/
def CellsOk (s : State) : Prop :=
  Memory.wf s.cell = true ∧ (∀ e ∈ s.cell, e.1 ≤ maxAddress s.cfg) ∧ (∀ e ∈ s.busy, e.1 ≤ maxAddress s.cfg)

/-- The handler table is in canonical form, of 256 slots, with no reserved opcode, every handler with a program
(R26, 30_encoding.md R67, 43_command_server.md R109). -/
def TableOk (s : State) : Prop :=
  sparseWf s.table = true ∧
    ∀ e ∈ s.table, e.1 < 256 ∧ reservedOpcode s.cfg (BitVec.ofNat 8 e.1) = false ∧ (bodyOf s.cfg e.2).isSome = true

/-- The control pins (R19, R20): INIT leaves them ready, and between operations ready pins are outputs at their idle
levels. -/
def PinsOk (s : State) : Prop :=
  (s.initDone = true → s.ctlReady = true) ∧
    (s.ctlReady = true →
      s.pinSdata.mode = .out ∧ s.pinSclk = ⟨.out, false⟩ ∧ s.pinLatch = ⟨.out, false⟩ ∧ s.pinWe = ⟨.out, true⟩)

/-- The invariant of the machine. That `ret` holds no value says that a wait's result is not kept as state (R32). -/
def Inv (s : State) : Prop :=
  ConfigOk s.cfg ∧ CellsOk s ∧ TableOk s ∧ PinsOk s ∧ s.rx.length ≤ s.cfg.rxCapacity ∧ s.ret = .none

/-- The bus controller's state is the same (10_state.md §1). -/
def SameBus (s t : State) : Prop :=
  t.stage = s.stage ∧ t.q = s.q ∧ t.dir = s.dir ∧ t.dout = s.dout ∧ t.pinSdata = s.pinSdata ∧
    t.pinSclk = s.pinSclk ∧ t.pinLatch = s.pinLatch ∧ t.pinWe = s.pinWe ∧ t.ctlReady = s.ctlReady ∧
    t.initDone = s.initDone

/-- What the bus controller leaves alone whatever HOST and EE do meanwhile: the configuration, what was sent, the
server's state, the program's position and the marks of a stopped run. -/
def SameServer (s t : State) : Prop :=
  t.cfg = s.cfg ∧ t.toHost = s.toHost ∧ t.rxTimeout = s.rxTimeout ∧ t.fsm = s.fsm ∧ t.table = s.table ∧
    t.seq = s.seq ∧ t.calls = s.calls ∧ t.faults = s.faults ∧ t.refused = s.refused

/-- What a bus operation on address `a` needs to run normally: INIT has completed, the control pins are as INIT leaves
them between operations, and the address is one of the EEPROM's (41_bus_controller.md R82, R84, R85). -/
def BusReady (a : Nat) (s : State) : Prop :=
  s.initDone = true ∧ PinsOk s ∧ s.cfg.addrWidth ≤ 15 ∧ addressInRange s.cfg a = true

/-- The three assumption switches (70_reset_and_hazards.md R138 to R140). -/
def SwitchesOn (c : Config) : Prop :=
  c.accessTimeMet = true ∧ c.wePulseSufficient = true ∧ c.settleSufficient = true

/-- The bus at the end of a bus operation: both registers of the chain hold `w`, the lines have directions `d` and output
latches `v`, the control pins are idle outputs, SDATA at the last bit pushed (R19). -/
def BusIs (w : Srw) (d : Vector Dir 8) (v : Byte) (t : State) : Prop :=
  t.stage = w ∧ t.q = w ∧ t.dir = d ∧ t.dout = v ∧ t.pinSdata = ⟨.out, w.getLsbD 0⟩ ∧ t.pinSclk = ⟨.out, false⟩ ∧
    t.pinLatch = ⟨.out, false⟩ ∧ t.pinWe = ⟨.out, true⟩ ∧ t.ctlReady = true ∧ t.initDone = true

/-- All eight lines have direction `d`. -/
def allLines (d : Dir) : Vector Dir 8 := Vector.replicate 8 d

/-- Between `s` and `t` the counters went up by `p` pushes, `l` latches and `w` write-enable pulses (R31). -/
def Counted (p l w : Nat) (s t : State) : Prop :=
  t.pushes = s.pushes + p ∧ t.latches = s.latches + l ∧ t.wePulses = s.wePulses + w

/-- The `Contention` event of a change from `s` to `t`: one where contention has become true, none otherwise
(40_bus_primitives.md R71). -/
def contentionEvent (s t : State) : List Event := if !s.contention && t.contention then [.contention] else []

/-- EE alone may have acted: the write cycle and the array are as before, or the cycle in progress has completed and its
byte is written (R80). -/
def EeMeanwhile (s t : State) : Prop :=
  (t.busy = s.busy ∧ t.cell = s.cell) ∨
    (t.busy = none ∧ ∃ a d, s.busy = some (a, d) ∧ t.cell = Memory.write s.cell a d)

/-- Of the state only what HOST and EE write, the history and the schedule may have changed, EE's part as R80 allows. -/
def OthersOnly (s t : State) : Prop :=
  EeMeanwhile s t ∧
    t = { s with rx := t.rx, link := t.link, cell := t.cell, busy := t.busy, hist := t.hist, sched := t.sched }

/-- The record of `f` in the sticky set (60_exceptions.md R116). -/
def addFault (l : List Fault) (f : Fault) : List Fault := if l.contains f then l else l ++ [f]

/-- `s` once CTRL has stopped at operation `i` with fault `f`: the record has joined the sticky set, `seq` stays at the
operation, and nothing else has changed (R119). -/
def stoppedAt (i : Instr) (f : Fault) (s : State) : State :=
  { s with seq := .op i 0 :: s.seq, faults := addFault s.faults f }

/-- `s` once operation `i` was refused for `r`: the mark is set, a reason already there stays (R117). -/
def refusedAt (i : Instr) (r : Refusal) (s : State) : State :=
  { s with seq := .op i 0 :: s.seq, refused := some (s.refused.getD r) }

/-- `s` with the bytes `l` sent over a link that is up: one `Tx` event for each, and all delivered (R87). -/
def sent (l : List Byte) (s : State) : State := { s with hist := s.hist ++ l.map .tx, toHost := s.toHost ++ l }

/-- Every address of the EEPROM reads as before. -/
def SameCells (s t : State) : Prop := ∀ x, t.cellByte x = s.cellByte x

/-- The operations a running handler may issue (43_command_server.md R108): XPORT, READ and WRITE. -/
def handlerMayIssue : Instr → Bool
  | .read _ | .write _ _ => true
  | .isConnected | .setRxTimeout _ | .available | .waitForBytes _ _ | .readBuffer _ => true
  | .readI8 | .readI16 | .readI32 => true
  | .writeBuffer _ | .writeI8 _ | .writeI16 _ | .writeI32 _ | .print _ | .println _ => true
  | _ => false

/-- The steps that are not CTRL's calls: HOST's and EE's (00_scope.md R6), and the server's own FIN when a handler has
returned (43_command_server.md R112). -/
def notACall : Instr → Bool
  | .hostSend _ | .hostLinkUp | .hostLinkDown | .eeComplete | .fin => true
  | _ => false

/-- The bytes the host sent that were received, in order (10_state.md R31). -/
def received (h : List Event) : List Byte := h.filterMap fun e => match e with | .rx b => some b | _ => none

/-- The bytes CTRL wrote, in order. -/
def written (h : List Event) : List Byte := h.filterMap fun e => match e with | .tx b => some b | _ => none

/-- An event of HOST's sending. -/
def hostEvent : Event → Bool
  | .rx _ | .rxDropped _ => true
  | _ => false

/-- The signed value of one, two or four bytes, the first byte lowest (30_encoding.md R63). -/
def signedOf : List Byte → Int
  | [b0] => b0.toInt
  | [b0, b1] => (b1 ++ b0).toInt
  | [b0, b1, b2, b3] => (b3 ++ b2 ++ b1 ++ b0).toInt
  | _ => 0

/-- What a read of `n` bytes gives whose wait ends by timeout in `s` (42_byte_transport.md R93): the bytes there, then
bytes of free bits in the order they are drawn (assumption log 5), `n` in all. -/
def ShortBytes (n : Nat) (s : State) (bs : List Byte) : Prop :=
  bs.length = n ∧ s.rx <+: bs ∧
    ∀ (j : Nat) (p : Line), s.rx.length ≤ j → j < n →
      (bs.getD j 0).getLsbD p.val = Config.drawBit (s.draws + 8 * (j - s.rx.length) + p.val)

/-- What such a read leaves, returned to `base` (R92, R93): the bytes there are consumed, the bytes HOST sends meanwhile
stay in `rx`, and a `Timeout` and a `ShortRead` are in the history. -/
def ShortEnd (n : Nat) (base : List Frame) (s t : State) : Prop :=
  ∃ h : List Event, (∀ e ∈ h, hostEvent e = true) ∧
    t.hist = s.hist ++ (.timeout .waitForBytes :: h ++ [.shortRead .readBuffer s.rx.length n]) ∧
    t.rx = received h ∧ OthersOnly { s with seq := base, draws := s.draws + 8 * (n - s.rx.length) } t

/-- The server's answer `reply` to a byte taken from the head of `rx`, whose rest was `r`, whatever HOST does meanwhile and
whatever becomes of the link: one byte written, the session then `f`, the place `l`, nothing else of CTRL's changed. -/
def Answered (reply : Byte) (r : List Byte) (f : Fsm) (l : List Frame) (s t : State) : Prop :=
  ∃ (h : List Event) (d : List Byte), t.hist = s.hist ++ h ∧ t.rx = r ++ received h ∧ written h = [reply] ∧
    d.Sublist [reply] ∧ OthersOnly { s with fsm := f, seq := l, toHost := s.toHost ++ d, draws := t.draws } t

/-- The place of a WAIT_FOR_BYTES that is held (10_state.md R27). -/
abbrev waitFrame (n : Nat) (d : Duration) : Frame := .op (.waitForBytes n d) 1

/-- The history only grew, and all the host's accepted bytes, and nothing else, joined `rx` at its end. -/
def OnlyArrivals (s t : State) : Prop := ∃ h, t.hist = s.hist ++ h ∧ t.rx = s.rx ++ received h

/-- Both directions of the wire are FIFOs (20_memory.md R49): what is buffered is the end of what was received, and
what was delivered is, in order, some of what was written. -/
def WireFifo (s : State) : Prop := s.rx <:+ received s.hist ∧ s.toHost.Sublist (written s.hist)

end Sys2Proof.Machine
end

