-- ==== Sys2Proof/Certificates/Slice0/Obligations.lean ====
section
/-! DEFINITION. The statements for the provers: what the block's operations do, and what every step keeps, as the
numbered rules of spec/ say it. A model-side condition (which part of the schedule is due, whether a handler runs) is a
hypothesis; `logN` names the assumption-log entry a clause rests on. -/

open Sys2Proof Sys2Proof.Machine

/-! ### Encodings -/

/-- R54, R58, R63, R64, R70: every well-formed operation is read back from its record, whatever follows (log12). -/
def Obligations.RecordRoundTrip : Prop :=
  ∀ (i : Instr) (rest : List Byte), WellFormed i → decode (encode i ++ rest) = .ok (i, rest)

/-- The other direction: what the decoder accepts is the record of a well-formed operation, so a record has one
meaning and a byte pattern no record has is refused (log12). -/
def Obligations.RecordIsCanonical : Prop :=
  ∀ (l rest : List Byte) (i : Instr), decode l = .ok (i, rest) → WellFormed i ∧ l = encode i ++ rest

/-- R54, R16: the fields of the word of a valid address, at every address width, and R55: its two pushes are its high
and its low byte. -/
def Obligations.AddressWordFields : Prop :=
  ∀ (c : Config) (a : Nat) (oe : Bool), c.addrWidth ≤ 15 → addressInRange c a = true →
    (srwWord a oe).getLsbD 15 = !oe ∧
    (∀ k, c.addrWidth ≤ k → k < 15 → (srwWord a oe).getLsbD k = false) ∧
    (srwWord a oe).toNat % 2 ^ c.addrWidth = a ∧
    (hiByte (srwWord a oe)).toNat = (srwWord a oe).toNat / 256 ∧
    (loByte (srwWord a oe)).toNat = (srwWord a oe).toNat % 256

/-- Images written out from R56, R58, R63 and opcode_table.json, and what the decoder reads from them. Which row an image that
several rows share decodes to (0x0000 as INIT, 0x07FF as READ and not SET_ADDRESS, a code byte as the code, another byte as
REQUEST), and that WRITE's data byte is 0, is the model's choice, log13. -/
def Obligations.SampleImages : Prop :=
  srwWord 0x000 true = 0x0000 ∧ srwWord 0x7FF true = 0x07FF ∧ srwWord 0x7FF false = 0x87FF ∧
  srwWord 0x123 true = 0x0123 ∧ srwWord 0x123 false = 0x8123 ∧ srwWord 0x000 false = 0x8000 ∧
  decodeTableWord 16 0b0000000000000000 = some .init ∧
  decodeTableWord 16 0b0000011111111111 = some (.read 0x7FF) ∧
  decodeTableWord 16 0b1000000100100011 = some (.write 0x123 0) ∧
  decodeTableWord 8 0x73 = some .syn ∧ decodeTableWord 8 0x61 = some .ack ∧ decodeTableWord 8 0x65 = some .err ∧
  decodeTableWord 8 0x72 = some .rst ∧ decodeTableWord 8 0x66 = some .fin ∧ decodeTableWord 8 0x62 = some .bye ∧
  decodeTableWord 8 0x99 = some (.request 0x99) ∧
  leiDecode 2 [0xFF, 0x07] = 2047 ∧ leiDecode 4 [0x78, 0x56, 0x34, 0x12] = 0x12345678 ∧
  leiDecode 1 [0x9C] = -100 ∧ strz [0x6F, 0x6B] = [0x6F, 0x6B, 0x00]

/-! ### Bus primitives -/

/-- R72, R73: PUSH8 with the control pins ready. The chain's low byte moves up, the byte enters, SDATA is left at the
last bit pushed and SCLK low (log20); nothing else changes. -/
def Obligations.PushEightBits : Prop :=
  ∀ (b : Byte) (s : State), s.inHandler = false → s.ctlReady = true →
    exec (.push8 b) s = .next { s with
      stage := s.stage.extractLsb' 0 8 ++ b
      pinSdata := { s.pinSdata with level := b.getLsbD 0 }
      pinSclk := { s.pinSclk with level := false }
      hist := s.hist ++ [.push b] }

/-- R74: LATCH with the control pins ready. All 16 outputs take the stage; contention is noted where it begins. -/
def Obligations.LatchCommits : Prop :=
  ∀ s : State, s.inHandler = false → s.ctlReady = true →
    exec .latch s = .next { s with
      q := s.stage
      pinLatch := { s.pinLatch with level := false }
      hist := s.hist ++ .latch s.stage :: contentionEvent s { s with q := s.stage } }

/-- R75: DATA_DIR, whole: the direction, the event, and the corner cases (OUT while the chip drives is contention; an
input line follows the chip or floats; setting the direction a line has changes nothing). -/
def Obligations.DataDirection : Prop :=
  ∀ (p : Line) (d : Dir) (s : State), s.inHandler = false →
    let t := { s with
      dir := s.dir.set p.val d
      hist := s.hist ++ contentionEvent s { s with dir := s.dir.set p.val d } }
    exec (.dataDir p.val d) s = .next t ∧
    (d = .out → s.eeDrives = true → t.contention = true) ∧
    (d = .inp → s.eeDrives = true → lineLevel t p = chipBit s p) ∧
    (d = .inp → s.eeDrives = false → lineLevel t p = none) ∧
    (d = .out → s.eeDrives = false → lineLevel t p = some (s.dout.getLsbD p.val)) ∧
    (s.dir[p] = d → t = s)

/-- R76: DATA_OUT, whole: one bit of the output latch, and the corner case: on an input line the value is kept and
appears on the line only after DATA_DIR p, OUT. -/
def Obligations.DataOutputLatch : Prop :=
  ∀ (p : Line) (x : Bool) (s : State), s.inHandler = false →
    ∃ v : Byte, exec (.dataOut p.val x) s = .next { s with dout := v } ∧
      (∀ r : Line, v.getLsbD r.val = if r = p then x else s.dout.getLsbD r.val) ∧
      (s.dir[p] = .out → s.eeDrives = false → lineLevel { s with dout := v } p = some x) ∧
      (s.dir[p] = .inp →
        (∀ r : Line, lineLevel { s with dout := v } r = lineLevel s r) ∧
        (s.eeDrives = false →
          ∃ t, exec (.dataDir p.val .out) { s with dout := v } = .next t ∧ lineLevel t p = some x))

/-- R77, R71: DATA_IN gives the addressed cell's bit on an input line the idle chip drives in time, and on every other
line a free bit (log5). -/
def Obligations.DataSample : Prop :=
  ∀ (p : Line) (s : State), s.inHandler = false →
    (s.dir[p] = .inp ∧ s.q.getLsbD 15 = false ∧ s.pinWe.level = true ∧ s.busy = none ∧
        s.cfg.accessTimeMet = true →
      exec (.dataIn p.val) s =
        .next { s with ret := .bit ((s.cellByte (s.q.toNat % 2 ^ s.cfg.addrWidth)).getLsbD p.val) }) ∧
    (s.dir[p] = .out ∨ s.q.getLsbD 15 = true ∨ s.pinWe.level = false ∨ s.busy ≠ none ∨
        s.cfg.accessTimeMet = false →
      exec (.dataIn p.val) s = .next { s with ret := .bit (Config.drawBit s.draws), draws := s.draws + 1 })

/-- R78: WE_PULSE past its checks. The byte pulsed has the output latch's bit on every output line; a sufficient pulse
starts the write cycle, an insufficient one may not; with all lines outputs and a sufficient pulse nothing is free. -/
def Obligations.WritePulse : Prop :=
  ∀ s : State, s.inHandler = false → s.ctlReady = true → s.q.getLsbD 15 = true → s.busy = none →
    ∃ (d : Byte) (b : Option (Nat × Byte)) (n : Nat),
      exec .wePulse s = .next { s with
        pinWe := { s.pinWe with level := true }
        busy := b
        draws := n
        hist := s.hist ++ [.wePulse (s.q.toNat % 2 ^ s.cfg.addrWidth) d] } ∧
      (∀ p : Line, s.dir[p] = .out → d.getLsbD p.val = s.dout.getLsbD p.val) ∧
      (b = none ∨ b = some (s.q.toNat % 2 ^ s.cfg.addrWidth, d)) ∧
      (s.cfg.wePulseSufficient = true → b = some (s.q.toNat % 2 ^ s.cfg.addrWidth, d)) ∧
      (s.dir = allLines .out → d = s.dout ∧ (s.cfg.wePulseSufficient = true → n = s.draws))

/-- R72, R74, R78, R116, R118: the faults of the primitives, and the order of WE_PULSE's checks. -/
def Obligations.PrimitiveFaults : Prop :=
  ∀ s : State, s.inHandler = false →
    (s.ctlReady = false →
      (∀ b, exec (.push8 b) s = .next (stoppedAt (.push8 b) (.notInitialised (.push8 b)) s)) ∧
      exec .latch s = .next (stoppedAt .latch (.notInitialised .latch) s) ∧
      exec .wePulse s = .next (stoppedAt .wePulse (.notInitialised .wePulse) s)) ∧
    (s.ctlReady = true → s.q.getLsbD 15 = false →
      exec .wePulse s = .next (stoppedAt .wePulse (.weWithOeAsserted s.q) s)) ∧
    (s.ctlReady = true → s.q.getLsbD 15 = true → ∀ a d, s.busy = some (a, d) →
      exec .wePulse s = .next (stoppedAt .wePulse (.writeWhileBusy a d s.q) s))

/-- R79, R7: DELAY T_IDLE passes without effect, and so does T_SETTLE where no cycle is in progress or the delay is not
known to cover one; otherwise T_SETTLE holds CTRL, with no other effect. Held, CTRL's turns change nothing while the cycle is
in progress, no timeout ending it; at the schedule's end EE completes the cycle (log4); the first turn of CTRL's after that
returns to the caller. -/
def Obligations.DelayHolds : Prop :=
  ∀ s : State,
    (s.inHandler = false →
      exec (.delay .tIdle) s = .next s ∧
      (s.busy = none ∨ s.cfg.settleSufficient = false → exec (.delay .tSettle) s = .next s) ∧
      (s.busy ≠ none → s.cfg.settleSufficient = true →
        let t := { s with seq := .op (.delay .tSettle) 1 :: s.seq }
        exec (.delay .tSettle) s = .next t ∧ (s.Running → t.held = true))) ∧
    (∀ base, s.Running → s.seq = .op (.delay .tSettle) 1 :: base →
      (s.busy ≠ none → CtrlTurn s → step s = .next s.turnTaken) ∧
      (s.busy ≠ none → s.sched = [] → step s = exec .eeComplete s) ∧
      (s.busy = none → CtrlTurn s → step s = .next (returnTo base .none { s.turnTaken with seq := base })))

/-- R117: a data line above 7, and a DELAY of another duration, are refused UNMODELLED; nothing else changes. -/
def Obligations.UnmodelledShapes : Prop :=
  ∀ (s : State) (p : Nat) (d : Dir) (x : Bool) (t : Duration), s.inHandler = false → 7 < p →
    t ≠ .tSettle → t ≠ .tIdle →
    exec (.dataDir p d) s = .next (refusedAt (.dataDir p d) (.unmodelled (.dataDir p d)) s) ∧
    exec (.dataOut p x) s = .next (refusedAt (.dataOut p x) (.unmodelled (.dataOut p x)) s) ∧
    exec (.dataIn p) s = .next (refusedAt (.dataIn p) (.unmodelled (.dataIn p)) s) ∧
    exec (.delay t) s = .next (refusedAt (.delay t) (.unmodelled (.delay t)) s)

/-- R80: EE_COMPLETE writes the byte of the cycle in progress and ends it; every other address reads as before. Where no
cycle is in progress it is no step (log18). And a busy chip eventually completes, whatever started the cycle and whatever the
switches: under every schedule, in at most one step more than the schedule is long, no cycle is in progress, or CTRL has
stopped. That EE moves at the schedule's end is log4. -/
def Obligations.EepromCompletes : Prop :=
  ∀ s : State,
    (∀ a d, s.busy = some (a, d) →
      ∃ t, exec .eeComplete s = .next t ∧ t = { s with cell := t.cell, busy := none } ∧
        t.cellByte a = d ∧ ∀ x, x ≠ a → t.cellByte x = s.cellByte x) ∧
    (s.busy = none → exec .eeComplete s = .next s) ∧
    (s.busy ≠ none → ∃ (k : Nat) (u : State), k ≤ s.sched.length + 1 ∧ Host.Core.run Sys2Proof.core k s = .next u ∧
      (u.busy = none ∨ ¬ u.Running))

/-! ### Bus-controller operations -/

/-- R81, R129, R130: INIT from any state, however often, whatever HOST and EE do meanwhile: the "after INIT" column, two
pushes and a latch; `dout`, the EEPROM, the transport and the server are left alone. -/
def Obligations.InitEndState : Prop :=
  ∀ s : State, s.inHandler = false →
    ∃ t, exec .init s = .next t ∧ BusIs 0x0000 (allLines .inp) s.dout t ∧ Counted 2 1 0 s t ∧
      SameServer s t ∧ EeMeanwhile s t ∧ OnlyArrivals s t ∧ t.ret = s.ret ∧ t.draws = s.draws

/-- R82: SET_ADDRESS presents the word of its operands; the data lines, the EEPROM, the transport and the server are left
alone. -/
def Obligations.SetAddressEndState : Prop :=
  ∀ (a : Nat) (oe : Bool) (s : State), s.inHandler = false → BusReady a s →
    ∃ t, exec (.setAddress a oe) s = .next t ∧ BusIs (srwWord a oe) s.dir s.dout t ∧ Counted 2 1 0 s t ∧
      SameServer s t ∧ EeMeanwhile s t ∧ OnlyArrivals s t ∧ t.ret = s.ret ∧ t.draws = s.draws

/-- R55, R82, R86(3): what SET_ADDRESS does, event by event, where no HOST or EE step falls into it: the high byte, the
low byte, one latch. -/
def Obligations.SetAddressTrace : Prop :=
  ∀ (a : Nat) (oe : Bool) (s : State), s.inHandler = false → BusReady a s → s.Quiet →
    exec (.setAddress a oe) s = .next { s with
      stage := srwWord a oe
      q := srwWord a oe
      pinSdata := { s.pinSdata with level := (srwWord a oe).getLsbD 0 }
      hist := s.hist ++
        [.push (hiByte (srwWord a oe)), .push (loByte (srwWord a oe)), .latch (srwWord a oe)] ++
        contentionEvent s { s with q := srwWord a oe } }

/-- R82, R84, R85, R116, R118: before INIT the three operations fault NOT_INITIALISED, whatever the address; after it an
address above MAX_ADDRESS faults ADDRESS_RANGE; nothing of the bus moves. READ and WRITE so while a handler runs, too. -/
def Obligations.BusGuardFaults : Prop :=
  ∀ (a : Nat) (oe : Bool) (v : Byte) (s : State),
    (s.initDone = false →
      (s.inHandler = false →
        exec (.setAddress a oe) s = .next (stoppedAt (.setAddress a oe) (.notInitialised (.setAddress a oe)) s)) ∧
      exec (.read a) s = .next (stoppedAt (.read a) (.notInitialised (.read a)) s) ∧
      exec (.write a v) s = .next (stoppedAt (.write a v) (.notInitialised (.write a v)) s)) ∧
    (s.initDone = true → 2 ^ s.cfg.addrWidth ≤ a →
      (s.inHandler = false →
        exec (.setAddress a oe) s = .next (stoppedAt (.setAddress a oe) (.addressRange (.setAddress a oe) a) s)) ∧
      exec (.read a) s = .next (stoppedAt (.read a) (.addressRange (.read a) a) s) ∧
      exec (.write a v) s = .next (stoppedAt (.write a v) (.addressRange (.write a v) a) s))

/-- R84: READ completes from every state in which the bus is ready, with some byte, whatever HOST and EE do. -/
def Obligations.ReadEndState : Prop :=
  ∀ (a : Nat) (s : State), BusReady a s →
    ∃ (r : Byte) (t : State), exec (.read a) s = .next t ∧ t.ret = .u8 r ∧
      BusIs (srwWord a true) (allLines .inp) s.dout t ∧ Counted 2 1 0 s t ∧
      SameServer s t ∧ EeMeanwhile s t ∧ OnlyArrivals s t

/-- R84, R44: with no write cycle in progress and the access time met, the byte is the cell's, whatever HOST does, and
every address reads as before. -/
def Obligations.ReadGivesCell : Prop :=
  ∀ (a : Nat) (s : State), BusReady a s → s.busy = none → s.cfg.accessTimeMet = true →
    ∃ t, exec (.read a) s = .next t ∧ t.ret = .u8 (s.cellByte a) ∧ t.busy = none ∧ SameCells s t ∧
      t.draws = s.draws

/-- R85: WRITE of the byte the cell holds ends as READ does: no write-enable pulse, an `Elided` event at the end. -/
def Obligations.WriteElided : Prop :=
  ∀ (a : Nat) (v : Byte) (s : State), BusReady a s → s.busy = none → s.cfg.accessTimeMet = true →
    s.cellByte a = v →
    ∃ t, exec (.write a v) s = .next t ∧ BusIs (srwWord a true) (allLines .inp) s.dout t ∧
      Counted 2 1 0 s t ∧ t.hist.getLast? = some (.elided a) ∧
      t.busy = none ∧ SameCells s t ∧ SameServer s t ∧ OnlyArrivals s t ∧ t.ret = s.ret ∧ t.draws = s.draws

/-- R85: WRITE of another byte under the three switches: one pulse, the bus as the rule says. It has returned with the cell
holding the byte, or it is held in its settle delay; then it returns at CTRL's first turn after the cycle is over. Once the
cycle is over, whatever HOST does, the cell holds the byte and every other address reads as before. -/
def Obligations.WritePerformed : Prop :=
  ∀ (a : Nat) (v : Byte) (s : State), BusReady a s → s.busy = none → SwitchesOn s.cfg → s.cellByte a ≠ v →
    ∃ t, exec (.write a v) s = .next t ∧ BusIs (srwWord a false) (allLines .out) v t ∧ Counted 4 2 1 s t ∧
      SameServer s { t with seq := s.seq } ∧ OnlyArrivals s t ∧ t.ret = s.ret ∧ t.draws = s.draws ∧
      (∀ u, OthersOnly t u → u.busy = none → u.cellByte a = v ∧ ∀ x, x ≠ a → u.cellByte x = s.cellByte x) ∧
      (t.seq = s.seq ∧ t.busy = none ∨
        t.seq = .op (.delay .tSettle) 1 :: .op (.write a v) 19 :: s.seq ∧ t.busy = some (a, v) ∧ SameCells s t ∧
          ∀ u, OthersOnly t u → u.busy = none → u.Running → CtrlTurn u →
            step u = .next (returnTo s.seq .none { u.turnTaken with seq := s.seq }))

/-- R85, R135, V-OP-14: the events of a performed WRITE where no HOST step falls into it, contention from the first line
made an output to the second latch. -/
def Obligations.WriteTrace : Prop :=
  ∀ (a : Nat) (v : Byte) (s : State), BusReady a s → s.busy = none → SwitchesOn s.cfg → s.cellByte a ≠ v →
    s.Quiet →
    ∃ t, exec (.write a v) s = .next t ∧ t.hist = s.hist ++
      [.push (hiByte (srwWord a true)), .push (loByte (srwWord a true)), .latch (srwWord a true), .contention,
        .push (hiByte (srwWord a false)), .push (loByte (srwWord a false)), .latch (srwWord a false),
        .wePulse a v]

/-- R85, R116: the one fault a ready bus leaves WRITE is WRITE_WHILE_BUSY, and none where no cycle was in progress. -/
def Obligations.WriteFaultsOnlyBusy : Prop :=
  ∀ (a : Nat) (v : Byte) (s : State), BusReady a s →
    ∃ t, exec (.write a v) s = .next t ∧ t.refused = s.refused ∧
      (∀ f ∈ t.faults, f ∈ s.faults ∨ ∃ a' d q, f = .writeWhileBusy a' d q) ∧
      (s.busy = none → t.faults = s.faults)

/-- R48(a), R86(1): READ after WRITE gives the byte written, for every valid address, whatever HOST does, and whether the
write was elided or performed. The WRITE has returned once no write cycle is in progress (`WritePerformed`); the READ is
called from any place `l`. -/
def Obligations.ReadAfterWrite : Prop :=
  ∀ (a : Nat) (v : Byte) (s : State), BusReady a s → s.busy = none → SwitchesOn s.cfg →
    ∃ t, exec (.write a v) s = .next t ∧ ∀ u l, OthersOnly t u → u.busy = none →
      ∃ w, exec (.read a) { u with seq := l } = .next w ∧ w.ret = .u8 v ∧
        ∀ x, x ≠ a → w.cellByte x = s.cellByte x

/-- R45, R86(2): two WRITEs of one byte to one address issue one pulse between them, none where the cell held it; the second,
called from any place `l` once the first has returned, issues none. -/
def Obligations.SecondWriteIsElided : Prop :=
  ∀ (a : Nat) (v : Byte) (s : State), BusReady a s → s.busy = none → SwitchesOn s.cfg →
    ∃ t, exec (.write a v) s = .next t ∧ t.wePulses = s.wePulses + (if s.cellByte a = v then 0 else 1) ∧
      ∀ u l, OthersOnly t u → u.busy = none →
        ∃ w, exec (.write a v) { u with seq := l } = .next w ∧ w.seq = l ∧ w.wePulses = u.wePulses ∧ w.cellByte a = v

/-- R6, R83: what HOST does between the micro-steps of a bus operation changes nothing of the bus: under any two
schedules (carried in the state: log3) it leaves the same bus, the same answer and the same counts, and the same EEPROM once
the cycle that may still be in progress has completed (EE's move: log4). -/
def Obligations.BusIgnoresSchedule : Prop :=
  ∀ (i : Instr) (a : Nat) (s : State) (l m : List Slot),
    i = .init ∨ (∃ oe, i = .setAddress a oe) ∨ i = .read a ∨ (∃ v, i = .write a v) →
    s.inHandler = false → BusReady a s → s.busy = none → SwitchesOn s.cfg →
    ∃ t u, exec i { s with sched := l } = .next t ∧ exec i { s with sched := m } = .next u ∧
      SameBus t u ∧ (eeComplete t).cell = (eeComplete u).cell ∧ t.ret = u.ret ∧ Counted 0 0 0 t u

/-! ### Byte transport -/

/-- R89, R90: IS_CONNECTED answers the link and SET_RX_TIMEOUT sets the wait bound; nothing else changes. -/
def Obligations.LinkStatusAndTimeout : Prop :=
  ∀ (d : Duration) (s : State),
    exec .isConnected s = .next { s with ret := .bool s.link } ∧
    exec (.setRxTimeout d) s = .next { s with rxTimeout := d }

/-- R91: AVAILABLE answers the number of bytes buffered, at most the capacity, and changes nothing; a byte that comes
right after makes the answer stale. -/
def Obligations.AvailableCounts : Prop :=
  ∀ s : State,
    exec .available s = .next { s with ret := .count s.rx.length } ∧
    (s.rx.length ≤ s.cfg.rxCapacity →
      ∀ n t, exec .available s = .next t → t.ret = .count n → n ≤ s.cfg.rxCapacity) ∧
    (s.link = true → s.rx.length < s.cfg.rxCapacity → ∀ b, ∃ t u,
      exec .available s = .next t ∧ exec (.hostSend b) t = .next u ∧ u.rx.length = s.rx.length + 1 ∧
        u.ret = .count s.rx.length)

/-- R92, R7, R8, R118: WAIT_FOR_BYTES returns true at once where the bytes are there; where they are not CTRL is held in it,
with no other effect. A turn of CTRL's then ends the wait, true where the bytes are there, by timeout where they are not and the
schedule lets it; or CTRL is still held. -/
def Obligations.WaitAtOnceOrTimeout : Prop :=
  ∀ (n : Nat) (d : Duration) (s : State),
    (n ≤ s.rx.length → exec (.waitForBytes n d) s = .next { s with ret := .bool true }) ∧
    (s.rx.length < n → let t := { s with seq := waitFrame n d :: s.seq }
      exec (.waitForBytes n d) s = .next t ∧ (s.Running → t.held = true)) ∧
    (∀ base, s.Running → CtrlTurn s → s.seq = waitFrame n d :: base →
      step s = .next
        (if n ≤ s.rx.length then returnTo base (.bool true) { s.turnTaken with seq := base }
        else if s.mayTimeOut then
          returnTo base (.bool false) { s.turnTaken.emit (.timeout .waitForBytes) with seq := base }
        else s.turnTaken))

/-- R92, R118, R8: from every state in which CTRL is held in a wait, under every schedule, after some turns in which only HOST
and EE act the wait ends, consuming nothing, with the answer whether the bytes are there then and a `Timeout` exactly where
they are not; more bytes than the buffer holds never come. That it ends where the schedule ends is log4. -/
def Obligations.WaitEndsTruly : Prop :=
  ∀ (n : Nat) (d : Duration) (base : List Frame) (s : State), s.Running → s.seq = waitFrame n d :: base →
    ∃ (k : Nat) (u : State), k ≤ s.sched.length + 1 ∧ Host.Core.run Sys2Proof.core k s = .next u ∧
      OthersOnly s u ∧ OnlyArrivals s u ∧
      step u = .next
        (if n ≤ u.rx.length then returnTo base (.bool true) { u.turnTaken with seq := base }
        else returnTo base (.bool false) { u.turnTaken.emit (.timeout .waitForBytes) with seq := base }) ∧
      (s.rx.length ≤ s.cfg.rxCapacity → s.cfg.rxCapacity < n → u.rx.length < n)

/-- R93: READ_BUFFER with the bytes there gives the n oldest and leaves the rest, whatever HOST does, without timeout or
short read. -/
def Obligations.ReadBufferFull : Prop :=
  ∀ (n : Nat) (s : State), n ≤ s.rx.length →
    ∃ (t : State) (h : List Event), exec (.readBuffer n) s = .next t ∧ t.ret = .bytes (s.rx.take n) ∧
      t.hist = s.hist ++ h ∧ t.rx = s.rx.drop n ++ received h ∧
      (.timeout .waitForBytes ∉ h ∧ ∀ k, .shortRead .readBuffer k n ∉ h) ∧
      OthersOnly { s with ret := t.ret } t

/-- R93: a READ_BUFFER with too few bytes there is held in its wait. Where that wait ends by timeout, whatever was there
before it and whatever the schedule, the k bytes there then are returned and consumed, bytes that HOST sends after that stay in
`rx`, the n - k missing bytes are free (log5), and a `Timeout` and a `ShortRead` are recorded. -/
def Obligations.ReadBufferShort : Prop :=
  ∀ (n : Nat) (s : State), s.rx.length < n →
    exec (.readBuffer n) s = .next { s with seq := waitFrame n s.rxTimeout :: .op (.readBuffer n) 0 :: s.seq } ∧
    (∀ d base, s.Running → CtrlTurn s → s.mayTimeOut = true →
      s.seq = waitFrame n d :: .op (.readBuffer n) 0 :: base →
      ∃ bs t, step s = .next (returnTo base (.bytes bs) t) ∧ ShortBytes n s bs ∧ ShortEnd n base s t)

/-- R94 to R97: each integer read is READ_BUFFER of its width with the bytes decoded, the first byte lowest, as a
two's-complement number. With too few bytes there it is held in READ_BUFFER's wait; where that ends by timeout, under every
schedule, the bytes there are the low bytes and the missing ones are free bits in the order drawn (log5). No READ_I16 exceeds
32767, and every address fits. -/
def Obligations.IntegerReads : Prop :=
  ∀ (i : Instr) (m : Nat) (s : State), i = .readI8 ∧ m = 1 ∨ i = .readI16 ∧ m = 2 ∨ i = .readI32 ∧ m = 4 →
    (m ≤ s.rx.length → ∃ t, exec (.readBuffer m) s = .next t ∧ t.ret = .bytes (s.rx.take m) ∧
      exec i s = .next { t with ret := .int (signedOf (s.rx.take m)) }) ∧
    (s.rx.length < m → exec i s = .next { s with
      seq := waitFrame m s.rxTimeout :: .op (.readBuffer m) 0 :: .op i 0 :: s.seq }) ∧
    (∀ d base, s.Running → CtrlTurn s → s.mayTimeOut = true → s.rx.length < m →
      s.seq = waitFrame m d :: .op (.readBuffer m) 0 :: .op i 0 :: base →
      ∃ bs t, step s = .next (returnTo base (.int (signedOf bs)) t) ∧ ShortBytes m s bs ∧ ShortEnd m base s t) ∧
    (∀ bs, m = 2 → bs.length = m → signedOf bs ≤ 32767) ∧
    (s.cfg.addrWidth ≤ 15 → maxAddress s.cfg ≤ 32767)

/-- R98, R87: WRITE_BUFFER sends its bytes unchanged and in order, one `Tx` each, whatever HOST does; what is delivered is
some of them in order, and all of them over a link that stays up. It consumes nothing and changes nothing else. -/
def Obligations.WriteBufferSends : Prop :=
  ∀ (buf : List Byte) (s : State),
    (∃ (t : State) (h : List Event) (d : List Byte), exec (.writeBuffer buf) s = .next t ∧
      t.hist = s.hist ++ h ∧ written h = buf ∧ t.rx = s.rx ++ received h ∧ d.Sublist buf ∧
      OthersOnly { s with toHost := s.toHost ++ d, draws := t.draws } t ∧
      (s.link = true → LinkStays s.sched → d = buf ∧ t.draws = s.draws)) ∧
    (s.Quiet → s.link = true → exec (.writeBuffer buf) s = .next (sent buf s))

/-- R99 to R102: each integer write is WRITE_BUFFER of the integer's bytes, the lowest first, the integer taken modulo
2^N. -/
def Obligations.IntegerWrites : Prop :=
  ∀ (x : Int) (s : State),
    (∃ t, exec (.writeI8 x) s = .next t ∧ exec (.writeBuffer [BitVec.ofInt 8 x]) s = .next t) ∧
    (∃ t, exec (.writeI16 x) s = .next t ∧
      exec (.writeBuffer [BitVec.ofInt 8 x, BitVec.ofInt 8 (x / 256)]) s = .next t) ∧
    (∃ t, exec (.writeI32 x) s = .next t ∧
      exec (.writeBuffer [BitVec.ofInt 8 x, BitVec.ofInt 8 (x / 2 ^ 8), BitVec.ofInt 8 (x / 2 ^ 16),
        BitVec.ofInt 8 (x / 2 ^ 24)]) s = .next t)

/-- R103, R104: PRINT and PRINTLN send the text and one `0x00`, no line terminator; text that holds `0x00` faults and
sends nothing. -/
def Obligations.PrintsText : Prop :=
  ∀ (text : List Byte) (s : State),
    (0 ∉ text → ∃ t, exec (.print text) s = .next t ∧ exec (.println text) s = .next t ∧
      exec (.writeBuffer (text ++ [0])) s = .next t) ∧
    (0 ∈ text →
      exec (.print text) s = .next (stoppedAt (.print text) (.textContainsNul (.print text) text) s) ∧
      exec (.println text) s = .next (stoppedAt (.println text) (.textContainsNul (.println text) text) s))

/-! ### Command server -/

/-- R109, R67: REGISTER_HANDLER. A reserved opcode faults and overwrites nothing; another opcode's slot takes the handler,
over any previous one, and every other slot stays. SYN, BYE and the deployment's extra opcodes are reserved, no others. -/
def Obligations.RegistersHandler : Prop :=
  ∀ (op : Byte) (h : HandlerName) (s : State), s.inHandler = false →
    (op = 0x73 ∨ op = 0x62 ∨ op ∈ s.cfg.extraReserved →
      exec (.registerHandler op h) s =
        .next (stoppedAt (.registerHandler op h) (.reservedOpcode op) s)) ∧
    (op ≠ 0x73 → op ≠ 0x62 → op ∉ s.cfg.extraReserved → (bodyOf s.cfg h).isSome = true →
      ∃ t, exec (.registerHandler op h) s = .next t ∧ t = { s with table := t.table } ∧
        t.tableAt op = some h ∧ ∀ op', op' ≠ op → t.tableAt op' = s.tableAt op')

/-- R62, R65: in DISCONNECTED each host byte draws one reply byte, ACK for SYN and RST for every other, whether it was there
when the attempt began or came while the attempt waited, whatever HOST does meanwhile; an attempt in which no byte arrives
draws none. Exactly so, with the reply delivered, where no HOST step is due and the link is up. -/
def Obligations.HandshakeReplies : Prop :=
  ∀ s : State, s.fsm = .disconnected →
    (∀ b, decodeDisconnected b = if b = 0x73 then .accept else .reject) ∧
    (s.inHandler = false →
      (s.rx = [] → exec .handshakeAttempt s = .next { s with
        seq := waitFrame 1 .tHandshake :: .op .handshakeAttempt 0 :: s.seq }) ∧
      ∀ b r, s.rx = b :: r →
        (∃ t, exec .handshakeAttempt s = .next t ∧
          Answered (if b = 0x73 then 0x61 else 0x72) r (if b = 0x73 then .connected else .disconnected) s.seq s t) ∧
        (s.Quiet → s.link = true →
          exec .handshakeAttempt s = .next (sent [if b = 0x73 then 0x61 else 0x72] { s with
            rx := r, fsm := if b = 0x73 then .connected else .disconnected }))) ∧
    (∀ base, s.Running → CtrlTurn s → s.seq = waitFrame 1 .tHandshake :: .op .handshakeAttempt 0 :: base →
      (s.rx = [] → s.mayTimeOut = true →
        step s = .next (returnTo base .none { s.turnTaken.emit (.timeout .waitForBytes) with seq := base })) ∧
      ∀ b r, s.rx = b :: r → ∃ t, step s = .next (returnTo base .none t) ∧
        Answered (if b = 0x73 then 0x61 else 0x72) r (if b = 0x73 then .connected else .disconnected) base s t)

/-- R110: SERVE in DISCONNECTED makes a handshake attempt, its own place below the attempt's, and has returned if the session
is then CONNECTED; otherwise it is still running, in the attempt or at its loop (log16). In CONNECTED it is one
SERVE_CONNECTED, and has returned where that has. -/
def Obligations.ServeByState : Prop :=
  ∀ s : State, s.inHandler = false →
    (s.fsm = .disconnected → ∃ t, exec .handshakeAttempt { s with seq := .op .serve 0 :: s.seq } = .next t ∧
      exec .serve s = .next (if t.fsm = .connected then { t with seq := s.seq } else t)) ∧
    (s.fsm = .connected → ∃ t, exec .serveConnected { s with seq := .op .serve 1 :: s.seq } = .next t ∧
      exec .serve s = .next (if t.seq = .op .serve 1 :: s.seq then { t with seq := s.seq } else t))

/-- R66, R112: what SERVE_CONNECTED makes of the next host byte: BYE whatever the table holds, a registered opcode (its
program is there: `TableOk`, kept by every step), an unknown opcode; whatever HOST does meanwhile and whatever becomes of the
link; and exactly so, with the reply delivered, where no HOST step is due and the link is up. No byte there holds it; where
that ends by timeout nothing is sent. That the dispatch ends this step, the handler's frame above SERVE_CONNECTED's and its
variables empty, is log17. -/
def Obligations.ServeConnectedOutcomes : Prop :=
  ∀ s : State, s.fsm = .connected → TableOk s →
    (s.inHandler = false →
      (s.rx = [] → exec .serveConnected s = .next { s with
        seq := waitFrame 1 .tServe :: .op .serveConnected 0 :: s.seq }) ∧
      (∀ r, s.rx = 0x62 :: r → ∃ t, exec .serveConnected s = .next t ∧ Answered 0x62 r .disconnected s.seq s t) ∧
      (∀ op r n, s.rx = op :: r → op ≠ 0x62 → s.tableAt op = some n →
        ∃ body t, bodyOf s.cfg n = some body ∧ exec .serveConnected s = .next t ∧
          Answered 0x61 r .connected (.handler op body 0 [] :: .op .serveConnected 3 :: s.seq) s t) ∧
      (∀ op r, s.rx = op :: r → op ≠ 0x62 → s.tableAt op = none →
        ∃ t, exec .serveConnected s = .next t ∧ Answered 0x65 r .disconnected s.seq s t) ∧
      (s.Quiet → s.link = true →
        (∀ r, s.rx = 0x62 :: r →
          exec .serveConnected s = .next (sent [0x62] { s with rx := r, fsm := .disconnected })) ∧
        (∀ op r n, s.rx = op :: r → op ≠ 0x62 → s.tableAt op = some n →
          ∃ body, bodyOf s.cfg n = some body ∧ exec .serveConnected s = .next (sent [0x61] { s with
            rx := r, seq := .handler op body 0 [] :: .op .serveConnected 3 :: s.seq })) ∧
        (∀ op r, s.rx = op :: r → op ≠ 0x62 → s.tableAt op = none →
          exec .serveConnected s = .next (sent [0x65] { s with rx := r, fsm := .disconnected })))) ∧
    (∀ base, s.Running → CtrlTurn s → s.mayTimeOut = true → s.rx = [] →
      s.seq = waitFrame 1 .tServe :: .op .serveConnected 0 :: base →
      ∃ t h, step s = .next (returnTo base .none t) ∧ (∀ e ∈ h, hostEvent e = true) ∧
        t.hist = s.hist ++ .timeout .waitForBytes :: h ∧ t.rx = received h ∧ OthersOnly { s with seq := base } t)

/-- R58, R65, R66, R112: the host's codes as instructions (log14): SYN, BYE and an opcode, as the server answers them in
each state over a link that is up. SYN in CONNECTED is no opcode: it cannot be registered. -/
def Obligations.HostCodes : Prop :=
  ∀ s : State, s.inHandler = false → s.link = true →
    (s.fsm = .disconnected →
      exec .syn s = .next (sent [0x61] { s with fsm := .connected }) ∧
      exec .bye s = .next (sent [0x72] s) ∧
      ∀ op, op ≠ 0x73 → exec (.request op) s = .next (sent [0x72] s)) ∧
    (s.fsm = .connected →
      exec .bye s = .next (sent [0x62] { s with fsm := .disconnected }) ∧
      (TableOk s → exec .syn s = .next (sent [0x65] { s with fsm := .disconnected })) ∧
      ∀ op, op ≠ 0x62 →
        (s.tableAt op = none → exec (.request op) s = .next (sent [0x65] { s with fsm := .disconnected })) ∧
        (∀ h body, s.tableAt op = some h → bodyOf s.cfg h = some body →
          exec (.request op) s = .next (sent [0x61] { s with
            seq := .handler op body 0 [] :: .op .serveConnected 3 :: s.seq })))

/-- R58, R25: the device's codes as instructions (log14) over a link that is up: the byte is sent; the session is left to
HANDSHAKE_ATTEMPT and SERVE_CONNECTED. FIN ends the running handler, whose variables go with its frame. -/
def Obligations.DeviceCodes : Prop :=
  ∀ s : State, s.link = true →
    (s.inHandler = false →
      exec .ack s = .next (sent [0x61] s) ∧
      exec .err s = .next (sent [0x65] s) ∧
      exec .rst s = .next (sent [0x72] s) ∧
      exec .fin s = .next (sent [0x66] s)) ∧
    (∀ op body pc vars base, s.seq = .handler op body pc vars :: base →
      exec .fin s = .next (sent [0x66] { s with seq := base }))

/-- R108, R117: while a handler runs, every operation it may not issue is refused NOT_EXPOSED with no other effect, a reason
already there staying (log2), and none it may issue is ever refused. The wire codes run as instructions (log14) are among the
refused ones, but for FIN, which is the server's own. -/
def Obligations.HandlerRestriction : Prop :=
  ∀ (i : Instr) (s : State),
    (s.inHandler = true → handlerMayIssue i = false → notACall i = false →
      exec i s = .next (refusedAt i (.notExposed i) s)) ∧
    (handlerMayIssue i = true → ∃ t, exec i s = .next t ∧ t.refused = s.refused)

/-- R107: at CTRL's turn a running handler's call runs the operation it stands for. Where that has returned, and equally where
it returns later, its result goes into the handler's variable, the handler goes to its next statement, and nothing else keeps
the result (R32). The handler's language is log10. -/
def Obligations.HandlerCallStep : Prop :=
  ∀ (s : State) (op : Byte) (body : Handler) (pc : Nat) (vars : List (Nat × Value)) (base : List Frame)
    (dst : Option Nat) (c : Call) (i : Instr), s.Running → CtrlTurn s → s.seq = .handler op body pc vars :: base →
    body[pc]? = some (.call dst c) → callInstr vars c = some i →
    (∀ t, exec i { s.turnTaken with ret := .none } = .next t → t.Running →
      step s = .next (if t.seq = s.seq then returnTo s.seq t.ret { t with ret := .none } else { t with ret := .none })) ∧
    (∀ v u, ∃ vars', returnTo s.seq v u = { u with seq := .handler op body (pc + 1) vars' :: base } ∧
      (∀ k, dst = some k → varGet vars' k = v) ∧ ∀ k, dst ≠ some k → varGet vars' k = varGet vars k)

/-- R112 (corner case 3), R113, R114(2): whatever the body, CTRL's turn with the handler past its last statement or at `ret`
sends FIN and drops the handler's frame; with SERVE's frames below it SERVE has returned and the session is as it was. And
the whole envelope of a handler that does nothing, from the request on: `61 66`, ACK when dispatch begins, FIN when the handler
has returned, in two steps (log17), where no step of HOST or EE is due; the bytes after the opcode stay in `rx`. -/
def Obligations.EnvelopeAroundHandler : Prop :=
  (∀ (s : State) (op : Byte) (body : Handler) (pc : Nat) (vars : List (Nat × Value)) (base : List Frame),
    s.Running → CtrlTurn s → s.seq = .handler op body pc vars :: base →
    body[pc]? = none ∨ body[pc]? = some .ret →
    ∃ (d : List Byte) (n : Nat), d.Sublist [0x66] ∧ (s.link = true → d = [0x66] ∧ n = s.draws) ∧
      let t := { s.turnTaken with
        seq := base, ret := .none, hist := s.hist ++ [.tx 0x66], toHost := s.toHost ++ d, draws := n }
      step s = .next (returnTo base .none t) ∧
      (base = [.op .serveConnected 3, .op .serve 1] → step s = .next { t with seq := [] })) ∧
  (∀ (s : State) (op : Byte) (r : List Byte) (h : HandlerName), s.Running → s.Quiet → s.seq = [] → s.calls = [] →
    s.busy = none → s.ret = .none → s.link = true → s.fsm = .connected → s.rx = op :: r → op ≠ 0x62 →
    s.tableAt op = some h → bodyOf s.cfg h = some [] →
    ∃ t, step s = .next t ∧ t.inHandler = true ∧ t = sent [0x61] { s with rx := r, seq := t.seq } ∧
      step t = .next (sent [0x61, 0x66] { s with rx := r }))

/-! ### HOST -/

/-- R105: HOST_SEND: a byte that finds room joins `rx` at its end, one that finds the buffer full is lost; both leave
their event. With the link down it is no step (log18). -/
def Obligations.HostSends : Prop :=
  ∀ (b : Byte) (s : State),
    (s.link = true → s.rx.length < s.cfg.rxCapacity →
      exec (.hostSend b) s = .next { s with rx := s.rx ++ [b], hist := s.hist ++ [.rx b] }) ∧
    (s.link = true → s.cfg.rxCapacity ≤ s.rx.length →
      exec (.hostSend b) s = .next { s with hist := s.hist ++ [.rxDropped b] }) ∧
    (s.link = false → exec (.hostSend b) s = .next s)

/-- R106: HOST_LINK_UP and HOST_LINK_DOWN set the link and nothing else. -/
def Obligations.LinkSteps : Prop :=
  ∀ s : State, exec .hostLinkUp s = .next { s with link := true } ∧
    exec .hostLinkDown s = .next { s with link := false }

/-! ### The machine -/

/-- A step runs the operation placed for it (log11): with CTRL running, `step` is `exec` of the operation decoded from the
image, at TOP; what it answers nothing keeps (R32, log9). -/
def Obligations.StepRunsDecoded : Prop :=
  ∀ (s : State) (nbits w : Nat) (i : Instr), s.Running → decodeTableWord nbits w = some i →
    ∃ t, exec i { s with seq := [], ret := .none } = .next t ∧
      step (s.withFetchWord nbits w) = .next { t with ret := .none } ∧
      step (placeCall i s) = .next { t with ret := .none }

/-- R6, R27, R132: whose turn it is. A HOST or EE step that is due runs first, whether CTRL has stopped or not; at the
schedule's end EE completes a write cycle in progress (log4). Every other turn is CTRL's, whatever the schedule: it makes its
program's next call, or, the calls done, calls SERVE, or goes on with the operation it is in (for the places of a hold see
`WaitAtOnceOrTimeout` and `DelayHolds`, for a running handler's `HandlerCallStep` and `EnvelopeAroundHandler`). -/
def Obligations.TurnOrder : Prop :=
  ∀ s : State,
    (∀ e r, s.sched = .env e :: r → step s = exec (envInstr e) { s with sched := r }) ∧
    (s.sched = [] → s.busy ≠ none → step s = exec .eeComplete s) ∧
    (s.Running → CtrlTurn s →
      (∀ i r, s.seq = [] → s.calls = i :: r →
        ∃ t, exec i { s.turnTaken with calls := r, ret := .none } = .next t ∧ step s = .next (afterRun [] t)) ∧
      (s.seq = [] → s.calls = [] →
        ∃ t, exec .serve { s.turnTaken with ret := .none } = .next t ∧ step s = .next (afterRun [] t)) ∧
      (∀ i k base, s.seq = .op i k :: base → k = 0 ∨ (∀ n d, i ≠ .waitForBytes n d) ∧ i ≠ .delay .tSettle →
        ∃ t, exec i { s.turnTaken with seq := base, ret := .none } = .next t ∧ step s = .next (afterRun base t)))

/-- R7, R119, R120: once a fault is recorded, or the state is refused, CTRL's turns answer it, for good (log1, log2). -/
def Obligations.StoppedControllerStays : Prop :=
  ∀ s : State, CtrlTurn s →
    (∀ f l, s.faults = f :: l → step s = .fault f) ∧
    (∀ r, s.faults = [] → s.refused = some r → step s = .refused r)

/-- R30, R31, R33: no step clears a fault or a refusal, none rewrites the history, none writes the configuration, and
none lets the receive buffer outgrow its capacity. -/
def Obligations.StepsOnlyAdd : Prop :=
  ∀ s t : State, step s = .next t →
    t.cfg = s.cfg ∧ s.faults <+: t.faults ∧ (∀ r, s.refused = some r → t.refused = some r) ∧
      s.hist <+: t.hist ∧ (s.rx.length ≤ s.cfg.rxCapacity → t.rx.length ≤ s.cfg.rxCapacity)

/-- R19, R21, R26, R28, R29, R32: the invariant of the machine (the EEPROM array and the handler table in canonical form and
within their spaces, no reserved opcode registered, the control pins idle outputs once ready, the receive buffer within
its capacity, no result kept) is kept by every step. -/
def Obligations.StepKeepsInv : Prop :=
  ∀ s t : State, Inv s → step s = .next t → Inv t

/-- R49: both directions of the wire stay FIFOs, whatever a step does. -/
def Obligations.StepKeepsWireFifo : Prop :=
  ∀ s t : State, WireFifo s → step s = .next t → WireFifo t

/-- The invariants hold at power-on under every configuration within the bounds of R5. -/
def Obligations.PowerOnMeetsInvariants : Prop :=
  ∀ c : Config, ConfigOk c → Inv (State.powerOn c) ∧ WireFifo (State.powerOn c)

/-- R14 to R26, R34: ownership. Whatever the operation and the state: the handler table is written by REGISTER_HANDLER
only, the session by HANDSHAKE_ATTEMPT and SERVE_CONNECTED, SERVE that calls them, and the host's codes as instructions
(log14) only, the bus by the bus controller's only, the receive timeout by
SET_RX_TIMEOUT only. -/
def Obligations.OwnersWrite : Prop :=
  ∀ (i : Instr) (s t : State), exec i s = .next t →
    (t.table = s.table ∨ ∃ op h, i = .registerHandler op h) ∧
    (t.rxTimeout = s.rxTimeout ∨ ∃ d, i = .setRxTimeout d) ∧
    (t.fsm = s.fsm ∨ i = .serve ∨ i = .handshakeAttempt ∨ i = .serveConnected ∨ i = .syn ∨ i = .bye ∨
      ∃ op, i = .request op) ∧
    (SameBus s t ∨ (∃ b, i = .push8 b) ∨ i = .latch ∨ (∃ p d, i = .dataDir p d) ∨ (∃ p x, i = .dataOut p x) ∨
      i = .wePulse ∨ i = .init ∨ (∃ a oe, i = .setAddress a oe) ∨ (∃ a, i = .read a) ∨ ∃ a v, i = .write a v)

/-- R28, R29: who writes the EEPROM. With no write cycle in progress, no operation but WRITE changes a cell, and WRITE a
changes none but `a`; no operation but WRITE and WE_PULSE starts a cycle. -/
def Obligations.OnlyWriteChangesCells : Prop :=
  ∀ (i : Instr) (s t : State), s.cfg.addrWidth ≤ 15 → s.busy = none → exec i s = .next t →
    (SameCells s t ∨ ∃ a v, i = .write a v ∧ ∀ x, x ≠ a → t.cellByte x = s.cellByte x) ∧
    (t.busy = none ∨ i = .wePulse ∨ ∃ a v, i = .write a v)

/-- R129: what power-on leaves, of what the spec gives: the pins are no outputs and INIT has not run, nothing buffered,
sent, registered, in progress, faulted, refused or recorded, DISCONNECTED, at TOP; link and timeout as configured. -/
def Obligations.PowerOnState : Prop :=
  ∀ c : Config, let s := State.powerOn c
    s.ctlReady = false ∧ s.initDone = false ∧ s.busy = none ∧ s.rx = [] ∧ s.toHost = [] ∧
      s.link = c.linkAtLaunch ∧ s.rxTimeout = c.rxTimeoutReset ∧ s.fsm = .disconnected ∧
      (∀ op, s.tableAt op = none) ∧ s.seq = [] ∧ s.faults = [] ∧ s.refused = none ∧ s.hist = [] ∧
      (∀ a, s.cellByte a = Config.powerOnCell a) ∧ s.calls = .init :: c.handlers.map fun (op, h) => .registerHandler op h

/-- R28, R129: a reset of the controller (log28) leaves the EEPROM its contents, but for the cell of a write cycle it cuts
off, and everything else as at power-on under the same configuration; it keeps the invariant. -/
def Obligations.ControllerReset : Prop :=
  ∀ s : State, let t := s.controllerReset
    (s.busy = none → SameCells s t) ∧
    (∀ a d, s.busy = some (a, d) → ∀ x, x ≠ a → t.cellByte x = s.cellByte x) ∧
    t = { State.powerOn s.cfg with cell := t.cell, sched := s.sched, draws := t.draws } ∧
    (Inv s → Inv t)

/-- R7, R92, R118: a hold is a wait and nothing else. When the bytes an operation called at TOP or by a handler was held for
have come, whatever HOST and EE did meanwhile, CTRL's turn answers what the operation called then would. -/
def Obligations.HeldOperationGoesOn : Prop :=
  ∀ (i : Instr) (s t u : State) (n : Nat) (d : Duration) (rest : List Frame),
    notACall i = false → s.seq = [] ∨ s.inHandler = true → exec i s = .next t → t.seq = waitFrame n d :: rest →
    OthersOnly t u → u.Running → u.ret = .none → CtrlTurn u → n ≤ u.rx.length →
    ∃ w, exec i { u.turnTaken with seq := s.seq } = .next w ∧ step u = .next (afterRun s.seq w)
end

