-- ==== Sys2Proof/Laws/State.lean ====
section
/-! SUPPORT. One lemma per field per named update of the state, true by rfl. -/

namespace Sys2Proof.Machine

@[simp] theorem emit_cfg (e : Event) (s : State) : (s.emit e).cfg = s.cfg := rfl
@[simp] theorem emit_stage (e : Event) (s : State) : (s.emit e).stage = s.stage := rfl
@[simp] theorem emit_q (e : Event) (s : State) : (s.emit e).q = s.q := rfl
@[simp] theorem emit_dir (e : Event) (s : State) : (s.emit e).dir = s.dir := rfl
@[simp] theorem emit_dout (e : Event) (s : State) : (s.emit e).dout = s.dout := rfl
@[simp] theorem emit_pinSdata (e : Event) (s : State) : (s.emit e).pinSdata = s.pinSdata := rfl
@[simp] theorem emit_pinSclk (e : Event) (s : State) : (s.emit e).pinSclk = s.pinSclk := rfl
@[simp] theorem emit_pinLatch (e : Event) (s : State) : (s.emit e).pinLatch = s.pinLatch := rfl
@[simp] theorem emit_pinWe (e : Event) (s : State) : (s.emit e).pinWe = s.pinWe := rfl
@[simp] theorem emit_ctlReady (e : Event) (s : State) : (s.emit e).ctlReady = s.ctlReady := rfl
@[simp] theorem emit_initDone (e : Event) (s : State) : (s.emit e).initDone = s.initDone := rfl
@[simp] theorem emit_rx (e : Event) (s : State) : (s.emit e).rx = s.rx := rfl
@[simp] theorem emit_toHost (e : Event) (s : State) : (s.emit e).toHost = s.toHost := rfl
@[simp] theorem emit_link (e : Event) (s : State) : (s.emit e).link = s.link := rfl
@[simp] theorem emit_rxTimeout (e : Event) (s : State) : (s.emit e).rxTimeout = s.rxTimeout := rfl
@[simp] theorem emit_fsm (e : Event) (s : State) : (s.emit e).fsm = s.fsm := rfl
@[simp] theorem emit_table (e : Event) (s : State) : (s.emit e).table = s.table := rfl
@[simp] theorem emit_seq (e : Event) (s : State) : (s.emit e).seq = s.seq := rfl
@[simp] theorem emit_cell (e : Event) (s : State) : (s.emit e).cell = s.cell := rfl
@[simp] theorem emit_busy (e : Event) (s : State) : (s.emit e).busy = s.busy := rfl
@[simp] theorem emit_faults (e : Event) (s : State) : (s.emit e).faults = s.faults := rfl
@[simp] theorem emit_refused (e : Event) (s : State) : (s.emit e).refused = s.refused := rfl
@[simp] theorem emit_hist (e : Event) (s : State) : (s.emit e).hist = s.hist ++ [e] := rfl
@[simp] theorem emit_calls (e : Event) (s : State) : (s.emit e).calls = s.calls := rfl
@[simp] theorem emit_ret (e : Event) (s : State) : (s.emit e).ret = s.ret := rfl
@[simp] theorem emit_sched (e : Event) (s : State) : (s.emit e).sched = s.sched := rfl
@[simp] theorem emit_draws (e : Event) (s : State) : (s.emit e).draws = s.draws := rfl

@[simp] theorem drew_cfg (s : State) : (s.drew).cfg = s.cfg := rfl
@[simp] theorem drew_stage (s : State) : (s.drew).stage = s.stage := rfl
@[simp] theorem drew_q (s : State) : (s.drew).q = s.q := rfl
@[simp] theorem drew_dir (s : State) : (s.drew).dir = s.dir := rfl
@[simp] theorem drew_dout (s : State) : (s.drew).dout = s.dout := rfl
@[simp] theorem drew_pinSdata (s : State) : (s.drew).pinSdata = s.pinSdata := rfl
@[simp] theorem drew_pinSclk (s : State) : (s.drew).pinSclk = s.pinSclk := rfl
@[simp] theorem drew_pinLatch (s : State) : (s.drew).pinLatch = s.pinLatch := rfl
@[simp] theorem drew_pinWe (s : State) : (s.drew).pinWe = s.pinWe := rfl
@[simp] theorem drew_ctlReady (s : State) : (s.drew).ctlReady = s.ctlReady := rfl
@[simp] theorem drew_initDone (s : State) : (s.drew).initDone = s.initDone := rfl
@[simp] theorem drew_rx (s : State) : (s.drew).rx = s.rx := rfl
@[simp] theorem drew_toHost (s : State) : (s.drew).toHost = s.toHost := rfl
@[simp] theorem drew_link (s : State) : (s.drew).link = s.link := rfl
@[simp] theorem drew_rxTimeout (s : State) : (s.drew).rxTimeout = s.rxTimeout := rfl
@[simp] theorem drew_fsm (s : State) : (s.drew).fsm = s.fsm := rfl
@[simp] theorem drew_table (s : State) : (s.drew).table = s.table := rfl
@[simp] theorem drew_seq (s : State) : (s.drew).seq = s.seq := rfl
@[simp] theorem drew_cell (s : State) : (s.drew).cell = s.cell := rfl
@[simp] theorem drew_busy (s : State) : (s.drew).busy = s.busy := rfl
@[simp] theorem drew_faults (s : State) : (s.drew).faults = s.faults := rfl
@[simp] theorem drew_refused (s : State) : (s.drew).refused = s.refused := rfl
@[simp] theorem drew_hist (s : State) : (s.drew).hist = s.hist := rfl
@[simp] theorem drew_calls (s : State) : (s.drew).calls = s.calls := rfl
@[simp] theorem drew_ret (s : State) : (s.drew).ret = s.ret := rfl
@[simp] theorem drew_sched (s : State) : (s.drew).sched = s.sched := rfl
@[simp] theorem drew_draws (s : State) : (s.drew).draws = s.draws + 1 := rfl

@[simp] theorem back_cfg (base : List Frame) (s : State) : (s.back base).cfg = s.cfg := rfl
@[simp] theorem back_stage (base : List Frame) (s : State) : (s.back base).stage = s.stage := rfl
@[simp] theorem back_q (base : List Frame) (s : State) : (s.back base).q = s.q := rfl
@[simp] theorem back_dir (base : List Frame) (s : State) : (s.back base).dir = s.dir := rfl
@[simp] theorem back_dout (base : List Frame) (s : State) : (s.back base).dout = s.dout := rfl
@[simp] theorem back_pinSdata (base : List Frame) (s : State) : (s.back base).pinSdata = s.pinSdata := rfl
@[simp] theorem back_pinSclk (base : List Frame) (s : State) : (s.back base).pinSclk = s.pinSclk := rfl
@[simp] theorem back_pinLatch (base : List Frame) (s : State) : (s.back base).pinLatch = s.pinLatch := rfl
@[simp] theorem back_pinWe (base : List Frame) (s : State) : (s.back base).pinWe = s.pinWe := rfl
@[simp] theorem back_ctlReady (base : List Frame) (s : State) : (s.back base).ctlReady = s.ctlReady := rfl
@[simp] theorem back_initDone (base : List Frame) (s : State) : (s.back base).initDone = s.initDone := rfl
@[simp] theorem back_rx (base : List Frame) (s : State) : (s.back base).rx = s.rx := rfl
@[simp] theorem back_toHost (base : List Frame) (s : State) : (s.back base).toHost = s.toHost := rfl
@[simp] theorem back_link (base : List Frame) (s : State) : (s.back base).link = s.link := rfl
@[simp] theorem back_rxTimeout (base : List Frame) (s : State) : (s.back base).rxTimeout = s.rxTimeout := rfl
@[simp] theorem back_fsm (base : List Frame) (s : State) : (s.back base).fsm = s.fsm := rfl
@[simp] theorem back_table (base : List Frame) (s : State) : (s.back base).table = s.table := rfl
@[simp] theorem back_seq (base : List Frame) (s : State) : (s.back base).seq = base := rfl
@[simp] theorem back_cell (base : List Frame) (s : State) : (s.back base).cell = s.cell := rfl
@[simp] theorem back_busy (base : List Frame) (s : State) : (s.back base).busy = s.busy := rfl
@[simp] theorem back_faults (base : List Frame) (s : State) : (s.back base).faults = s.faults := rfl
@[simp] theorem back_refused (base : List Frame) (s : State) : (s.back base).refused = s.refused := rfl
@[simp] theorem back_hist (base : List Frame) (s : State) : (s.back base).hist = s.hist := rfl
@[simp] theorem back_calls (base : List Frame) (s : State) : (s.back base).calls = s.calls := rfl
@[simp] theorem back_ret (base : List Frame) (s : State) : (s.back base).ret = s.ret := rfl
@[simp] theorem back_sched (base : List Frame) (s : State) : (s.back base).sched = s.sched := rfl
@[simp] theorem back_draws (base : List Frame) (s : State) : (s.back base).draws = s.draws := rfl

@[simp] theorem raise_cfg (i : Instr) (f : Fault) (s : State) : (s.raise i f).cfg = s.cfg := rfl
@[simp] theorem raise_stage (i : Instr) (f : Fault) (s : State) : (s.raise i f).stage = s.stage := rfl
@[simp] theorem raise_q (i : Instr) (f : Fault) (s : State) : (s.raise i f).q = s.q := rfl
@[simp] theorem raise_dir (i : Instr) (f : Fault) (s : State) : (s.raise i f).dir = s.dir := rfl
@[simp] theorem raise_dout (i : Instr) (f : Fault) (s : State) : (s.raise i f).dout = s.dout := rfl
@[simp] theorem raise_pinSdata (i : Instr) (f : Fault) (s : State) : (s.raise i f).pinSdata = s.pinSdata := rfl
@[simp] theorem raise_pinSclk (i : Instr) (f : Fault) (s : State) : (s.raise i f).pinSclk = s.pinSclk := rfl
@[simp] theorem raise_pinLatch (i : Instr) (f : Fault) (s : State) : (s.raise i f).pinLatch = s.pinLatch := rfl
@[simp] theorem raise_pinWe (i : Instr) (f : Fault) (s : State) : (s.raise i f).pinWe = s.pinWe := rfl
@[simp] theorem raise_ctlReady (i : Instr) (f : Fault) (s : State) : (s.raise i f).ctlReady = s.ctlReady := rfl
@[simp] theorem raise_initDone (i : Instr) (f : Fault) (s : State) : (s.raise i f).initDone = s.initDone := rfl
@[simp] theorem raise_rx (i : Instr) (f : Fault) (s : State) : (s.raise i f).rx = s.rx := rfl
@[simp] theorem raise_toHost (i : Instr) (f : Fault) (s : State) : (s.raise i f).toHost = s.toHost := rfl
@[simp] theorem raise_link (i : Instr) (f : Fault) (s : State) : (s.raise i f).link = s.link := rfl
@[simp] theorem raise_rxTimeout (i : Instr) (f : Fault) (s : State) : (s.raise i f).rxTimeout = s.rxTimeout := rfl
@[simp] theorem raise_fsm (i : Instr) (f : Fault) (s : State) : (s.raise i f).fsm = s.fsm := rfl
@[simp] theorem raise_table (i : Instr) (f : Fault) (s : State) : (s.raise i f).table = s.table := rfl
@[simp] theorem raise_seq (i : Instr) (f : Fault) (s : State) : (s.raise i f).seq = .op i 0 :: s.seq := rfl
@[simp] theorem raise_cell (i : Instr) (f : Fault) (s : State) : (s.raise i f).cell = s.cell := rfl
@[simp] theorem raise_busy (i : Instr) (f : Fault) (s : State) : (s.raise i f).busy = s.busy := rfl
@[simp] theorem raise_faults (i : Instr) (f : Fault) (s : State) : (s.raise i f).faults = if s.faults.contains f then s.faults else s.faults ++ [f] := rfl
@[simp] theorem raise_refused (i : Instr) (f : Fault) (s : State) : (s.raise i f).refused = s.refused := rfl
@[simp] theorem raise_hist (i : Instr) (f : Fault) (s : State) : (s.raise i f).hist = s.hist := rfl
@[simp] theorem raise_calls (i : Instr) (f : Fault) (s : State) : (s.raise i f).calls = s.calls := rfl
@[simp] theorem raise_ret (i : Instr) (f : Fault) (s : State) : (s.raise i f).ret = s.ret := rfl
@[simp] theorem raise_sched (i : Instr) (f : Fault) (s : State) : (s.raise i f).sched = s.sched := rfl
@[simp] theorem raise_draws (i : Instr) (f : Fault) (s : State) : (s.raise i f).draws = s.draws := rfl

@[simp] theorem refuse_cfg (i : Instr) (r : Refusal) (s : State) : (s.refuse i r).cfg = s.cfg := rfl
@[simp] theorem refuse_stage (i : Instr) (r : Refusal) (s : State) : (s.refuse i r).stage = s.stage := rfl
@[simp] theorem refuse_q (i : Instr) (r : Refusal) (s : State) : (s.refuse i r).q = s.q := rfl
@[simp] theorem refuse_dir (i : Instr) (r : Refusal) (s : State) : (s.refuse i r).dir = s.dir := rfl
@[simp] theorem refuse_dout (i : Instr) (r : Refusal) (s : State) : (s.refuse i r).dout = s.dout := rfl
@[simp] theorem refuse_pinSdata (i : Instr) (r : Refusal) (s : State) : (s.refuse i r).pinSdata = s.pinSdata := rfl
@[simp] theorem refuse_pinSclk (i : Instr) (r : Refusal) (s : State) : (s.refuse i r).pinSclk = s.pinSclk := rfl
@[simp] theorem refuse_pinLatch (i : Instr) (r : Refusal) (s : State) : (s.refuse i r).pinLatch = s.pinLatch := rfl
@[simp] theorem refuse_pinWe (i : Instr) (r : Refusal) (s : State) : (s.refuse i r).pinWe = s.pinWe := rfl
@[simp] theorem refuse_ctlReady (i : Instr) (r : Refusal) (s : State) : (s.refuse i r).ctlReady = s.ctlReady := rfl
@[simp] theorem refuse_initDone (i : Instr) (r : Refusal) (s : State) : (s.refuse i r).initDone = s.initDone := rfl
@[simp] theorem refuse_rx (i : Instr) (r : Refusal) (s : State) : (s.refuse i r).rx = s.rx := rfl
@[simp] theorem refuse_toHost (i : Instr) (r : Refusal) (s : State) : (s.refuse i r).toHost = s.toHost := rfl
@[simp] theorem refuse_link (i : Instr) (r : Refusal) (s : State) : (s.refuse i r).link = s.link := rfl
@[simp] theorem refuse_rxTimeout (i : Instr) (r : Refusal) (s : State) : (s.refuse i r).rxTimeout = s.rxTimeout := rfl
@[simp] theorem refuse_fsm (i : Instr) (r : Refusal) (s : State) : (s.refuse i r).fsm = s.fsm := rfl
@[simp] theorem refuse_table (i : Instr) (r : Refusal) (s : State) : (s.refuse i r).table = s.table := rfl
@[simp] theorem refuse_seq (i : Instr) (r : Refusal) (s : State) : (s.refuse i r).seq = .op i 0 :: s.seq := rfl
@[simp] theorem refuse_cell (i : Instr) (r : Refusal) (s : State) : (s.refuse i r).cell = s.cell := rfl
@[simp] theorem refuse_busy (i : Instr) (r : Refusal) (s : State) : (s.refuse i r).busy = s.busy := rfl
@[simp] theorem refuse_faults (i : Instr) (r : Refusal) (s : State) : (s.refuse i r).faults = s.faults := rfl
@[simp] theorem refuse_refused (i : Instr) (r : Refusal) (s : State) : (s.refuse i r).refused = some (s.refused.getD r) := rfl
@[simp] theorem refuse_hist (i : Instr) (r : Refusal) (s : State) : (s.refuse i r).hist = s.hist := rfl
@[simp] theorem refuse_calls (i : Instr) (r : Refusal) (s : State) : (s.refuse i r).calls = s.calls := rfl
@[simp] theorem refuse_ret (i : Instr) (r : Refusal) (s : State) : (s.refuse i r).ret = s.ret := rfl
@[simp] theorem refuse_sched (i : Instr) (r : Refusal) (s : State) : (s.refuse i r).sched = s.sched := rfl
@[simp] theorem refuse_draws (i : Instr) (r : Refusal) (s : State) : (s.refuse i r).draws = s.draws := rfl

end Sys2Proof.Machine
end

