-- ==== Sys2Proof/Laws/Sparse.lean ====
section
/-! SUPPORT. The sparse maps: a read after a write, and that a write keeps the canonical form. -/

namespace Sys2Proof.Machine

variable {α : Type}

/-- A read after a write to the same key. -/
@[simp] theorem sparseGet_put_same (m : List (Nat × α)) (k : Nat) (v : α) :
    sparseGet (sparsePut m k v) k = some v := by
  induction m with
  | nil => simp [sparsePut, sparseGet]
  | cons e r ih =>
    obtain ⟨k', v'⟩ := e
    simp only [sparsePut]
    split
    · simp [sparseGet]
    · split
      · simp [sparseGet]
      · rename_i h
        simp [sparseGet, h, ih]

/-- A write leaves every other key alone. -/
theorem sparseGet_put_other (m : List (Nat × α)) {k k' : Nat} (v : α) (h : k' ≠ k) :
    sparseGet (sparsePut m k v) k' = sparseGet m k' := by
  induction m with
  | nil => simp [sparsePut, sparseGet, h.symm]
  | cons e r ih =>
    obtain ⟨k'', v''⟩ := e
    simp only [sparsePut]
    split
    · simp [sparseGet, h.symm]
    · split
      · subst_vars
        simp [sparseGet, h.symm]
      · simp [sparseGet, ih]

/-- The entries after a write are the new one and old ones. -/
theorem mem_sparsePut {m : List (Nat × α)} {k : Nat} {v : α} {e : Nat × α} (h : e ∈ sparsePut m k v) :
    e = (k, v) ∨ e ∈ m := by
  induction m with
  | nil => simpa [sparsePut] using h
  | cons x r ih =>
    obtain ⟨k', v'⟩ := x
    simp only [sparsePut] at h
    split at h
    · simpa using h
    · split at h
      · rcases List.mem_cons.1 h with h | h
        · exact .inl h
        · exact .inr (List.mem_cons_of_mem _ h)
      · rcases List.mem_cons.1 h with h | h
        · exact .inr (h ▸ List.mem_cons_self ..)
        · exact (ih h).imp id (List.mem_cons_of_mem _)

/-- The canonical form says each entry's key is below the keys after it. -/
theorem sparseWf_cons {k : Nat} {v : α} {r : List (Nat × α)} :
    sparseWf ((k, v) :: r) = true ↔ (∀ e ∈ r.head?, k < e.1) ∧ sparseWf r = true := by
  cases r with
  | nil => simp [sparseWf]
  | cons e r => obtain ⟨k', v'⟩ := e; simp [sparseWf]

/-- A write keeps the canonical form. -/
theorem sparsePut_wf {m : List (Nat × α)} (k : Nat) (v : α) (h : sparseWf m = true) :
    sparseWf (sparsePut m k v) = true := by
  induction m with
  | nil => simp [sparsePut, sparseWf]
  | cons e r ih =>
    obtain ⟨k', v'⟩ := e
    have hr := (sparseWf_cons.1 h)
    simp only [sparsePut]
    split
    · rename_i hlt
      exact sparseWf_cons.2 ⟨by simpa using hlt, h⟩
    · split
      · rename_i he
        exact sparseWf_cons.2 ⟨by simpa [← he] using hr.1, hr.2⟩
      · rename_i hlt hne
        refine sparseWf_cons.2 ⟨?_, ih hr.2⟩
        cases r with
        | nil => simp [sparsePut]; omega
        | cons e2 r2 =>
          obtain ⟨k2, v2⟩ := e2
          have h2 : k' < k2 := by simpa using hr.1
          simp only [sparsePut]
          split
          · simp; omega
          · split
            · simp; omega
            · simp; omega

/-- Every memory operation keeps the canonical form: there is one, the write. -/
theorem Memory.write_wf {m : List Host.Cell} (a : Nat) (v : Byte) (h : Memory.wf m = true) :
    Memory.wf (Memory.write m a v) = true := sparsePut_wf a v h

@[simp] theorem Memory.read_write_same (m : List Host.Cell) (a : Nat) (v : Byte) :
    Memory.read (Memory.write m a v) a = some v := sparseGet_put_same m a v

theorem Memory.read_write_other (m : List Host.Cell) {a a' : Nat} (v : Byte) (h : a' ≠ a) :
    Memory.read (Memory.write m a v) a' = Memory.read m a' := sparseGet_put_other m v h

/-- The memory of the reset state is in canonical form. -/
theorem reset_memory_wf : Memory.wf State.reset.cell = true := rfl

end Sys2Proof.Machine
end

