-- ==== Sys2Proof/Laws/Schedule.lean ====
section
/-! SUPPORT. What HOST and EE can do to the state between two micro-steps of CTRL, said once
(`Others`), and that a quiet schedule does nothing. -/

namespace Sys2Proof.Machine

/-- `t` comes from `s` by steps of HOST and EE and turns of the schedule: bytes join `rx` at its end, the link may
change, a write cycle in progress may complete, the history gains HOST's events, and nothing else changes. -/
structure Others (s t : State) : Prop where
  frame : t = { s with
    rx := t.rx, link := t.link, cell := t.cell, busy := t.busy, hist := t.hist, sched := t.sched }
  grows : ∃ h, t.hist = s.hist ++ h ∧ (∀ e ∈ h, hostEvent e = true) ∧ t.rx = s.rx ++ received h
  bounded : s.rx.length ≤ s.cfg.rxCapacity → t.rx.length ≤ s.cfg.rxCapacity
  ee : (t.busy = s.busy ∧ t.cell = s.cell) ∨
    (t.busy = none ∧ ∃ a d, s.busy = some (a, d) ∧ t.cell = Memory.write s.cell a d)
  sched : t.sched <:+ s.sched

theorem Others.refl (s : State) : Others s s :=
  ⟨rfl, ⟨[], by simp, by simp, by simp [received]⟩, id, .inl ⟨rfl, rfl⟩, List.suffix_refl _⟩

theorem Others.trans {s t u : State} (h1 : Others s t) (h2 : Others t u) : Others s u where
  frame := by rw [h2.frame, h1.frame]
  grows := by
    obtain ⟨a, ha, hae, har⟩ := h1.grows
    obtain ⟨b, hb, hbe, hbr⟩ := h2.grows
    refine ⟨a ++ b, by simp [hb, ha], ?_, by simp [hbr, har, received]⟩
    intro e he
    rcases List.mem_append.1 he with he | he
    · exact hae e he
    · exact hbe e he
  bounded := by
    intro h
    have hc : t.cfg = s.cfg := by rw [h1.frame]
    have := h2.bounded (by rw [hc]; exact h1.bounded h)
    rwa [hc] at this
  ee := by
    rcases h1.ee with ⟨b1, c1⟩ | ⟨b1, a, d, hb, c1⟩
    · rcases h2.ee with ⟨b2, c2⟩ | ⟨b2, a, d, hb, c2⟩
      · exact .inl ⟨b2.trans b1, c2.trans c1⟩
      · exact .inr ⟨b2, a, d, b1 ▸ hb, c1 ▸ c2⟩
    · rcases h2.ee with ⟨b2, c2⟩ | ⟨_, a', d', hb', _⟩
      · exact .inr ⟨b2.trans b1, a, d, hb, c2.trans c1⟩
      · rw [b1] at hb'; cases hb'
  sched := h2.sched.trans h1.sched

/-- Using up a turn of the schedule. -/
theorem Others.used {s : State} {r : List Slot} (h : r <:+ s.sched) : Others s { s with sched := r } :=
  ⟨rfl, ⟨[], by simp, by simp, by simp [received]⟩, id, .inl ⟨rfl, rfl⟩, h⟩

theorem hostSend_others (b : Byte) (s : State) : Others s (hostSend b s) := by
  unfold hostSend
  split
  · split
    · rename_i h
      exact ⟨rfl, ⟨[.rx b], by simp, by simp [hostEvent], by simp [received]⟩, by intro _; simp; omega,
        .inl ⟨rfl, rfl⟩, List.suffix_refl _⟩
    · exact ⟨rfl, ⟨[.rxDropped b], by simp, by simp [hostEvent], by simp [received]⟩, by simp,
        .inl ⟨rfl, rfl⟩, List.suffix_refl _⟩
  · exact Others.refl s

theorem eeComplete_others (s : State) : Others s (eeComplete s) := by
  unfold eeComplete
  split
  · rename_i a d h
    exact ⟨rfl, ⟨[], by simp, by simp, by simp [received]⟩, id, .inr ⟨rfl, a, d, h, rfl⟩, List.suffix_refl _⟩
  · exact Others.refl s

theorem applyEnv_others (e : Env) (s : State) : Others s (applyEnv e s) := by
  cases e with
  | hostSend b => exact hostSend_others b s
  | linkUp => exact ⟨rfl, ⟨[], by simp [applyEnv, setLink], by simp, by simp [applyEnv, setLink, received]⟩, id,
      .inl ⟨rfl, rfl⟩, List.suffix_refl _⟩
  | linkDown => exact ⟨rfl, ⟨[], by simp [applyEnv, setLink], by simp, by simp [applyEnv, setLink, received]⟩, id,
      .inl ⟨rfl, rfl⟩, List.suffix_refl _⟩
  | eeComplete => exact eeComplete_others s

/-- HOST and EE do not see the schedule. -/
theorem applyEnv_sched (e : Env) (s : State) : (applyEnv e s).sched = s.sched := by
  cases e with
  | hostSend b =>
    change (hostSend b s).sched = _
    unfold hostSend
    split
    · split <;> rfl
    · rfl
  | linkUp => rfl
  | linkDown => rfl
  | eeComplete =>
    change (eeComplete s).sched = _
    unfold eeComplete
    split <;> rfl

theorem yieldAlong_others (l : List Slot) (s : State) (h : l <:+ s.sched) : Others s (yieldAlong l s) := by
  induction l generalizing s with
  | nil => exact Others.used h
  | cons x r ih =>
    have hr : r <:+ s.sched := (List.suffix_cons x r).trans h
    cases x with
    | ctrl => exact Others.used hr
    | timeout => exact Others.used hr
    | env e => exact (applyEnv_others e s).trans (ih _ (by rwa [applyEnv_sched]))

/-- The point between two micro-steps. -/
theorem yield_others (s : State) : Others s s.yield := yieldAlong_others s.sched s (List.suffix_refl _)

/-! ### Consequences: the fields HOST and EE leave alone -/

section fields
variable {s t : State} (h : Others s t)
include h

theorem Others.cfg : t.cfg = s.cfg := by rw [h.frame]
theorem Others.stage : t.stage = s.stage := by rw [h.frame]
theorem Others.q : t.q = s.q := by rw [h.frame]
theorem Others.dir : t.dir = s.dir := by rw [h.frame]
theorem Others.dout : t.dout = s.dout := by rw [h.frame]
theorem Others.pinSdata : t.pinSdata = s.pinSdata := by rw [h.frame]
theorem Others.pinSclk : t.pinSclk = s.pinSclk := by rw [h.frame]
theorem Others.pinLatch : t.pinLatch = s.pinLatch := by rw [h.frame]
theorem Others.pinWe : t.pinWe = s.pinWe := by rw [h.frame]
theorem Others.ctlReady : t.ctlReady = s.ctlReady := by rw [h.frame]
theorem Others.initDone : t.initDone = s.initDone := by rw [h.frame]
theorem Others.toHost : t.toHost = s.toHost := by rw [h.frame]
theorem Others.rxTimeout : t.rxTimeout = s.rxTimeout := by rw [h.frame]
theorem Others.fsm : t.fsm = s.fsm := by rw [h.frame]
theorem Others.table : t.table = s.table := by rw [h.frame]
theorem Others.seq : t.seq = s.seq := by rw [h.frame]
theorem Others.faults : t.faults = s.faults := by rw [h.frame]
theorem Others.refused : t.refused = s.refused := by rw [h.frame]
theorem Others.calls : t.calls = s.calls := by rw [h.frame]
theorem Others.ret : t.ret = s.ret := by rw [h.frame]
theorem Others.draws : t.draws = s.draws := by rw [h.frame]

/-- With no write cycle in progress the EEPROM stays. -/
theorem Others.idle (hb : s.busy = none) : t.busy = none ∧ t.cell = s.cell := by
  rcases h.ee with ⟨b, c⟩ | ⟨_, a, d, hs, _⟩
  · exact ⟨b.trans hb, c⟩
  · rw [hb] at hs; cases hs

/-- A write cycle that has ended has written its byte. -/
theorem Others.completed {a : Nat} {d : Byte} (hb : s.busy = some (a, d)) (ht : t.busy = none) :
    t.cell = Memory.write s.cell a d := by
  rcases h.ee with ⟨b, _⟩ | ⟨_, a', d', hs, c⟩
  · rw [ht, hb] at b; cases b
  · rw [hb] at hs; cases hs; exact c

/-- The bus controller's counters do not see HOST's events. -/
theorem Others.counters : t.pushes = s.pushes ∧ t.latches = s.latches ∧ t.wePulses = s.wePulses := by
  obtain ⟨l, hl, he, _⟩ := h.grows
  simp only [State.pushes, State.latches, State.wePulses, hl, List.countP_append]
  refine ⟨?_, ?_, ?_⟩ <;>
  · simp only [Nat.add_eq_left, List.countP_eq_zero]
    intro e hm
    have := he e hm
    cases e <;> simp_all [hostEvent, isPush, isLatch, isWePulse]

end fields

/-! ### HOST and EE do not see CTRL's place -/

theorem applyEnv_seq (e : Env) (s : State) (l : List Frame) :
    applyEnv e { s with seq := l } = { applyEnv e s with seq := l } := by
  cases e with
  | hostSend b =>
    change hostSend b { s with seq := l } = { hostSend b s with seq := l }
    unfold hostSend
    simp only []
    split
    · split <;> rfl
    · rfl
  | linkUp => rfl
  | linkDown => rfl
  | eeComplete =>
    change eeComplete { s with seq := l } = { eeComplete s with seq := l }
    unfold eeComplete
    simp only []
    split <;> rfl

theorem yieldAlong_seq (m : List Slot) (s : State) (l : List Frame) :
    yieldAlong m { s with seq := l } = { yieldAlong m s with seq := l } := by
  induction m generalizing s with
  | nil => rfl
  | cons x r ih =>
    cases x with
    | ctrl => rfl
    | timeout => rfl
    | env e => simp only [yieldAlong, applyEnv_seq]; exact ih _

/-- The point before a micro-step does not depend on where CTRL was. -/
@[simp] theorem micro_from (i : Instr) (k : Nat) (base : List Frame) (s : State) (l : List Frame) :
    ({ s with seq := l } : State).micro i k base = s.micro i k base := by
  simp only [State.micro, State.yield, yieldAlong_seq]

/-! ### A quiet schedule -/

theorem quiet_eta {s : State} (h : s.sched = []) : ({ s with sched := [] } : State) = s := by
  cases s; simp_all

/-- Between two micro-steps of a quiet schedule nothing happens. -/
theorem yield_quiet {s : State} (h : s.Quiet) : s.yield = s := by
  have : s.sched = [] := h
  simp [State.yield, this, yieldAlong, quiet_eta]

theorem micro_quiet {s : State} (h : s.Quiet) (i : Instr) (k : Nat) (base : List Frame) :
    s.micro i k base = { s with seq := .op i k :: base } := by
  simp [State.micro, yield_quiet h]

end Sys2Proof.Machine
end

