-- ==== Sys2Proof/Laws/Forward.lean ====
section
/-! SUPPORT. What every operation keeps, said once as a relation (`Fwd`) that each shared operation is shown to be
in: the configuration stays, the marks of a stopped run stay, the history grows, the wire directions are FIFOs. -/

namespace Sys2Proof.Machine

@[simp] theorem received_nil : received [] = [] := rfl
@[simp] theorem written_nil : written [] = [] := rfl
@[simp] theorem received_append (a b : List Event) : received (a ++ b) = received a ++ received b := by
  simp [received]
@[simp] theorem written_append (a b : List Event) : written (a ++ b) = written a ++ written b := by
  simp [written]

/-- `t` comes later than `s` in a run. -/
structure Fwd (s t : State) : Prop where
  cfg : t.cfg = s.cfg
  faults : s.faults <+: t.faults
  refused : ∀ r, s.refused = some r → t.refused = some r
  wire : ∃ h, t.hist = s.hist ++ h ∧ (∃ taken, taken ++ t.rx = s.rx ++ received h) ∧
    ∃ d, t.toHost = s.toHost ++ d ∧ d.Sublist (written h)
  bounded : s.rx.length ≤ s.cfg.rxCapacity → t.rx.length ≤ s.cfg.rxCapacity
  sched : t.sched <:+ s.sched

theorem Fwd.refl (s : State) : Fwd s s :=
  ⟨rfl, List.prefix_refl _, fun _ h => h, ⟨[], by simp, ⟨[], by simp⟩, [], by simp, by simp⟩, id, List.suffix_refl _⟩

theorem Fwd.trans {s t u : State} (h1 : Fwd s t) (h2 : Fwd t u) : Fwd s u where
  cfg := h2.cfg.trans h1.cfg
  faults := h1.faults.trans h2.faults
  refused := fun r h => h2.refused r (h1.refused r h)
  wire := by
    obtain ⟨a, ha, ⟨x, hx⟩, d, hd, hs⟩ := h1.wire
    obtain ⟨b, hb, ⟨y, hy⟩, e, he, ht⟩ := h2.wire
    refine ⟨a ++ b, by simp [hb, ha], ⟨x ++ y, ?_⟩, d ++ e, by simp [he, hd], by simpa using hs.append ht⟩
    rw [List.append_assoc, hy, ← List.append_assoc, hx]
    simp
  bounded := fun h => by
    have := h2.bounded (by rw [h1.cfg]; exact h1.bounded h)
    rwa [h1.cfg] at this
  sched := h2.sched.trans h1.sched

/-- A step that touches none of the fields `Fwd` speaks of. -/
theorem Fwd.of_same {s t : State} (hc : t.cfg = s.cfg) (hf : t.faults = s.faults) (hr : t.refused = s.refused)
    (hh : t.hist = s.hist) (hx : t.rx = s.rx) (ht : t.toHost = s.toHost) (hm : t.sched <:+ s.sched) : Fwd s t :=
  ⟨hc, hf ▸ List.prefix_refl _, fun _ h => hr ▸ h,
    ⟨[], by simp [hh], ⟨[], by simp [hx]⟩, [], by simp [ht], by simp⟩, fun h => hx ▸ h, hm⟩

theorem Others.fwd {s t : State} (h : Others s t) : Fwd s t where
  cfg := h.cfg
  faults := h.faults ▸ List.prefix_refl _
  refused := fun _ hr => h.refused ▸ hr
  wire := by
    obtain ⟨l, hl, he, hx⟩ := h.grows
    exact ⟨l, hl, ⟨[], by simp [hx]⟩, [], by simp [h.toHost], by simp⟩
  bounded := h.bounded
  sched := h.sched

theorem emit_fwd (e : Event) (s : State) (h : received [e] = []) : Fwd s (s.emit e) :=
  ⟨rfl, List.prefix_refl _, fun _ h => h, ⟨[e], rfl, ⟨[], by simp [h]⟩, [], by simp, by simp⟩, id, List.suffix_refl _⟩

theorem raise_fwd (i : Instr) (f : Fault) (s : State) : Fwd s (s.raise i f) :=
  ⟨rfl, by simp only [raise_faults]; split <;> simp, fun _ h => h,
    ⟨[], by simp, ⟨[], by simp⟩, [], by simp, by simp⟩, id, List.suffix_refl _⟩

theorem refuse_fwd (i : Instr) (r : Refusal) (s : State) : Fwd s (s.refuse i r) :=
  ⟨rfl, List.prefix_refl _, fun r' h => by simp [h], ⟨[], by simp, ⟨[], by simp⟩, [], by simp, by simp⟩, id, List.suffix_refl _⟩

/-- `Contention` is emitted or not; the rest stays. -/
theorem noteContention_eq (before : Bool) (s : State) :
    s.noteContention before =
      { s with hist := s.hist ++ (if !before && s.contention then [.contention] else []) } := by
  unfold State.noteContention
  split <;> simp_all [State.emit]

theorem noteContention_fwd (before : Bool) (s : State) : Fwd s (s.noteContention before) := by
  unfold State.noteContention
  split
  · exact emit_fwd _ _ rfl
  · exact Fwd.refl s

/-! ### The transport's ends -/

/-- One byte to the host: a `Tx` event, and the byte delivered, or with the link down perhaps not. -/
theorem txPush_eq (b : Byte) (s : State) : ∃ d n, txPush b s = { s with
    hist := s.hist ++ [.tx b], toHost := s.toHost ++ d, draws := n } ∧ d.Sublist [b] ∧ (s.link = true → d = [b] ∧ n = s.draws) := by
  unfold txPush
  cases hl : s.link with
  | true => exact ⟨[b], s.draws, by simp [hl, State.emit], by simp, by simp⟩
  | false =>
    cases hd : Config.drawBit s.draws with
    | true => exact ⟨[b], s.draws + 1, by simp [hl, hd, State.emit, State.drew, State.drawn], by simp, by simp⟩
    | false => exact ⟨[], s.draws + 1, by simp [hl, hd, State.emit, State.drew, State.drawn], by simp, by simp⟩

theorem txPush_fwd (b : Byte) (s : State) : Fwd s (txPush b s) := by
  obtain ⟨d, n, he, hd, _⟩ := txPush_eq b s
  rw [he]
  exact ⟨rfl, List.prefix_refl _, fun _ h => h,
    ⟨[.tx b], rfl, ⟨[], by simp [received]⟩, d, rfl, by simpa [written] using hd⟩, id, List.suffix_refl _⟩

theorem yield_fwd (s : State) : Fwd s s.yield := (yield_others s).fwd

theorem micro_fwd (i : Instr) (k : Nat) (base : List Frame) (s : State) : Fwd s (s.micro i k base) :=
  (yield_fwd s).trans (Fwd.of_same rfl rfl rfl rfl rfl rfl (List.suffix_refl _))

theorem back_fwd (base : List Frame) (s : State) : Fwd s (s.back base) := Fwd.of_same rfl rfl rfl rfl rfl rfl (List.suffix_refl _)

theorem drew_fwd (s : State) : Fwd s s.drew := Fwd.of_same rfl rfl rfl rfl rfl rfl (List.suffix_refl _)

theorem txAll_fwd (i : Instr) (base : List Frame) (k : Nat) (l : List Byte) (s : State) :
    Fwd s (txAll i base k l s) := by
  induction l generalizing k s with
  | nil => exact Fwd.refl s
  | cons b bs ih => exact ((micro_fwd i k base s).trans (txPush_fwd b _)).trans (ih _ _)

/-- Taking the head off `rx`. -/
theorem take_fwd {s : State} {b : Byte} {r : List Byte} (h : s.rx = b :: r) : Fwd s { s with rx := r } :=
  ⟨rfl, List.prefix_refl _, fun _ h => h, ⟨[], by simp, ⟨[b], by simp [h]⟩, [], by simp, by simp⟩,
    fun h' => by simp [h] at h' ⊢; omega, List.suffix_refl _⟩

theorem rxPop_fwd (i : Instr) (base : List Frame) (k n : Nat) (s : State) : Fwd s (rxPop i base k n s).2 := by
  induction n generalizing k s with
  | zero => exact Fwd.refl s
  | succ n ih =>
    simp only [rxPop]
    split
    · exact micro_fwd i k base s
    · rename_i b r hr
      exact ((micro_fwd i k base s).trans (take_fwd hr)).trans (ih _ _)

/-- Drawing bytes changes the count of drawn bits only. -/
theorem drawByte_eq (l : List Line) (acc : Byte) (s : State) :
    (drawByte l acc s).2 = { s with draws := s.draws + l.length } := by
  induction l generalizing acc s with
  | nil => rfl
  | cons p ps ih => simp only [drawByte, ih]; simp [State.drew]; omega

theorem drawBytes_eq (n : Nat) (s : State) :
    (drawBytes n s).2 = { s with draws := s.draws + 8 * n } ∧ (drawBytes n s).1.length = n := by
  induction n generalizing s with
  | zero => exact ⟨rfl, rfl⟩
  | succ n ih =>
    obtain ⟨h1, h2⟩ := ih (drawByte linesUp 0 s).2
    refine ⟨?_, congrArg (· + 1) h2⟩
    simp only [drawBytes, h1]
    simp [drawByte_eq, linesUp]; omega

theorem bitOf_setBit (v : Byte) (p q : Line) (x : Bool) :
    bitOf (setBit v p x) q = if q = p then x else bitOf v q := by
  revert v p q x; decide +kernel

/-- The bits of a drawn byte: line 0's bit is drawn first. -/
theorem drawByte_bits (s : State) (p : Line) :
    (drawByte linesUp 0 s).1.getLsbD p.val = Config.drawBit (s.draws + p.val) := by
  change bitOf _ p = _
  simp only [linesUp, drawByte, bitOf_setBit, State.drawn, State.drew]
  fin_cases p <;> simp

/-- The bits of drawn bytes: the first byte's are drawn first. -/
theorem drawBytes_bits (n : Nat) (s : State) (j : Nat) (h : j < n) (p : Line) :
    ((drawBytes n s).1.getD j 0).getLsbD p.val = Config.drawBit (s.draws + 8 * j + p.val) := by
  induction n generalizing s j with
  | zero => omega
  | succ n ih =>
    cases j with
    | zero => exact drawByte_bits s p
    | succ j =>
      have hj := ih (drawByte linesUp 0 s).2 j (by omega)
      rw [drawByte_eq] at hj
      simp only [drawBytes, List.getD_cons_succ]
      rw [drawByte_eq, hj]
      congr 1
      simp only [linesUp, List.length_cons, List.length_nil]
      omega

/-! ### Pieces of an operation -/

/-- The state a piece of an operation leaves, whether it has returned or not. -/
def Flow.state {α : Type} : Flow α → State
  | .ok _ s => s
  | .stop s => s

/-- A piece followed by another keeps what both keep. -/
theorem Flow.bind_keeps {α β : Type} {R : State → State → Prop} (tr : ∀ {a b c}, R a b → R b c → R a c) {s : State}
    {x : Flow α} {k : α → State → Flow β} (h : R s x.state) (hk : ∀ a t, R t (k a t).state) :
    R s (x.bind k).state := by
  cases x with
  | ok a t => exact tr h (hk a t)
  | stop t => exact h

/-! ### A quiet schedule -/

/-- With no HOST or EE step due and the link up, bytes are delivered in order and nothing else happens. -/
theorem txAll_quiet (i : Instr) (base : List Frame) (k : Nat) (l : List Byte) {s : State} (hq : s.Quiet)
    (hl : s.link = true) (q : List Frame) :
    (txAll i base k l s).back q = { s with hist := s.hist ++ l.map .tx, toHost := s.toHost ++ l, seq := q } := by
  induction l generalizing k s with
  | nil => simp [txAll, State.back]
  | cons b bs ih =>
    have hp : txPush b (s.micro i k base) = { s with
        hist := s.hist ++ [.tx b], toHost := s.toHost ++ [b], seq := .op i k :: base } := by
      rw [micro_quiet hq]
      simp [txPush, hl, State.emit]
    simp only [txAll, hp]
    rw [ih (k + 1) (s := { s with hist := s.hist ++ [.tx b], toHost := s.toHost ++ [b], seq := .op i k :: base }) hq hl]
    simp

/-- With no HOST or EE step due, pops take bytes off the head and nothing else happens. -/
theorem rxPop_quiet (i : Instr) (base : List Frame) (k n : Nat) {s : State} (hq : s.Quiet) :
    (rxPop i base k n s).1 = s.rx.take n ∧
      ∀ q, (rxPop i base k n s).2.back q = { s with rx := s.rx.drop n, seq := q } := by
  induction n generalizing k s with
  | zero => simp [rxPop, State.back]
  | succ n ih =>
    simp only [rxPop, micro_quiet hq]
    cases hr : s.rx with
    | nil =>
      simp only [List.take_nil, List.drop_nil, true_and]
      intro q
      simp only [State.back]
    | cons b r =>
      simp only []
      obtain ⟨h1, h2⟩ := ih (k + 1) (s := { s with rx := r, seq := .op i k :: base }) hq
      exact ⟨by rw [h1]; simp, fun q => by rw [h2]; simp⟩

end Sys2Proof.Machine
end

