-- ==== Sys2Proof/Laws/Bus.lean ====
section
/-! SUPPORT. The bus primitives and the pieces of the bus-controller operations: one lemma for each that says what it
does, under every schedule. -/

namespace Sys2Proof.Machine

/-! ### The chain -/

/-- One shift of the chain: everything moves up, the bit enters at 0. -/
def shiftIn (x : Srw) (b : Bool) : Srw := (x <<< 1) ||| (if b then 1 else 0)

theorem shiftBit_eq (b : Bool) (s : State) :
    shiftBit b s = { s with
      stage := shiftIn s.stage b
      pinSdata := { s.pinSdata with level := b }
      pinSclk := { s.pinSclk with level := false } } := rfl

theorem getLsbD_shiftIn (x : Srw) (b : Bool) (i : Nat) :
    (shiftIn x b).getLsbD i = (if i = 0 then b else if i < 16 then x.getLsbD (i - 1) else false) := by
  by_cases h' : i < 16
  · cases b <;> interval_cases i <;> simp [shiftIn]
  · have h0 : i ≠ 0 := by omega
    simp only [h0, h', if_false]
    exact BitVec.getLsbD_of_ge _ i (by omega)

/-- Eight shifts, most significant bit first: the old low byte moves up, the new byte enters (R72). -/
theorem shiftByte_eq (b : Byte) (s : State) :
    shiftByte b linesDown s = { s with
      stage := loByte s.stage ++ b
      pinSdata := { s.pinSdata with level := bitOf b 0 }
      pinSclk := { s.pinSclk with level := false } } := by
  have key : ∀ x : Srw, shiftIn (shiftIn (shiftIn (shiftIn (shiftIn (shiftIn (shiftIn (shiftIn x (bitOf b 7)) (bitOf b 6))
      (bitOf b 5)) (bitOf b 4)) (bitOf b 3)) (bitOf b 2)) (bitOf b 1)) (bitOf b 0) = loByte x ++ b := by
    intro x
    apply BitVec.eq_of_getLsbD_eq
    intro i hi
    simp only [getLsbD_shiftIn, BitVec.getLsbD_append, loByte, BitVec.getLsbD_extractLsb']
    interval_cases i <;> simp [bitOf]
  simp only [linesDown, shiftByte, shiftBit_eq, key]

/-- PUSH8 with the control pins ready (R72, R73). -/
theorem push8_ok (b : Byte) {s : State} (h : s.ctlReady = true) :
    push8 b s = .ok () { s with
      stage := loByte s.stage ++ b
      pinSdata := { s.pinSdata with level := bitOf b 0 }
      pinSclk := { s.pinSclk with level := false }
      hist := s.hist ++ [.push b] } := by
  simp [push8, h, shiftByte_eq, State.emit]

/-- LATCH with the control pins ready (R74): contention is what the new outputs make of it. -/
theorem latch_ok {s : State} (h : s.ctlReady = true) :
    latch s = .ok () { s with
      q := s.stage
      pinLatch := { s.pinLatch with level := false }
      hist := s.hist ++ [.latch s.stage] ++
        (if !s.contention && ({ s with q := s.stage } : State).contention then [.contention] else []) } := by
  simp only [latch, h, if_true, noteContention_eq]
  rfl

/-- DATA_DIR (R75). -/
theorem dataDir_eq (p : Line) (d : Dir) (s : State) :
    dataDir p d s = { s with
      dir := s.dir.set p.val d
      hist := s.hist ++ (if !s.contention && ({ s with dir := s.dir.set p.val d } : State).contention
        then [.contention] else []) } := by
  simp only [dataDir, noteContention_eq]

/-! ### Counters -/

theorem countP_contention (P : Event → Bool) (h : P .contention = false) (c : Bool) :
    (if c then [Event.contention] else []).countP P = 0 := by cases c <;> simp [h]

/-- Events that are none of the counted ones leave the counters. -/
theorem counters_append {s t : State} (e : List Event) (h : t.hist = s.hist ++ e) :
    t.pushes = s.pushes + e.countP isPush ∧ t.latches = s.latches + e.countP isLatch ∧
      t.wePulses = s.wePulses + e.countP isWePulse := by
  simp [State.pushes, State.latches, State.wePulses, h]

/-! ### What a piece of a bus operation keeps -/

/-- The other agents may have stepped; of CTRL's state only the bus has changed. -/
structure BusRun (s t : State) : Prop where
  fwd : Fwd s t
  grows : ∃ h, t.hist = s.hist ++ h ∧ t.rx = s.rx ++ received h
  toHost : t.toHost = s.toHost
  rxTimeout : t.rxTimeout = s.rxTimeout
  fsm : t.fsm = s.fsm
  table : t.table = s.table
  calls : t.calls = s.calls
  faults : t.faults = s.faults
  refused : t.refused = s.refused
  ret : t.ret = s.ret
  ee : (t.busy = s.busy ∧ t.cell = s.cell) ∨
    (t.busy = none ∧ ∃ a d, s.busy = some (a, d) ∧ t.cell = Memory.write s.cell a d)

theorem BusRun.refl (s : State) : BusRun s s :=
  ⟨Fwd.refl s, ⟨[], by simp, by simp⟩, rfl, rfl, rfl, rfl, rfl, rfl, rfl, rfl, .inl ⟨rfl, rfl⟩⟩

theorem BusRun.trans {s t u : State} (h1 : BusRun s t) (h2 : BusRun t u) : BusRun s u where
  fwd := h1.fwd.trans h2.fwd
  grows := by
    obtain ⟨a, ha, hx⟩ := h1.grows
    obtain ⟨b, hb, hy⟩ := h2.grows
    exact ⟨a ++ b, by rw [hb, ha, List.append_assoc], by rw [hy, hx, received_append, List.append_assoc]⟩
  toHost := h2.toHost.trans h1.toHost
  rxTimeout := h2.rxTimeout.trans h1.rxTimeout
  fsm := h2.fsm.trans h1.fsm
  table := h2.table.trans h1.table
  calls := h2.calls.trans h1.calls
  faults := h2.faults.trans h1.faults
  refused := h2.refused.trans h1.refused
  ret := h2.ret.trans h1.ret
  ee := by
    rcases h1.ee with ⟨b1, c1⟩ | ⟨b1, a, d, hb, c1⟩
    · rcases h2.ee with ⟨b2, c2⟩ | ⟨b2, a, d, hb, c2⟩
      · exact .inl ⟨b2.trans b1, c2.trans c1⟩
      · exact .inr ⟨b2, a, d, b1 ▸ hb, c1 ▸ c2⟩
    · rcases h2.ee with ⟨b2, c2⟩ | ⟨_, a', d', hb', _⟩
      · exact .inr ⟨b2.trans b1, a, d, hb, c2.trans c1⟩
      · rw [b1] at hb'; cases hb'

theorem Others.busRun {s t : State} (h : Others s t) : BusRun s t :=
  ⟨h.fwd, by obtain ⟨l, hl, _, hx⟩ := h.grows; exact ⟨l, hl, hx⟩, h.toHost, h.rxTimeout, h.fsm, h.table, h.calls, h.faults, h.refused, h.ret, h.ee⟩

theorem micro_busRun (i : Instr) (k : Nat) (base : List Frame) (s : State) : BusRun s (s.micro i k base) := by
  have h := (yield_others s).busRun
  exact ⟨micro_fwd i k base s, h.grows, h.toHost, h.rxTimeout, h.fsm, h.table, h.calls, h.faults, h.refused, h.ret, h.ee⟩

/-- A change of bus fields and of the history by events that are neither received nor written bytes. -/
theorem BusRun.of_bus {s t : State} (e : List Event) (he : received e = [])
    (ht : t = { s with
      stage := t.stage, q := t.q, dir := t.dir, dout := t.dout, pinSdata := t.pinSdata, pinSclk := t.pinSclk, pinLatch := t.pinLatch, pinWe := t.pinWe, ctlReady := t.ctlReady,
      initDone := t.initDone, seq := t.seq, draws := t.draws, hist := s.hist ++ e }) : BusRun s t := by
  rw [ht]
  exact ⟨⟨rfl, List.prefix_refl _, fun _ h => h, ⟨e, rfl, ⟨[], by simp [he]⟩, [], by simp, by simp⟩, id, List.suffix_refl _⟩,
    ⟨e, rfl, by simp [he]⟩, rfl, rfl, rfl, rfl, rfl, rfl, rfl, rfl, .inl ⟨rfl, rfl⟩⟩

theorem BusRun.idle {s t : State} (h : BusRun s t) (hb : s.busy = none) : t.busy = none ∧ t.cell = s.cell := by
  rcases h.ee with ⟨b, c⟩ | ⟨_, a, d, hs, _⟩
  · exact ⟨b.trans hb, c⟩
  · rw [hb] at hs; cases hs

/-- What the point between two micro-steps leaves of the bus. -/
structure BusKept (s t : State) : Prop where
  stage : t.stage = s.stage
  q : t.q = s.q
  dir : t.dir = s.dir
  dout : t.dout = s.dout
  pinSdata : t.pinSdata = s.pinSdata
  pinSclk : t.pinSclk = s.pinSclk
  pinLatch : t.pinLatch = s.pinLatch
  pinWe : t.pinWe = s.pinWe
  ctlReady : t.ctlReady = s.ctlReady
  initDone : t.initDone = s.initDone
  draws : t.draws = s.draws
  cfg : t.cfg = s.cfg
  pushes : t.pushes = s.pushes
  latches : t.latches = s.latches
  wePulses : t.wePulses = s.wePulses

theorem micro_kept (i : Instr) (k : Nat) (base : List Frame) (s : State) : BusKept s (s.micro i k base) := by
  have h := yield_others s
  obtain ⟨c1, c2, c3⟩ := h.counters
  exact ⟨h.stage, h.q, h.dir, h.dout, h.pinSdata, h.pinSclk, h.pinLatch, h.pinWe, h.ctlReady, h.initDone, h.draws,
    h.cfg, c1, c2, c3⟩

@[simp] theorem micro_seq (i : Instr) (k : Nat) (base : List Frame) (s : State) :
    (s.micro i k base).seq = .op i k :: base := rfl

/-! ### SET_ADDRESS's pushes and latch -/

/-- The end of a SET_ADDRESS (R82): both registers hold the word, the control lines are idle, two pushes and one latch
are counted, the rest of the bus stays. -/
structure Presented (w : Srw) (base : List Frame) (s t : State) : Prop where
  run : BusRun s t
  stage : t.stage = w
  q : t.q = w
  dir : t.dir = s.dir
  dout : t.dout = s.dout
  pinSdata : t.pinSdata = ⟨s.pinSdata.mode, w.getLsbD 0⟩
  pinSclk : t.pinSclk = ⟨s.pinSclk.mode, false⟩
  pinLatch : t.pinLatch = ⟨s.pinLatch.mode, false⟩
  pinWe : t.pinWe = s.pinWe
  ctlReady : t.ctlReady = true
  initDone : t.initDone = s.initDone
  seq : t.seq = base
  draws : t.draws = s.draws
  pushes : t.pushes = s.pushes + 2
  latches : t.latches = s.latches + 1
  wePulses : t.wePulses = s.wePulses

theorem wordOf_hi_lo (x w : Srw) : loByte (loByte x ++ hiByte w) ++ loByte w = w := by
  apply BitVec.eq_of_getLsbD_eq
  intro i hi
  simp only [loByte, hiByte, BitVec.getLsbD_append, BitVec.getLsbD_extractLsb']
  interval_cases i <;> simp

theorem presentAddress_spec (a : Nat) (oe : Bool) (base : List Frame) {s : State} (hr : s.ctlReady = true) :
    ∃ t, presentAddress a oe base s = .ok () t ∧ Presented (srwWord a oe) base s t := by
  simp only [presentAddress]
  generalize srwWord a oe = w
  generalize Instr.setAddress a oe = i
  have k0 := micro_kept i 0 base s
  have r0 := micro_busRun i 0 base s
  generalize s.micro i 0 base = m0 at *
  obtain ⟨s1, hs1, e0⟩ : ∃ s1, _ ∧ push8 (hiByte w) m0 = .ok () s1 := ⟨_, rfl, push8_ok _ (k0.ctlReady.trans hr)⟩
  have r1 : BusRun m0 s1 := by rw [← hs1]; exact BusRun.of_bus [.push (hiByte w)] rfl rfl
  have c1 := counters_append (s := m0) (t := s1) [.push (hiByte w)] (by rw [← hs1])
  rw [e0]
  simp only [Flow.bind]
  have k1 := micro_kept i 1 base s1
  have r1' := micro_busRun i 1 base s1
  generalize s1.micro i 1 base = m1 at *
  have hr1 : m1.ctlReady = true := by rw [k1.ctlReady, ← hs1]; exact k0.ctlReady.trans hr
  obtain ⟨s2, hs2, e1⟩ : ∃ s2, _ ∧ push8 (loByte w) m1 = .ok () s2 := ⟨_, rfl, push8_ok _ hr1⟩
  have r2 : BusRun m1 s2 := by rw [← hs2]; exact BusRun.of_bus [.push (loByte w)] rfl rfl
  have c2 := counters_append (s := m1) (t := s2) [.push (loByte w)] (by rw [← hs2])
  rw [e1]
  simp only []
  have k2 := micro_kept i 2 base s2
  have r2' := micro_busRun i 2 base s2
  generalize s2.micro i 2 base = m2 at *
  have hr2 : m2.ctlReady = true := by rw [k2.ctlReady, ← hs2]; exact hr1
  obtain ⟨s3, hs3, e2⟩ : ∃ s3, _ ∧ latch m2 = .ok () s3 := ⟨_, rfl, latch_ok hr2⟩
  generalize (!m2.contention && ({ m2 with q := m2.stage } : State).contention) = c at hs3
  have hh : s3.hist = m2.hist ++ ([.latch m2.stage] ++ (if c then [.contention] else [])) := by
    rw [← hs3, ← List.append_assoc]
  have r3 : BusRun m2 (s3.back base) := by
    refine BusRun.of_bus ([.latch m2.stage] ++ (if c then [.contention] else [])) (by cases c <;> rfl) ?_
    rw [← hh, ← hs3]; rfl
  have c3 := counters_append (s := m2) (t := s3.back base) _ hh
  rw [e2]
  have hst : m2.stage = w := by
    rw [k2.stage, ← hs2]
    simp only
    rw [k1.stage, ← hs1]
    exact wordOf_hi_lo _ _
  refine ⟨s3.back base, rfl, ((((r0.trans r1).trans r1').trans r2).trans r2').trans r3,
    ?_, ?_, ?_, ?_, ?_, ?_, ?_, ?_, ?_, ?_, rfl, ?_, ?_, ?_, ?_⟩
  · rw [← hs3]; exact hst
  · rw [← hs3]; exact hst
  · rw [← hs3]; simp [k2.dir, ← hs2, k1.dir, ← hs1, k0.dir]
  · rw [← hs3]; simp [k2.dout, ← hs2, k1.dout, ← hs1, k0.dout]
  · rw [← hs3]; simp [k2.pinSdata, ← hs2, k1.pinSdata, ← hs1, k0.pinSdata, bitOf, loByte]
  · rw [← hs3]; simp [k2.pinSclk, ← hs2, k1.pinSclk, ← hs1, k0.pinSclk]
  · rw [← hs3]; simp [k2.pinLatch, ← hs2, k1.pinLatch, ← hs1, k0.pinLatch]
  · rw [← hs3]; simp [k2.pinWe, ← hs2, k1.pinWe, ← hs1, k0.pinWe]
  · rw [← hs3]; exact hr2
  · rw [← hs3]; simp [k2.initDone, ← hs2, k1.initDone, ← hs1, k0.initDone]
  · rw [← hs3]; simp [k2.draws, ← hs2, k1.draws, ← hs1, k0.draws]
  · rw [c3.1, k2.pushes, c2.1, k1.pushes, c1.1, k0.pushes]; cases c <;> rfl
  · rw [c3.2.1, k2.latches, c2.2.1, k1.latches, c1.2.1, k0.latches]; cases c <;> rfl
  · rw [c3.2.2, k2.wePulses, c2.2.2, k1.wePulses, c1.2.2, k0.wePulses]; cases c <;> rfl

/-! ### The data lines -/

/-- The end of `for i in lines: DATA_DIR i, d`. -/
structure DirsSet (l : List Line) (d : Dir) (s t : State) : Prop where
  run : BusRun s t
  stage : t.stage = s.stage
  q : t.q = s.q
  dir : t.dir = l.foldl (fun v p => v.set p.val d) s.dir
  dout : t.dout = s.dout
  pinSdata : t.pinSdata = s.pinSdata
  pinSclk : t.pinSclk = s.pinSclk
  pinLatch : t.pinLatch = s.pinLatch
  pinWe : t.pinWe = s.pinWe
  ctlReady : t.ctlReady = s.ctlReady
  initDone : t.initDone = s.initDone
  draws : t.draws = s.draws
  pushes : t.pushes = s.pushes
  latches : t.latches = s.latches
  wePulses : t.wePulses = s.wePulses

theorem setDirs_spec (i : Instr) (base : List Frame) (d : Dir) (l : List Line) (k : Nat) (s : State) :
    DirsSet l d s (setDirs i base d k l s) := by
  induction l generalizing k s with
  | nil => exact ⟨BusRun.refl s, rfl, rfl, rfl, rfl, rfl, rfl, rfl, rfl, rfl, rfl, rfl, rfl, rfl, rfl⟩
  | cons p ps ih =>
    have k0 := micro_kept i k base s
    have r0 := micro_busRun i k base s
    simp only [setDirs]
    generalize s.micro i k base = m at *
    obtain ⟨u, hu, e⟩ : ∃ u, _ ∧ dataDir p d m = u := ⟨_, rfl, dataDir_eq p d m⟩
    generalize (!m.contention && ({ m with dir := m.dir.set p.val d } : State).contention) = c at hu
    have r1 : BusRun m u := by
      rw [← hu]
      exact BusRun.of_bus (if c then [.contention] else []) (by cases c <;> rfl) rfl
    have hc := counters_append (s := m) (t := u) (if c then [.contention] else []) (by rw [← hu])
    simp only [countP_contention isPush rfl, countP_contention isLatch rfl, countP_contention isWePulse rfl,
      Nat.add_zero] at hc
    rw [e]
    have h := ih (k + 1) u
    have hf : u.stage = m.stage ∧ u.q = m.q ∧ u.dir = m.dir.set p.val d ∧ u.dout = m.dout ∧
        u.pinSdata = m.pinSdata ∧ u.pinSclk = m.pinSclk ∧ u.pinLatch = m.pinLatch ∧ u.pinWe = m.pinWe ∧
        u.ctlReady = m.ctlReady ∧ u.initDone = m.initDone ∧ u.draws = m.draws := by
      rw [← hu]; exact ⟨rfl, rfl, rfl, rfl, rfl, rfl, rfl, rfl, rfl, rfl, rfl⟩
    obtain ⟨f1, f2, f3, f4, f5, f6, f7, f8, f9, f10, f11⟩ := hf
    exact ⟨(r0.trans r1).trans h.run, h.stage.trans (f1.trans k0.stage), h.q.trans (f2.trans k0.q),
      by rw [h.dir, List.foldl_cons, f3, k0.dir], h.dout.trans (f4.trans k0.dout),
      h.pinSdata.trans (f5.trans k0.pinSdata), h.pinSclk.trans (f6.trans k0.pinSclk),
      h.pinLatch.trans (f7.trans k0.pinLatch), h.pinWe.trans (f8.trans k0.pinWe),
      h.ctlReady.trans (f9.trans k0.ctlReady), h.initDone.trans (f10.trans k0.initDone),
      h.draws.trans (f11.trans k0.draws), h.pushes.trans (hc.1.trans k0.pushes),
      h.latches.trans (hc.2.1.trans k0.latches), h.wePulses.trans (hc.2.2.trans k0.wePulses)⟩

/-- Setting all eight directions in turn sets them all. -/
theorem setAll_dir (v : Vector Dir 8) (d : Dir) :
    linesUp.foldl (fun v p => v.set p.val d) v = Vector.replicate 8 d := by
  apply Vector.ext
  intro i hi
  simp only [linesUp, List.foldl_cons, List.foldl_nil, Vector.getElem_replicate]
  interval_cases i <;> simp

/-- The end of `for i in lines: DATA_OUT i, v[i]`. -/
structure Driven (l : List Line) (v : Byte) (s t : State) : Prop where
  run : BusRun s t
  stage : t.stage = s.stage
  q : t.q = s.q
  dir : t.dir = s.dir
  dout : t.dout = l.foldl (fun w p => setBit w p (bitOf v p)) s.dout
  pinSdata : t.pinSdata = s.pinSdata
  pinSclk : t.pinSclk = s.pinSclk
  pinLatch : t.pinLatch = s.pinLatch
  pinWe : t.pinWe = s.pinWe
  ctlReady : t.ctlReady = s.ctlReady
  initDone : t.initDone = s.initDone
  draws : t.draws = s.draws
  pushes : t.pushes = s.pushes
  latches : t.latches = s.latches
  wePulses : t.wePulses = s.wePulses

theorem driveByte_spec (i : Instr) (base : List Frame) (v : Byte) (l : List Line) (k : Nat) (s : State) :
    Driven l v s (driveByte i base v k l s) := by
  induction l generalizing k s with
  | nil => exact ⟨BusRun.refl s, rfl, rfl, rfl, rfl, rfl, rfl, rfl, rfl, rfl, rfl, rfl, rfl, rfl, rfl⟩
  | cons p ps ih =>
    have k0 := micro_kept i k base s
    have r0 := micro_busRun i k base s
    simp only [driveByte]
    generalize s.micro i k base = m at *
    have r1 : BusRun m (dataOut p (bitOf v p) m) := BusRun.of_bus [] rfl (by simp only [dataOut, List.append_nil])
    have h := ih (k + 1) (dataOut p (bitOf v p) m)
    exact ⟨(r0.trans r1).trans h.run, h.stage.trans k0.stage, h.q.trans k0.q, h.dir.trans k0.dir,
      by rw [h.dout, List.foldl_cons, dataOut, k0.dout],
      h.pinSdata.trans k0.pinSdata, h.pinSclk.trans k0.pinSclk, h.pinLatch.trans k0.pinLatch, h.pinWe.trans k0.pinWe,
      h.ctlReady.trans k0.ctlReady, h.initDone.trans k0.initDone, h.draws.trans k0.draws,
      h.pushes.trans k0.pushes, h.latches.trans k0.latches, h.wePulses.trans k0.wePulses⟩

/-- A byte whose bits are those of `v` is `v`. -/
theorem byte_ext {u v : Byte} (h : ∀ p : Line, bitOf u p = bitOf v p) : u = v := by
  apply BitVec.eq_of_getLsbD_eq
  intro i hi
  exact h ⟨i, hi⟩

/-- Putting all eight bits of `v`, in either order, gives `v`. -/
theorem setAll_up (u v : Byte) : linesUp.foldl (fun w p => setBit w p (bitOf v p)) u = v := by
  apply byte_ext
  intro p
  simp only [linesUp, List.foldl_cons, List.foldl_nil, bitOf_setBit]
  fin_cases p <;> simp

theorem setAll_down (u v : Byte) : linesDown.foldl (fun w p => setBit w p (bitOf v p)) u = v := by
  apply byte_ext
  intro p
  simp only [linesDown, List.foldl_cons, List.foldl_nil, bitOf_setBit]
  fin_cases p <;> simp

/-- The end of `for i in lines: r[i] <- DATA_IN i`: only free bits are used up. -/
structure Sampled (s t : State) : Prop where
  run : BusRun s t
  stage : t.stage = s.stage
  q : t.q = s.q
  dir : t.dir = s.dir
  dout : t.dout = s.dout
  pinSdata : t.pinSdata = s.pinSdata
  pinSclk : t.pinSclk = s.pinSclk
  pinLatch : t.pinLatch = s.pinLatch
  pinWe : t.pinWe = s.pinWe
  ctlReady : t.ctlReady = s.ctlReady
  initDone : t.initDone = s.initDone
  pushes : t.pushes = s.pushes
  latches : t.latches = s.latches
  wePulses : t.wePulses = s.wePulses

/-- DATA_IN changes the count of drawn bits only. -/
theorem dataIn_eq (p : Line) (s : State) : ∃ n, (dataIn p s).2 = { s with draws := n } := by
  unfold dataIn
  split
  · exact ⟨s.draws + 1, rfl⟩
  · split
    · exact ⟨s.draws, rfl⟩
    · exact ⟨s.draws + 1, rfl⟩

theorem sampleByte_spec (i : Instr) (base : List Frame) (l : List Line) (k : Nat) (r : Byte) (s : State) :
    Sampled s (sampleByte i base k l r s).2 := by
  induction l generalizing k r s with
  | nil => exact ⟨BusRun.refl s, rfl, rfl, rfl, rfl, rfl, rfl, rfl, rfl, rfl, rfl, rfl, rfl, rfl⟩
  | cons p ps ih =>
    have k0 := micro_kept i k base s
    have r0 := micro_busRun i k base s
    simp only [sampleByte]
    generalize s.micro i k base = m at *
    obtain ⟨n, e⟩ := dataIn_eq p m
    have r1 : BusRun m (dataIn p m).2 := by rw [e]; exact BusRun.of_bus [] rfl (by simp only [List.append_nil])
    have h := ih (k + 1) (setBit r p (dataIn p m).1) (dataIn p m).2
    generalize (sampleByte i base (k + 1) ps (setBit r p (dataIn p m).1) (dataIn p m).2).2 = t at *
    rw [e] at h r1
    exact ⟨(r0.trans r1).trans h.run, h.stage.trans k0.stage, h.q.trans k0.q, h.dir.trans k0.dir, h.dout.trans k0.dout,
      h.pinSdata.trans k0.pinSdata, h.pinSclk.trans k0.pinSclk, h.pinLatch.trans k0.pinLatch, h.pinWe.trans k0.pinWe,
      h.ctlReady.trans k0.ctlReady, h.initDone.trans k0.initDone,
      h.pushes.trans k0.pushes, h.latches.trans k0.latches, h.wePulses.trans k0.wePulses⟩

/-- The chip drives the lines, they are inputs, no write cycle is in progress and the access time is met. -/
structure Readable (s : State) : Prop where
  dir : s.dir = Vector.replicate 8 .inp
  drives : s.eeDrives = true
  busy : s.busy = none
  met : s.cfg.accessTimeMet = true

/-- A readable line gives the bit of the addressed cell and changes nothing (R71, R77). -/
theorem dataIn_readable (p : Line) {s : State} (h : Readable s) :
    dataIn p s = (bitOf (s.cellByte s.busAddress) p, s) := by
  have hd : s.dir[p] = .inp := by rw [h.dir]; simp
  simp [dataIn, lineLevel, chipBit, hd, h.drives, h.busy, h.met]

theorem Others.readable {s t : State} (h : Others s t) (hr : Readable s) (i : Instr) (k : Nat) (base : List Frame) :
    Readable { t with seq := .op i k :: base } ∧ t.cell = s.cell := by
  obtain ⟨hb, hc⟩ := h.idle hr.busy
  refine ⟨⟨h.dir.trans hr.dir, ?_, hb, by rw [← hr.met]; exact congrArg _ h.cfg⟩, hc⟩
  simpa [State.eeDrives, h.q, h.pinWe] using hr.drives

/-- Sampling readable lines collects the bits of the addressed cell and draws nothing. -/
theorem sampleByte_readable (i : Instr) (base : List Frame) (l : List Line) (k : Nat) (r : Byte) {s : State}
    (h : Readable s) :
    (sampleByte i base k l r s).1 = l.foldl (fun w p => setBit w p (bitOf (s.cellByte s.busAddress) p)) r ∧
      (sampleByte i base k l r s).2.draws = s.draws := by
  induction l generalizing k r s with
  | nil => exact ⟨rfl, rfl⟩
  | cons p ps ih =>
    have ho := yield_others s
    obtain ⟨hm, hc⟩ := ho.readable h i k base
    change Readable (s.micro i k base) at hm
    have e := dataIn_readable p hm
    have hcell : (s.micro i k base).cellByte (s.micro i k base).busAddress = s.cellByte s.busAddress := by
      simp [State.micro, State.cellByte, State.busAddress, hc, ho.q, ho.cfg]
    simp only [sampleByte, e, hcell]
    obtain ⟨h1, h2⟩ := ih (k + 1) (setBit r p (bitOf (s.cellByte s.busAddress) p)) hm
    rw [hcell] at h1
    exact ⟨h1, h2.trans ho.draws⟩

end Sys2Proof.Machine
end

