-- ==== Sys2Proof/Laws/Codec.lean ====
section
/-! SUPPORT. The formats of spec/30_encoding.md: words, integers, text, and the operand readers over what the encoder
writes. -/

namespace Sys2Proof

/-! ### The shift-register word -/

/-- The word as a number: the address, and 2^15 where output is disabled (R54). -/
theorem srwWord_toNat {a : Nat} (oe : Bool) (h : a < 2 ^ 15) :
    (srwWord a oe).toNat = (if oe then 0 else 2 ^ 15) + a := by
  cases oe with
  | true => simp [srwWord]; omega
  | false =>
    have e := Nat.two_pow_add_eq_or_of_lt h 1
    simp only [srwWord, Bool.false_eq_true, if_false, BitVec.toNat_or, BitVec.toNat_shiftLeft, BitVec.toNat_ofNat]
    rw [Nat.mod_eq_of_lt (show a < 2 ^ 16 by omega)]
    simpa using e.symm

/-- The word's two pushes make the word again (R55). -/
@[simp] theorem wordOf_pushes (w : Srw) : wordOf (hiByte w) (loByte w) = w := by
  apply BitVec.eq_of_getLsbD_eq
  intro i hi
  simp only [wordOf, loByte, hiByte, BitVec.getLsbD_append, BitVec.getLsbD_extractLsb']
  interval_cases i <;> simp

@[simp] theorem hiByte_wordOf (hi lo : Byte) : hiByte (wordOf hi lo) = hi := by
  apply BitVec.eq_of_getLsbD_eq
  intro i h
  simp only [wordOf, hiByte, BitVec.getLsbD_append, BitVec.getLsbD_extractLsb']
  interval_cases i <;> simp

@[simp] theorem loByte_wordOf (hi lo : Byte) : loByte (wordOf hi lo) = lo := by
  apply BitVec.eq_of_getLsbD_eq
  intro i h
  simp only [wordOf, loByte, BitVec.getLsbD_append, BitVec.getLsbD_extractLsb']
  interval_cases i <;> simp

@[simp] theorem encodeWord_wordOf (hi lo : Byte) : encodeWord (wordOf hi lo) = [hi, lo] := by simp [encodeWord]

/-- The address field of the word of an address (R54). -/
theorem srwAddress_word {a : Nat} (oe : Bool) (h : a < 2 ^ 15) : srwAddress (srwWord a oe) = a := by
  rw [srwAddress, srwWord_toNat oe h]
  cases oe <;> simp <;> omega

/-- The enable bit of the word of an address (R54). -/
theorem srwEnabled_word {a : Nat} (oe : Bool) (h : a < 2 ^ 15) : srwEnabled (srwWord a oe) = oe := by
  have e : (srwWord a oe).getLsbD 15 = !oe := by
    rw [BitVec.getLsbD, srwWord_toNat oe h, Nat.testBit_eq_decide_div_mod_eq]
    cases oe <;> simp <;> omega
  rw [srwEnabled, e, Bool.not_not]

theorem srwAddress_lt (w : Srw) : srwAddress w < 2 ^ 15 := Nat.mod_lt _ (by decide)

/-- A word is the word of its own two fields. -/
theorem srwWord_fields (w : Srw) : srwWord (srwAddress w) (srwEnabled w) = w := by
  apply BitVec.eq_of_toNat_eq
  rw [srwWord_toNat _ (srwAddress_lt w), srwEnabled, BitVec.getLsbD, Nat.testBit_eq_decide_div_mod_eq, srwAddress]
  have := w.isLt
  by_cases h : w.toNat / 2 ^ 15 % 2 = 1
  · simp only [h, decide_true, Bool.not_true, Bool.false_eq_true, if_false]; omega
  · simp only [h, decide_false, Bool.not_false, if_true]; omega

/-! ### Integers -/

@[simp] theorem leiEncode_length (m : Nat) (x : Int) : (leiEncode m x).length = m := by simp [leiEncode]

theorem leNat_lt (l : List Byte) : leNat l < 2 ^ (8 * l.length) := by
  induction l with
  | nil => simp [leNat]
  | cons b r ih =>
    have := b.isLt
    simp only [leNat, List.length_cons, Nat.mul_add, Nat.pow_add]
    omega

/-- The digits of a number in base 256, `m` of them, make it again. -/
theorem leNat_digits (m n : Nat) :
    leNat ((List.range m).map fun k => BitVec.ofNat 8 (n / 2 ^ (8 * k))) = n % 2 ^ (8 * m) := by
  induction m generalizing n with
  | zero => simp [leNat, Nat.mod_one]
  | succ m ih =>
    have hs : ∀ k, n / 2 ^ (8 * (k + 1)) = n / 2 ^ 8 / 2 ^ (8 * k) := fun k => by
      rw [Nat.div_div_eq_div_mul, ← Nat.pow_add]; congr 2; omega
    rw [List.range_succ_eq_map, List.map_cons, List.map_map]
    simp only [Function.comp_def, Nat.succ_eq_add_one, hs, leNat, ih]
    rw [show 8 * (m + 1) = 8 + 8 * m by omega, Nat.pow_add, Nat.mod_mul]
    simp

/-- The bytes the encoder writes, as digits. -/
theorem leiEncode_eq (m : Nat) (x : Int) :
    leiEncode m x = (List.range m).map fun k => BitVec.ofNat 8 ((BitVec.ofInt (8 * m) x).toNat / 2 ^ (8 * k)) := by
  rw [leiEncode]
  apply List.map_congr_left
  intro k _
  apply BitVec.eq_of_toNat_eq
  rw [BitVec.extractLsb'_toNat, BitVec.toNat_ofNat, Nat.shiftRight_eq_div_pow]

theorem leNat_leiEncode (m : Nat) (x : Int) : leNat (leiEncode m x) = (BitVec.ofInt (8 * m) x).toNat := by
  rw [leiEncode_eq, leNat_digits, Nat.mod_eq_of_lt (BitVec.isLt _)]

/-- What the wire carries back is the integer modulo 2^N (R99). -/
theorem leiDecode_leiEncode_mod (m : Nat) (x : Int) :
    leiDecode m (leiEncode m x) = (BitVec.ofInt (8 * m) x).toInt := by
  rw [leiDecode, leNat_leiEncode, BitVec.ofNat_toNat, BitVec.setWidth_eq]

/-- An integer of the signed range comes back unchanged (R63). -/
theorem leiDecode_leiEncode {m : Nat} (hm : 0 < m) {x : Int} (h : signedOk (8 * m) x = true) :
    leiDecode m (leiEncode m x) = x := by
  have hx : -(2 : Int) ^ (8 * m - 1) ≤ x ∧ x < (2 : Int) ^ (8 * m - 1) := of_decide_eq_true h
  rw [leiDecode_leiEncode_mod, BitVec.toInt_ofInt]
  have e : ((2 : Nat) ^ (8 * m) : Nat) = 2 * 2 ^ (8 * m - 1) := by
    rw [← Nat.pow_succ']; congr 1; omega
  have e' : ((2 ^ (8 * m - 1) : Nat) : Int) = (2 : Int) ^ (8 * m - 1) := by norm_cast
  apply Int.bmod_eq_of_le
  · rw [e]; push_cast; omega
  · rw [e]; push_cast; omega

/-- A list of bytes is the digits of its number. -/
theorem digits_leNat (l : List Byte) :
    ((List.range l.length).map fun k => BitVec.ofNat 8 (leNat l / 2 ^ (8 * k))) = l := by
  induction l with
  | nil => rfl
  | cons b r ih =>
    have hb := b.isLt
    have h0 : BitVec.ofNat 8 (leNat (b :: r)) = b := by
      apply BitVec.eq_of_toNat_eq
      simp only [leNat, BitVec.toNat_ofNat]; omega
    have hs : ∀ k, leNat (b :: r) / 2 ^ (8 * (k + 1)) = leNat r / 2 ^ (8 * k) := fun k => by
      rw [show 8 * (k + 1) = 8 + 8 * k by omega, Nat.pow_add, ← Nat.div_div_eq_div_mul]
      congr 1
      simp only [leNat]; omega
    rw [List.length_cons, List.range_succ_eq_map, List.map_cons, List.map_map]
    simp only [Function.comp_def, Nat.succ_eq_add_one, hs, ih, Nat.mul_zero, Nat.pow_zero, Nat.div_one, h0]

/-- Encoding what was decoded gives the bytes again. -/
theorem leiEncode_leiDecode (l : List Byte) : leiEncode l.length (leiDecode l.length l) = l := by
  rw [leiEncode_eq, leiDecode, BitVec.ofInt_toInt, BitVec.toNat_ofNat, Nat.mod_eq_of_lt (leNat_lt l), digits_leNat]

/-- A count's bytes give the count again. -/
theorem leNat_count {n : Nat} (h : n < 2 ^ 32) : leNat (leiEncode 4 n) = n := by
  rw [leNat_leiEncode]
  simp [BitVec.ofInt_natCast]; omega

/-- Four bytes are the count they read as. -/
theorem leiEncode_leNat (l : List Byte) : leiEncode l.length (leNat l) = l := by
  rw [leiEncode_eq, BitVec.ofInt_natCast, BitVec.toNat_ofNat, Nat.mod_eq_of_lt (leNat_lt l), digits_leNat]

/-! ### Text -/

/-- The text before the terminator, and what follows it (R64). -/
theorem takeText_strz (s rest : List Byte) (h : textOk s = true) : takeText (strz s ++ rest) = some (s, rest) := by
  induction s with
  | nil => simp [strz, takeText]
  | cons b r ih =>
    have hb : b ≠ 0 ∧ textOk r = true := by
      simp [textOk] at h
      exact ⟨fun e => h.1 e.symm, by simp [textOk, h.2]⟩
    have := ih hb.2
    simp only [strz, List.cons_append, takeText, hb.1, if_false] at this ⊢
    rw [this]; rfl

theorem takeText_inv {l s rest : List Byte} (h : takeText l = some (s, rest)) :
    textOk s = true ∧ l = strz s ++ rest := by
  induction l generalizing s rest with
  | nil => simp [takeText] at h
  | cons b r ih =>
    simp only [takeText] at h
    split at h
    · rename_i hb
      simp only [Option.some.injEq, Prod.mk.injEq] at h
      obtain ⟨rfl, rfl⟩ := h
      exact ⟨rfl, by simp [strz, hb]⟩
    · rename_i hb
      simp only [Option.map_eq_some_iff, Prod.exists, Prod.mk.injEq] at h
      obtain ⟨t, r', he, rfl, rfl⟩ := h
      obtain ⟨h1, h2⟩ := ih he
      refine ⟨?_, by rw [h2]; rfl⟩
      simp [textOk] at h1 ⊢
      exact ⟨fun e => hb e.symm, h1⟩

/-! ### The operand readers on what the encoder writes -/

@[simp] theorem withByte_cons (b : Byte) (r : List Byte) (k : Byte → List Byte → Decoded) :
    withByte (b :: r) k = k b r := rfl

@[simp] theorem withWord_encode (w : Srw) (r : List Byte) (k : Srw → List Byte → Decoded) :
    withWord (encodeWord w ++ r) k = k w r := by
  simp [encodeWord, withWord]

theorem withBytes_append (l r : List Byte) (k : List Byte → List Byte → Decoded) :
    withBytes l.length (l ++ r) k = k l r := by
  simp [withBytes]

theorem withCount_encode {n : Nat} (h : n < 2 ^ 32) (r : List Byte) (k : Nat → List Byte → Decoded) :
    withCount (leiEncode 4 n ++ r) k = k n r := by
  have := withBytes_append (leiEncode 4 n) r fun bs r => k (leNat bs) r
  rw [leiEncode_length] at this
  rw [withCount, this, leNat_count h]

theorem withDuration_encode {t : Duration} (h : durationOk t = true) (r : List Byte)
    (k : Duration → List Byte → Decoded) : withDuration (encodeDuration t ++ r) k = k t r := by
  cases t with
  | micros n =>
    have hn : n < 2 ^ 32 := of_decide_eq_true h
    exact withCount_encode hn r fun n r' => k (.micros n) r'
  | _ => rfl

theorem withText_encode {s : List Byte} (h : textOk s = true) (r : List Byte)
    (k : List Byte → List Byte → Decoded) : withText (strz s ++ r) k = k s r := by
  simp [withText, takeText_strz s r h]

end Sys2Proof
end

