-- ==== Sys2Proof/Laws/BusOp.lean ====
section
/-! SUPPORT. The bus-controller operations past their checks: one lemma for each, under every schedule. -/

namespace Sys2Proof.Machine

/-! ### The word and the address -/

/-- Bit 15 of the word is output enable, inverted (R54). -/
theorem srwWord_noe {a : Nat} (oe : Bool) (h : a < 2 ^ 15) : (srwWord a oe).getLsbD 15 = !oe := by
  rw [BitVec.getLsbD, srwWord_toNat oe h, Nat.testBit_eq_decide_div_mod_eq]
  cases oe <;> simp <;> omega

theorem maxAddress_lt {c : Config} (h : c.addrWidth ≤ 15) {a : Nat} (ha : addressInRange c a = true) :
    a < 2 ^ c.addrWidth ∧ a < 2 ^ 15 := by
  have h1 : a ≤ 2 ^ c.addrWidth - 1 := of_decide_eq_true ha
  have h2 : 0 < 2 ^ c.addrWidth := Nat.two_pow_pos _
  have h3 : 2 ^ c.addrWidth ≤ 2 ^ 15 := Nat.pow_le_pow_right (by omega) h
  omega

/-- The address the EEPROM sees once the word of `a` is latched (R15). -/
theorem busAddress_of_word {s : State} {a : Nat} (oe : Bool) (hw : s.cfg.addrWidth ≤ 15)
    (ha : addressInRange s.cfg a = true) (hq : s.q = srwWord a oe) : s.busAddress = a := by
  obtain ⟨h1, h2⟩ := maxAddress_lt hw ha
  rw [State.busAddress, hq, srwWord_toNat oe h2]
  obtain ⟨k, hk⟩ := Nat.exists_eq_add_of_le hw
  cases oe with
  | true => simpa using Nat.mod_eq_of_lt h1
  | false =>
    rw [hk, Nat.pow_add]
    simp only [Bool.false_eq_true, if_false]
    rw [Nat.mul_add_mod, Nat.mod_eq_of_lt h1]

/-! ### READ -/

/-- The end of a READ (R84). -/
structure ReadEnd (a : Nat) (base : List Frame) (s t : State) : Prop where
  run : BusRun s t
  stage : t.stage = srwWord a true
  q : t.q = srwWord a true
  dir : t.dir = Vector.replicate 8 .inp
  dout : t.dout = s.dout
  pinSdata : t.pinSdata = ⟨s.pinSdata.mode, (srwWord a true).getLsbD 0⟩
  pinSclk : t.pinSclk = ⟨s.pinSclk.mode, false⟩
  pinLatch : t.pinLatch = ⟨s.pinLatch.mode, false⟩
  pinWe : t.pinWe = s.pinWe
  ctlReady : t.ctlReady = true
  initDone : t.initDone = s.initDone
  seq : t.seq = base
  pushes : t.pushes = s.pushes + 2
  latches : t.latches = s.latches + 1
  wePulses : t.wePulses = s.wePulses

/-- READ past its checks completes, whatever HOST and EE do; with the chip idle, the access time met and write enable
high it answers the cell and draws nothing. -/
theorem readCell_spec (a : Nat) (base : List Frame) {s : State} (hr : s.ctlReady = true) :
    ∃ r t, readCell a base s = .ok r t ∧ ReadEnd a base s t ∧
      (s.busy = none → s.cfg.accessTimeMet = true → s.pinWe.level = true → s.cfg.addrWidth ≤ 15 →
        addressInRange s.cfg a = true → r = s.cellByte a ∧ t.draws = s.draws) := by
  simp only [readCell]
  generalize Instr.read a = i
  have d := setDirs_spec i base .inp linesUp 0 s
  generalize setDirs i base .inp 0 linesUp s = s1 at *
  have k := micro_kept i 8 base s1
  have rm := micro_busRun i 8 base s1
  generalize s1.micro i 8 base = m at *
  obtain ⟨s2, e2, p⟩ := presentAddress_spec a true (.op i 8 :: base) (s := m)
    (k.ctlReady.trans (d.ctlReady.trans hr))
  rw [e2]
  simp only [Flow.bind]
  have f := sampleByte_spec i base linesDown 9 0 s2
  have g := fun h => sampleByte_readable i base linesDown 9 0 (s := s2) h
  generalize sampleByte i base 9 linesDown 0 s2 = x at *
  have hdir : s2.dir = Vector.replicate 8 .inp := by
    rw [p.dir, k.dir, d.dir, setAll_dir]
  have hrun := ((d.run.trans rm).trans p.run)
  refine ⟨_, _, rfl, ?_, ?_⟩
  · exact {
      run := (hrun.trans f.run).trans (BusRun.of_bus [] rfl (by simp only [State.back, List.append_nil]))
      stage := f.stage.trans p.stage
      q := f.q.trans p.q
      dir := f.dir.trans hdir
      dout := by simp [f.dout, p.dout, k.dout, d.dout]
      pinSdata := by simp [f.pinSdata, p.pinSdata, k.pinSdata, d.pinSdata]
      pinSclk := by simp [f.pinSclk, p.pinSclk, k.pinSclk, d.pinSclk]
      pinLatch := by simp [f.pinLatch, p.pinLatch, k.pinLatch, d.pinLatch]
      pinWe := by simp [f.pinWe, p.pinWe, k.pinWe, d.pinWe]
      ctlReady := by simp [f.ctlReady, p.ctlReady]
      initDone := by simp [f.initDone, p.initDone, k.initDone, d.initDone]
      seq := rfl
      pushes := by
        have := f.pushes; have := p.pushes; have := k.pushes; have := d.pushes
        simp only [State.pushes, back_hist] at *; omega
      latches := by
        have := f.latches; have := p.latches; have := k.latches; have := d.latches
        simp only [State.latches, back_hist] at *; omega
      wePulses := by
        have := f.wePulses; have := p.wePulses; have := k.wePulses; have := d.wePulses
        simp only [State.wePulses, back_hist] at *; omega }
  · intro hb hacc hwe hw ha
    obtain ⟨hb2, hc2⟩ := hrun.idle hb
    have hcfg : s2.cfg = s.cfg := hrun.fwd.cfg
    have hlt := (maxAddress_lt hw ha).2
    have rd : Readable s2 := {
      dir := hdir
      drives := by rw [State.eeDrives, p.q, srwWord_noe true hlt, p.pinWe, k.pinWe, d.pinWe, hwe]; rfl
      busy := hb2
      met := by rw [hcfg]; exact hacc }
    obtain ⟨v, w⟩ := g rd
    have hba : s2.busAddress = a := busAddress_of_word true (by rwa [hcfg]) (by rwa [hcfg]) p.q
    refine ⟨?_, ?_⟩
    · rw [v, setAll_down, hba]
      simp [State.cellByte, hc2]
    · simp only [back_draws]
      rw [w, p.draws, k.draws, d.draws]

/-! ### WE_PULSE and the settle delay -/

theorem drivenByte_eq (l : List Line) (d : Byte) (s : State) :
    ∃ n, (drivenByte l d s).2 = { s with draws := n } ∧
      (∀ p, p ∉ l → bitOf (drivenByte l d s).1 p = bitOf d p) ∧
      (∀ p, p ∈ l → s.dir[p] = .out → bitOf (drivenByte l d s).1 p = bitOf s.dout p) ∧
      ((∀ p ∈ l, s.dir[p] = .out) → n = s.draws) := by
  induction l generalizing d s with
  | nil => exact ⟨s.draws, rfl, fun _ _ => rfl, by simp, by simp⟩
  | cons p ps ih =>
    simp only [drivenByte]
    split
    · rename_i ho
      obtain ⟨n, e, h1, h2, h3⟩ := ih (setBit d p (bitOf s.dout p)) s
      refine ⟨n, e, ?_, ?_, ?_⟩
      · intro q hq
        rw [h1 q (by simp_all), bitOf_setBit]
        simp_all
      · intro q hq hqo
        by_cases hm : q ∈ ps
        · exact h2 q hm hqo
        · have : q = p := by simpa [hm] using hq
          subst this
          rw [h1 q hm, bitOf_setBit]; simp
      · intro h; exact h3 fun q hq => h q (List.mem_cons_of_mem _ hq)
    · rename_i ho
      obtain ⟨n, e, h1, h2, _⟩ := ih (setBit d p s.drawn) s.drew
      refine ⟨n, e.trans rfl, ?_, ?_, ?_⟩
      · intro q hq
        rw [h1 q (by simp_all), bitOf_setBit]
        simp_all
      · intro q hq hqo
        have hm : q ∈ ps := by
          rcases List.mem_cons.1 hq with h | h
          · exact absurd (h ▸ hqo) ho
          · exact h
        exact h2 q hm hqo
      · intro h; exact absurd (h p (List.mem_cons_self ..)) ho

/-- The strobe leaves write enable high and one `WePulse`; a sufficient pulse starts the cycle and draws nothing. -/
theorem strobe_eq (a : Nat) (d : Byte) (s : State) :
    ∃ b n, strobe a d s = { s with
        pinWe := { s.pinWe with level := true }, busy := b, draws := n, hist := s.hist ++ [.wePulse a d] } ∧
      (b = s.busy ∨ b = some (a, d)) ∧
      (s.cfg.wePulseSufficient = true → b = some (a, d) ∧ n = s.draws) := by
  cases hs : s.cfg.wePulseSufficient with
  | true => exact ⟨some (a, d), s.draws, by simp only [strobe, hs]; rfl, .inr rfl, fun _ => ⟨rfl, rfl⟩⟩
  | false =>
    cases hb : Config.drawBit s.draws with
    | true =>
      exact ⟨some (a, d), s.draws + 1, by simp only [strobe, hs, State.drawn, hb]; rfl, .inr rfl, by simp⟩
    | false =>
      exact ⟨s.busy, s.draws + 1, by simp only [strobe, hs, State.drawn, hb]; rfl, .inl rfl, by simp⟩

/-- WE_PULSE past its checks (R78): the byte pulsed has `dout`'s bit on every line that is an output; with a
sufficient pulse the write cycle starts, and with all lines outputs the byte is `dout` and nothing is drawn. -/
theorem wePulse_ok {s : State} (hr : s.ctlReady = true) (hq : s.q.getLsbD 15 = true) (hb : s.busy = none) :
    ∃ d b n, wePulse s = .ok () { s with
        pinWe := { s.pinWe with level := true }, busy := b, draws := n,
        hist := s.hist ++ [.wePulse s.busAddress d] } ∧
      (∀ p : Line, s.dir[p] = .out → bitOf d p = bitOf s.dout p) ∧
      (b = none ∨ b = some (s.busAddress, d)) ∧
      (s.cfg.wePulseSufficient = true → b = some (s.busAddress, d)) ∧
      (s.dir = Vector.replicate 8 .out → d = s.dout ∧ (s.cfg.wePulseSufficient = true → n = s.draws)) := by
  obtain ⟨n, e, _, h2, h3⟩ := drivenByte_eq linesUp 0 s
  have hall : ∀ p : Line, p ∈ linesUp := by decide
  have hd : s.dir = Vector.replicate 8 .out → (drivenByte linesUp 0 s).1 = s.dout := fun ho =>
    byte_ext fun p => h2 p (hall p) (by rw [ho]; simp)
  have hn : s.dir = Vector.replicate 8 .out → n = s.draws := fun ho => h3 fun p _ => by rw [ho]; simp
  have hw : wePulse s = .ok () (strobe s.busAddress (drivenByte linesUp 0 s).1 { s with draws := n }) := by
    rw [← e, wePulse, hr, hq]; simp only [Bool.not_true, Bool.false_eq_true, if_false]; rw [hb]
  generalize (drivenByte linesUp 0 s).1 = d at *
  obtain ⟨b, m, hs, hb1, hb2⟩ := strobe_eq s.busAddress d { s with draws := n }
  rw [hs] at hw
  refine ⟨d, b, m, hw, fun p => h2 p (hall p), ?_, fun h => (hb2 h).1, fun ho => ⟨hd ho, fun h => (hb2 h).2.trans (hn ho)⟩⟩
  rcases hb1 with h | h
  · exact .inl (h.trans hb)
  · exact .inr h

/-- DELAY T_SETTLE (R79): it returns, with no write cycle in progress where the delay covers one, or CTRL is held for the
cycle. -/
theorem settle_spec (base : List Frame) (s : State) :
    (settle base s = .ok () (s.back base) ∧ (s.cfg.settleSufficient = true → s.busy = none)) ∨
      (settle base s = .stop { s with seq := .op (.delay .tSettle) 1 :: base } ∧ s.cfg.settleSufficient = true ∧
        ∃ e, s.busy = some e) := by
  unfold settle
  cases hc : s.cfg.settleSufficient <;> cases hb : s.busy <;> simp

/-! ### WRITE -/

/-- A performed WRITE past its pulse, under the three assumption switches, wherever CTRL stands (R85). -/
structure WriteEnd (a : Nat) (v : Byte) (s t : State) : Prop where
  fwd : Fwd s t
  grows : ∃ h, t.hist = s.hist ++ h ∧ t.rx = s.rx ++ received h
  toHost : t.toHost = s.toHost
  rxTimeout : t.rxTimeout = s.rxTimeout
  fsm : t.fsm = s.fsm
  table : t.table = s.table
  calls : t.calls = s.calls
  faults : t.faults = s.faults
  refused : t.refused = s.refused
  ret : t.ret = s.ret
  stage : t.stage = srwWord a false
  q : t.q = srwWord a false
  dir : t.dir = Vector.replicate 8 .out
  dout : t.dout = v
  pinSdata : t.pinSdata = ⟨s.pinSdata.mode, (srwWord a false).getLsbD 0⟩
  pinSclk : t.pinSclk = ⟨s.pinSclk.mode, false⟩
  pinLatch : t.pinLatch = ⟨s.pinLatch.mode, false⟩
  pinWe : t.pinWe = ⟨s.pinWe.mode, true⟩
  ctlReady : t.ctlReady = true
  initDone : t.initDone = s.initDone
  draws : t.draws = s.draws
  pushes : t.pushes = s.pushes + 2
  latches : t.latches = s.latches + 1
  wePulses : t.wePulses = s.wePulses + 1

/-- How a performed WRITE called from `base` stands: it has returned, the cycle over and its byte written, or CTRL is held in
its DELAY T_SETTLE, the cycle in progress. -/
def WriteStands (a : Nat) (v : Byte) (base : List Frame) (s t : State) : Prop :=
  (t.seq = base ∧ t.busy = none ∧ t.cell = Memory.write s.cell a v) ∨
    (t.seq = .op (.delay .tSettle) 1 :: .op (.write a v) 19 :: base ∧ t.busy = some (a, v) ∧ t.cell = s.cell)

theorem writePhase_spec (a : Nat) (v : Byte) (base : List Frame) {s : State} (hr : s.ctlReady = true)
    (hb : s.busy = none) (hwe : s.cfg.wePulseSufficient = true) (hse : s.cfg.settleSufficient = true)
    (hw : s.cfg.addrWidth ≤ 15) (ha : addressInRange s.cfg a = true) :
    ∃ t, (writePhase a v base s).state = t ∧ WriteEnd a v s t ∧ WriteStands a v base s t := by
  simp only [writePhase, WriteStands]
  generalize Instr.write a v = i
  have d := setDirs_spec i base .out linesUp 1 s
  generalize setDirs i base .out 1 linesUp s = s1 at *
  have k := micro_kept i 9 base s1
  have rm := micro_busRun i 9 base s1
  generalize s1.micro i 9 base = m at *
  obtain ⟨s2, e2, p⟩ := presentAddress_spec a false (.op i 9 :: base) (s := m)
    (k.ctlReady.trans (d.ctlReady.trans hr))
  rw [e2]
  simp only [Flow.bind]
  have f := driveByte_spec i base v linesUp 10 s2
  generalize driveByte i base v 10 linesUp s2 = s3 at *
  have k3 := micro_kept i 18 base s3
  have rm3 := micro_busRun i 18 base s3
  generalize s3.micro i 18 base = m3 at *
  have run : BusRun s m3 := ((((d.run.trans rm).trans p.run).trans f.run).trans rm3)
  obtain ⟨hb3, hc3⟩ := run.idle hb
  have hcfg : m3.cfg = s.cfg := run.fwd.cfg
  have hq3 : m3.q = srwWord a false := by rw [k3.q, f.q, p.q]
  have hdir3 : m3.dir = Vector.replicate 8 .out := by rw [k3.dir, f.dir, p.dir, k.dir, d.dir, setAll_dir]
  have hdout3 : m3.dout = v := by rw [k3.dout, f.dout, setAll_up]
  have hlt := (maxAddress_lt hw ha).2
  have hba : m3.busAddress = a := busAddress_of_word false (by rwa [hcfg]) (by rwa [hcfg]) hq3
  obtain ⟨b, bz, n, e4, _, _, hbz, hall⟩ := wePulse_ok (s := m3)
    (by rw [k3.ctlReady, f.ctlReady, p.ctlReady]) (by rw [hq3, srwWord_noe false hlt]; rfl) hb3
  obtain ⟨hbd, hn⟩ := hall hdir3
  rw [hbz (by rw [hcfg]; exact hwe), hn (by rw [hcfg]; exact hwe), hbd, hba] at e4
  obtain ⟨s4, hs4, e4⟩ : ∃ s4, _ ∧ wePulse m3 = .ok () s4 := ⟨_, rfl, e4⟩
  rw [hdout3] at hs4
  have c4 := counters_append (s := m3) (t := s4) [.wePulse a v] (by rw [← hs4])
  rw [e4]
  simp only []
  have h4 : s4 = { m3 with
      pinWe := { m3.pinWe with level := true }, busy := some (a, v), draws := m3.draws,
      hist := m3.hist ++ [.wePulse a v] } := by rw [← hs4, ← hdout3]
  clear hs4
  have om := yield_others s4
  have cm := om.counters
  have fw4 : Fwd m3 s4 := by
    rw [h4]
    exact ⟨rfl, List.prefix_refl _, fun _ h => h, ⟨[.wePulse a v], rfl, ⟨[], by simp [received]⟩, [], by simp, by simp⟩, id, List.suffix_refl _⟩
  have ended : ∀ l, WriteEnd a v s { s4.yield with seq := l } := fun l => {
    fwd := ((run.fwd.trans fw4).trans om.fwd).trans (Fwd.of_same rfl rfl rfl rfl rfl rfl (List.suffix_refl _))
    grows := by
      obtain ⟨h1, e1, x1⟩ := run.grows
      obtain ⟨h2, e2, x2⟩ : ∃ h, s4.hist = m3.hist ++ h ∧ s4.rx = m3.rx ++ received h :=
        ⟨[.wePulse a v], by rw [h4], by rw [h4]; simp [received]⟩
      obtain ⟨h3, e3, _, x3⟩ := om.grows
      refine ⟨h1 ++ h2 ++ h3, ?_, ?_⟩
      · change s4.yield.hist = _
        rw [e3, e2, e1]; simp only [List.append_assoc]
      · change s4.yield.rx = _
        rw [x3, x2, x1]; simp only [received_append, List.append_assoc]
    toHost := by simp only [om.toHost]; rw [h4]; exact run.toHost
    rxTimeout := by simp only [om.rxTimeout]; rw [h4]; exact run.rxTimeout
    fsm := by simp only [om.fsm]; rw [h4]; exact run.fsm
    table := by simp only [om.table]; rw [h4]; exact run.table
    calls := by simp only [om.calls]; rw [h4]; exact run.calls
    faults := by simp only [om.faults]; rw [h4]; exact run.faults
    refused := by simp only [om.refused]; rw [h4]; exact run.refused
    ret := by simp only [om.ret]; rw [h4]; exact run.ret
    stage := by simp only [om.stage]; rw [h4]; simp [k3.stage, f.stage, p.stage]
    q := by simp only [om.q]; rw [h4]; exact hq3
    dir := by simp only [om.dir]; rw [h4]; exact hdir3
    dout := by simp only [om.dout]; rw [h4]; exact hdout3
    pinSdata := by
      simp only [om.pinSdata]; rw [h4]; simp [k3.pinSdata, f.pinSdata, p.pinSdata, k.pinSdata, d.pinSdata]
    pinSclk := by
      simp only [om.pinSclk]; rw [h4]; simp [k3.pinSclk, f.pinSclk, p.pinSclk, k.pinSclk, d.pinSclk]
    pinLatch := by
      simp only [om.pinLatch]; rw [h4]; simp [k3.pinLatch, f.pinLatch, p.pinLatch, k.pinLatch, d.pinLatch]
    pinWe := by simp only [om.pinWe]; rw [h4]; simp [k3.pinWe, f.pinWe, p.pinWe, k.pinWe, d.pinWe]
    ctlReady := by simp only [om.ctlReady]; rw [h4]; simp [k3.ctlReady, f.ctlReady, p.ctlReady]
    initDone := by
      simp only [om.initDone]; rw [h4]; simp [k3.initDone, f.initDone, p.initDone, k.initDone, d.initDone]
    draws := by simp only [om.draws]; rw [h4]; simp [k3.draws, f.draws, p.draws, k.draws, d.draws]
    pushes := by
      change s4.yield.pushes = _
      rw [cm.1, c4.1, k3.pushes, f.pushes, p.pushes, k.pushes, d.pushes]; rfl
    latches := by
      change s4.yield.latches = _
      rw [cm.2.1, c4.2.1, k3.latches, f.latches, p.latches, k.latches, d.latches]; rfl
    wePulses := by
      change s4.yield.wePulses = _
      rw [cm.2.2, c4.2.2, k3.wePulses, f.wePulses, p.wePulses, k.wePulses, d.wePulses]; rfl }
  have hb4 : s4.busy = some (a, v) := by rw [h4]
  have hc4 : s4.cell = s.cell := by rw [h4]; exact hc3
  have hse5 : (s4.micro i 19 base).cfg.settleSufficient = true := by
    have h5 : (s4.micro i 19 base).cfg = s4.cfg := om.cfg
    rw [h5, h4]; change m3.cfg.settleSufficient = true; rw [hcfg]; exact hse
  rcases settle_spec (.op i 19 :: base) (s4.micro i 19 base) with ⟨e5, h5⟩ | ⟨e5, _, e, h5⟩
  · have hby : s4.yield.busy = none := h5 hse5
    rw [e5]
    exact ⟨_, rfl, ended base, .inl ⟨rfl, hby, by rw [← hc4]; exact om.completed hb4 hby⟩⟩
  · rw [e5]
    have hby : s4.yield.busy = some e := h5
    refine ⟨_, rfl, ended _, .inr ⟨rfl, ?_⟩⟩
    rcases om.ee with ⟨b1, c1⟩ | ⟨b1, _⟩
    · exact ⟨b1.trans hb4, c1.trans hc4⟩
    · rw [b1] at hby; cases hby

/-! ### WRITE as a whole -/

/-- WRITE of the byte the idle cell holds: the elision READ, the `Elided` event, nothing else (R85). -/
theorem writeCell_elides (a : Nat) (v : Byte) (base : List Frame) {s : State} (hr : s.ctlReady = true)
    (hb : s.busy = none) (hacc : s.cfg.accessTimeMet = true) (hwe : s.pinWe.level = true)
    (hw : s.cfg.addrWidth ≤ 15) (ha : addressInRange s.cfg a = true) (hv : s.cellByte a = v) :
    ∃ u, ReadEnd a (.op (.write a v) 0 :: base) s u ∧ u.draws = s.draws ∧
      writeCell a v base s = .ok () ((u.emit (.elided a)).back base) := by
  obtain ⟨r, u, e, h, hval⟩ := readCell_spec a (.op (.write a v) 0 :: base) hr
  obtain ⟨h1, h2⟩ := hval hb hacc hwe hw ha
  refine ⟨u, h, h2, ?_⟩
  rw [writeCell, e]
  simp only [Flow.bind]
  rw [h1, hv, elides, beq_self_eq_true, if_pos rfl]

/-- WRITE of another byte under the three switches: the elision READ, then the write phase (R85). -/
theorem writeCell_performs (a : Nat) (v : Byte) (base : List Frame) {s : State} (hr : s.ctlReady = true)
    (hb : s.busy = none) (hsw : SwitchesOn s.cfg) (hwe : s.pinWe.level = true)
    (hw : s.cfg.addrWidth ≤ 15) (ha : addressInRange s.cfg a = true) (hv : s.cellByte a ≠ v) :
    ∃ u t, ReadEnd a (.op (.write a v) 0 :: base) s u ∧ u.draws = s.draws ∧ (writeCell a v base s).state = t ∧
      WriteEnd a v u t ∧ WriteStands a v base u t := by
  obtain ⟨r, u, e, h, hval⟩ := readCell_spec a (.op (.write a v) 0 :: base) hr
  obtain ⟨h1, h2⟩ := hval hb hsw.1 hwe hw ha
  have hcfg : u.cfg = s.cfg := h.run.fwd.cfg
  obtain ⟨t, et, ht⟩ := writePhase_spec a v base (s := u) h.ctlReady (h.run.idle hb).1
    (by rw [hcfg]; exact hsw.2.1) (by rw [hcfg]; exact hsw.2.2) (by rwa [hcfg]) (by rwa [hcfg])
  refine ⟨u, t, h, h2, ?_, ht⟩
  rw [writeCell, e]
  simp only [Flow.bind]
  rw [h1, elides, beq_eq_false_iff_ne.2 hv]
  simpa using et

/-! ### INIT -/

/-- The end of INIT (R81). -/
structure InitEnd (base : List Frame) (s t : State) : Prop where
  run : BusRun s t
  stage : t.stage = 0
  q : t.q = 0
  dir : t.dir = Vector.replicate 8 .inp
  dout : t.dout = s.dout
  pinSdata : t.pinSdata = ⟨.out, false⟩
  pinSclk : t.pinSclk = ⟨.out, false⟩
  pinLatch : t.pinLatch = ⟨.out, false⟩
  pinWe : t.pinWe = ⟨.out, true⟩
  ctlReady : t.ctlReady = true
  initDone : t.initDone = true
  seq : t.seq = base
  draws : t.draws = s.draws
  pushes : t.pushes = s.pushes + 2
  latches : t.latches = s.latches + 1
  wePulses : t.wePulses = s.wePulses

theorem initBus_spec (base : List Frame) (s : State) : ∃ t, initBus base s = .ok () t ∧ InitEnd base s t := by
  simp only [initBus]
  have k := micro_kept .init 0 base s
  have rm := micro_busRun .init 0 base s
  generalize s.micro .init 0 base = m at *
  have ri : BusRun m (initPins m) := BusRun.of_bus [] rfl (by simp only [initPins, List.append_nil])
  have d := setDirs_spec .init base .inp linesUp 1 (initPins m)
  generalize setDirs .init base .inp 1 linesUp (initPins m) = s1 at *
  have k1 := micro_kept .init 9 base s1
  have rm1 := micro_busRun .init 9 base s1
  generalize s1.micro .init 9 base = m1 at *
  obtain ⟨s2, e2, p⟩ := presentAddress_spec 0 true (.op .init 9 :: base) (s := m1)
    (k1.ctlReady.trans (d.ctlReady.trans rfl))
  rw [e2]
  simp only [Flow.bind]
  have hw : srwWord 0 true = 0 := by decide
  rw [hw] at p
  have rb : BusRun s2 { s2.back base with initDone := true } :=
    BusRun.of_bus [] rfl (by simp only [State.back, List.append_nil])
  refine ⟨_, rfl, ?_⟩
  exact {
    run := ((((rm.trans ri).trans d.run).trans rm1).trans p.run).trans rb
    stage := p.stage
    q := p.q
    dir := by simp only [back_dir]; rw [p.dir, k1.dir, d.dir, setAll_dir]
    dout := by simp only [back_dout]; rw [p.dout, k1.dout, d.dout]; exact k.dout
    pinSdata := by simp only [back_pinSdata]; rw [p.pinSdata, k1.pinSdata, d.pinSdata]; rfl
    pinSclk := by simp only [back_pinSclk]; rw [p.pinSclk, k1.pinSclk, d.pinSclk]; rfl
    pinLatch := by simp only [back_pinLatch]; rw [p.pinLatch, k1.pinLatch, d.pinLatch]; rfl
    pinWe := by simp only [back_pinWe]; rw [p.pinWe, k1.pinWe, d.pinWe]; rfl
    ctlReady := p.ctlReady
    initDone := rfl
    seq := rfl
    draws := by simp only [back_draws]; rw [p.draws, k1.draws, d.draws]; exact k.draws
    pushes := by
      change s2.pushes = _
      rw [p.pushes, k1.pushes, d.pushes]; change m.pushes + 2 = _; rw [k.pushes]
    latches := by
      change s2.latches = _
      rw [p.latches, k1.latches, d.latches]; change m.latches + 1 = _; rw [k.latches]
    wePulses := by
      change s2.wePulses = _
      rw [p.wePulses, k1.wePulses, d.wePulses]; change m.wePulses = _; rw [k.wePulses] }

end Sys2Proof.Machine
end

