-- ==== Sys2Proof/Laws/Transport.lean ====
section
/-! SUPPORT. The byte transport's shared operations: one lemma for each that says everything it can do, under every
schedule, and its equation under a quiet one. -/

namespace Sys2Proof.Machine

/-! ### EE's part and the frame of what HOST and EE write -/

theorem EeMeanwhile.refl (s : State) : EeMeanwhile s s := .inl ⟨rfl, rfl⟩

theorem EeMeanwhile.trans {s t u : State} (h1 : EeMeanwhile s t) (h2 : EeMeanwhile t u) : EeMeanwhile s u := by
  rcases h1 with ⟨b1, c1⟩ | ⟨b1, a, d, hb, c1⟩
  · rcases h2 with ⟨b2, c2⟩ | ⟨b2, a, d, hb, c2⟩
    · exact .inl ⟨b2.trans b1, c2.trans c1⟩
    · exact .inr ⟨b2, a, d, b1 ▸ hb, c1 ▸ c2⟩
  · rcases h2 with ⟨b2, c2⟩ | ⟨_, a', d', hb', _⟩
    · exact .inr ⟨b2.trans b1, a, d, hb, c2.trans c1⟩
    · rw [b1] at hb'; cases hb'

/-- With no write cycle in progress EE does nothing. -/
theorem EeMeanwhile.idle {s t : State} (h : EeMeanwhile s t) (hb : s.busy = none) :
    t.busy = none ∧ t.cell = s.cell := by
  rcases h with ⟨b, c⟩ | ⟨_, a, d, hs, _⟩
  · exact ⟨b.trans hb, c⟩
  · rw [hb] at hs; cases hs

theorem OthersOnly.refl (s : State) : OthersOnly s s := ⟨EeMeanwhile.refl s, rfl⟩

theorem OthersOnly.trans {s t u : State} (h1 : OthersOnly s t) (h2 : OthersOnly t u) : OthersOnly s u :=
  ⟨h1.1.trans h2.1, by rw [h2.2, h1.2]⟩

theorem Others.only {s t : State} (h : Others s t) : OthersOnly s t := ⟨h.ee, h.frame⟩

theorem emit_only (e : Event) (s : State) : OthersOnly s (s.emit e) := ⟨EeMeanwhile.refl s, rfl⟩

/-- Taking bytes off `rx` writes nothing else. -/
theorem setRx_only (s : State) (r : List Byte) : OthersOnly s { s with rx := r } := ⟨EeMeanwhile.refl s, rfl⟩

/-- The frame does not read the answer register. -/
theorem OthersOnly.ret {s t : State} (h : OthersOnly s t) (v : Value) :
    OthersOnly { s with ret := v } { t with ret := v } := ⟨h.1, by rw [h.2]⟩

/-- Of the state only the place, what HOST and EE write, the history and the schedule have changed. -/
def RunOnly (s t : State) : Prop := OthersOnly { s with seq := t.seq } t

theorem RunOnly.refl (s : State) : RunOnly s s := OthersOnly.refl s

theorem RunOnly.trans {s t u : State} (h1 : RunOnly s t) (h2 : RunOnly t u) : RunOnly s u :=
  ⟨EeMeanwhile.trans (t := t) h1.1 h2.1, by rw [h2.2]; conv_lhs => rw [h1.2]⟩

theorem OthersOnly.run {s t : State} (h : OthersOnly s t) : RunOnly s t := by
  have hs : t.seq = s.seq := by rw [h.2]
  rw [RunOnly, hs]; exact h

/-- Back at the place it started from. -/
theorem RunOnly.only {s t : State} (h : RunOnly s t) (hs : t.seq = s.seq) : OthersOnly s t := by
  rw [RunOnly, hs] at h; exact h

theorem seq_run (s : State) (l : List Frame) : RunOnly s { s with seq := l } := ⟨EeMeanwhile.refl s, rfl⟩

theorem back_run (base : List Frame) (s : State) : RunOnly s (s.back base) := seq_run s base

theorem micro_run (i : Instr) (k : Nat) (base : List Frame) (s : State) : RunOnly s (s.micro i k base) :=
  (yield_others s).only.run.trans (seq_run _ _)

/-- A piece of an operation called from where CTRL stands, once it is back there. -/
theorem RunOnly.returned {s t : State} (h : RunOnly s t) : OthersOnly s (t.back s.seq) :=
  (h.trans (back_run s.seq t)).only rfl

/-! ### Waiting -/

/-- A wait whose bytes are there returns at once (R92). -/
theorem waitBytes_now {n : Nat} (d : Duration) (base : List Frame) {s : State} (h : n ≤ s.rx.length) :
    waitBytes n d base s = .ok true (s.back base) := by
  simp [waitBytes, waitMet, h]

/-- A wait whose bytes are not there holds CTRL (R92, R7). -/
theorem waitBytes_held {n : Nat} (d : Duration) (base : List Frame) {s : State} (h : s.rx.length < n) :
    waitBytes n d base s = .stop { s with seq := .op (.waitForBytes n d) 1 :: base } := by
  have : ¬ n ≤ s.rx.length := by omega
  simp [waitBytes, waitMet, this]

/-- The first look of a wait changes the place only. -/
theorem waitBytes_seq (n : Nat) (d : Duration) (base : List Frame) (s : State) :
    ∃ l, (waitBytes n d base s).state = { s with seq := l } := by
  unfold waitBytes
  split
  · exact ⟨base, rfl⟩
  · exact ⟨_, rfl⟩

/-- What a later look can do: the wait ends true with the bytes there, ends by timeout with fewer, or holds on (R8, R118). -/
theorem waitAgain_cases (late : Bool) (n : Nat) (base : List Frame) (s : State) :
    (waitAgain late n base s = .ok true (s.back base) ∧ n ≤ s.rx.length) ∨
      (waitAgain late n base s = .ok false ((s.emit (.timeout .waitForBytes)).back base) ∧ late = true ∧
        s.rx.length < n) ∨
      (waitAgain late n base s = .stop s ∧ late = false ∧ s.rx.length < n) := by
  unfold waitAgain waitMet
  by_cases h : n ≤ s.rx.length
  · simp [h]
  · cases late <;> simp [h] <;> omega

/-! ### Popping -/

/-- HOST's events are no writes of CTRL. -/
theorem written_host {h : List Event} (hh : ∀ e ∈ h, hostEvent e = true) : written h = [] := by
  simp only [written, List.filterMap_eq_nil_iff]
  intro e hm
  have := hh e hm
  cases e <;> simp_all [hostEvent]

/-- Popping changes the place, `rx` and what HOST and EE write. -/
theorem rxPop_run (i : Instr) (base : List Frame) (k n : Nat) (s : State) : RunOnly s (rxPop i base k n s).2 := by
  induction n generalizing k s with
  | zero => exact RunOnly.refl s
  | succ n ih =>
    simp only [rxPop]
    split
    · exact micro_run i k base s
    · exact ((micro_run i k base s).trans (setRx_only _ _).run).trans (ih _ _)

/-- Popping `n` bytes that are there gives them in order; what arrives meanwhile joins the rest (R93). -/
theorem rxPop_spec (i : Instr) (base : List Frame) (k n : Nat) {s : State} (h : n ≤ s.rx.length) :
    (rxPop i base k n s).1 = s.rx.take n ∧
      ∃ l, (rxPop i base k n s).2.hist = s.hist ++ l ∧ (∀ e ∈ l, hostEvent e = true) ∧
        (rxPop i base k n s).2.rx = s.rx.drop n ++ received l := by
  induction n generalizing k s with
  | zero => exact ⟨rfl, [], by simp [rxPop], by simp, by simp [rxPop]⟩
  | succ n ih =>
    have o := yield_others s
    obtain ⟨l, hl, he, hx⟩ := o.grows
    simp only [rxPop, State.micro]
    generalize s.yield = y at *
    cases hs : s.rx with
    | nil => simp [hs] at h
    | cons b r =>
      have hy : y.rx = b :: (r ++ received l) := by rw [hx, hs]; rfl
      rw [hy]
      simp only []
      obtain ⟨i1, m, im, ie, ix⟩ := ih (k + 1)
        (s := { y with seq := .op i k :: base, rx := r ++ received l }) (by simp [hs] at h ⊢; omega)
      have hn : n ≤ r.length := by simpa [hs] using h
      refine ⟨?_, l ++ m, ?_, ?_, ?_⟩
      · rw [i1]; simp [List.take_append_of_le_length hn]
      · rw [im, ← List.append_assoc, ← hl]
      · intro e hm
        rcases List.mem_append.1 hm with hm | hm
        · exact he e hm
        · exact ie e hm
      · rw [ix]; simp [List.drop_append_of_le_length hn]

/-- The server's byte: it is taken, and the point before its answer (R111, R112). -/
theorem takeByte_spec (i : Instr) (base : List Frame) {s : State} {b : Byte} {r : List Byte} (h : s.rx = b :: r) :
    ∃ t l, rxPop i base 1 1 s = ([b], t) ∧ RunOnly s (t.micro i 2 base) ∧ Fwd s (t.micro i 2 base) ∧
      (t.micro i 2 base).hist = s.hist ++ l ∧ (t.micro i 2 base).rx = r ++ received l ∧ written l = [] := by
  obtain ⟨p1, l, p2, p3, p4⟩ := rxPop_spec i base 1 1 (s := s) (by simp [h])
  have hr := rxPop_run i base 1 1 s
  have hf := rxPop_fwd i base 1 1 s
  generalize rxPop i base 1 1 s = x at *
  obtain ⟨x, t⟩ := x
  simp only [h, List.take_succ_cons, List.take_zero, List.drop_succ_cons, List.drop_zero] at p1 p2 p4 hr hf
  subst p1
  obtain ⟨m, m1, m2, m3⟩ := (yield_others t).grows
  refine ⟨t, l ++ m, rfl, hr.trans (micro_run i 2 base t), hf.trans (micro_fwd i 2 base t), ?_, ?_, ?_⟩
  · change t.yield.hist = _
    rw [m1, p2, List.append_assoc]
  · change t.yield.rx = _
    rw [m3, p4, received_append, List.append_assoc]
  · rw [written_append, written_host p3, written_host m2]; rfl

/-- The server's byte where no HOST or EE step is due. -/
theorem takeByte_quiet (i : Instr) (base : List Frame) {s : State} {b : Byte} {r : List Byte} (hq : s.Quiet)
    (h : s.rx = b :: r) :
    ∃ t, rxPop i base 1 1 s = ([b], t) ∧ t.micro i 2 base = { s with rx := r, seq := .op i 2 :: base } := by
  obtain ⟨h1, h2⟩ := rxPop_quiet i base 1 1 hq
  generalize rxPop i base 1 1 s = x at *
  obtain ⟨x, t⟩ := x
  have ht := h2 s.seq
  simp only [h, List.take_succ_cons, List.take_zero, List.drop_succ_cons, List.drop_zero] at h1 ht
  subst h1
  have hs : t.sched = [] := by
    have : (t.back s.seq).sched = s.sched := by rw [ht]
    exact this.trans hq
  refine ⟨t, rfl, ?_⟩
  rw [micro_quiet hs]
  have := congrArg (fun u : State => ({ u with seq := .op i 2 :: base } : State)) ht
  simpa [State.back] using this

/-! ### Which operation does it does not matter -/

/-- Popping does the same for every operation and from every place, but for the place. -/
theorem rxPop_base (i j : Instr) (base base' : List Frame) (k k' n : Nat) (s : State) (l q : List Frame) :
    (rxPop j base' k' n { s with seq := l }).1 = (rxPop i base k n s).1 ∧
      (rxPop j base' k' n { s with seq := l }).2.back q = (rxPop i base k n s).2.back q := by
  induction n generalizing k k' s l with
  | zero => exact ⟨rfl, rfl⟩
  | succ n ih =>
    simp only [rxPop, micro_from]
    have hm : s.micro j k' base' = { s.micro i k base with seq := .op j k' :: base' } := rfl
    rw [hm]
    generalize s.micro i k base = m at *
    simp only []
    cases hr : m.rx with
    | nil => exact ⟨rfl, by simp only [State.back, hr]⟩
    | cons b r =>
      obtain ⟨h1, h2⟩ := ih (k + 1) (k' + 1) { m with rx := r } (.op j k' :: base')
      exact ⟨congrArg (b :: ·) h1, h2⟩

theorem txPush_seq (b : Byte) (s : State) (l : List Frame) :
    txPush b { s with seq := l } = { txPush b s with seq := l } := by
  obtain ⟨cfg, stage, q, dir, dout, p1, p2, p3, p4, c, i, rx, th, link, rt, f, tb, sq, cell, busy, fs, rf, hist, cs, ret, sch,
    dr⟩ := s
  cases link with
  | true => rfl
  | false => cases hd : Config.drawBit dr <;> simp [txPush, State.drawn, State.emit, State.drew, hd]

/-- Sending does the same for every operation and from every place, but for the place. -/
theorem txAll_base (i j : Instr) (base base' : List Frame) (k k' : Nat) (bs : List Byte) (s : State)
    (l q : List Frame) :
    (txAll j base' k' bs { s with seq := l }).back q = (txAll i base k bs s).back q := by
  induction bs generalizing k k' s l with
  | nil => rfl
  | cons b bs ih =>
    simp only [txAll, micro_from]
    have hm : s.micro j k' base' = { s.micro i k base with seq := .op j k' :: base' } := rfl
    rw [hm, txPush_seq]
    exact ih _ _ _ _

/-- Two operations that send the same bytes do the same. -/
theorem sendAll_eq (i j : Instr) (l : List Byte) (s : State) : sendAll i l s = sendAll j l s :=
  txAll_base j i s.seq s.seq 0 0 l s s.seq s.seq

/-! ### READ_BUFFER -/

/-- READ_BUFFER after a wait that was met: the n oldest bytes, in order; what arrives meanwhile joins the rest (R93). -/
theorem readAfterWait_full {n : Nat} (base : List Frame) {s : State} (h : n ≤ s.rx.length) :
    ∃ t l, readAfterWait n true base s = (s.rx.take n, t) ∧ t.seq = base ∧ RunOnly s t ∧ t.hist = s.hist ++ l ∧
      (∀ e ∈ l, hostEvent e = true) ∧ t.rx = s.rx.drop n ++ received l := by
  obtain ⟨p1, l, p2, p3, p4⟩ := rxPop_spec (.readBuffer n) base 1 n h
  exact ⟨(rxPop (.readBuffer n) base 1 n s).2.back base, l, by simp only [readAfterWait, if_true, p1], rfl,
    (rxPop_run (.readBuffer n) base 1 n s).trans (back_run _ _), p2, p3, p4⟩

/-- READ_BUFFER after a wait that timed out: the bytes there, then free ones, n in all where fewer are there; a `ShortRead`;
what arrives meanwhile stays in `rx` (R93). -/
theorem readAfterWait_short (n : Nat) (base : List Frame) (s : State) :
    ∃ free t l, readAfterWait n false base s = (s.rx ++ free, t) ∧ free.length = n - s.rx.length ∧
      (∀ (j : Nat) (p : Line), j < n - s.rx.length →
        (free.getD j 0).getLsbD p.val = Config.drawBit (s.draws + 8 * j + p.val)) ∧
      t.seq = base ∧
      RunOnly { s with draws := s.draws + 8 * (n - s.rx.length) } t ∧
      t.hist = s.hist ++ (l ++ [.shortRead .readBuffer s.rx.length n]) ∧ (∀ e ∈ l, hostEvent e = true) ∧
      t.rx = received l := by
  obtain ⟨p1, l, p2, p3, p4⟩ := rxPop_spec (.readBuffer n) base 1 s.rx.length (s := s) (Nat.le_refl _)
  have hr := rxPop_run (.readBuffer n) base 1 s.rx.length s
  simp only [readAfterWait]
  generalize rxPop (.readBuffer n) base 1 s.rx.length s = x at *
  obtain ⟨x, t⟩ := x
  simp only [List.take_length, List.drop_length, List.nil_append] at p1 p2 p4 hr
  subst p1
  have hd : t.draws = s.draws := by rw [hr.2]
  have hbits := drawBytes_bits (n - s.rx.length) (t.emit (.shortRead .readBuffer s.rx.length n))
  obtain ⟨e, hl⟩ := drawBytes_eq (n - s.rx.length) (t.emit (.shortRead .readBuffer s.rx.length n))
  refine ⟨_, _, l, rfl, hl, fun j p hj => ?_, rfl, ?_, ?_, p3, ?_⟩
  · rw [← hd]; exact hbits j hj p
  · simp only [e]
    refine ⟨hr.1, ?_⟩
    simp only [State.back, State.emit, hd]
    conv_lhs => rw [hr.2]
  · simp only [e, back_hist, emit_hist, p2, List.append_assoc]
  · simp only [e, back_rx, emit_rx, p4]

/-- READ_BUFFER n, held in its wait with fewer bytes there, where the wait ends by timeout (R92, R93). -/
theorem readAfterWait_answers {n : Nat} (base q : List Frame) {s : State} (h : s.rx.length < n) :
    ∃ bs t, readAfterWait n false base ((s.turnTaken.emit (.timeout .waitForBytes)).back q) = (bs, t) ∧
      ShortBytes n s bs ∧ ShortEnd n base s t := by
  obtain ⟨free, t, l, e, hl, hb, hs, hr, hh, he, hx⟩ :=
    readAfterWait_short n base ((s.turnTaken.emit (.timeout .waitForBytes)).back q)
  refine ⟨_, t, e, ⟨?_, List.prefix_append _ _, fun j p h1 h2 => ?_⟩, l, he, ?_, hx, hr.1, ?_⟩
  · rw [List.length_append, hl]
    change s.rx.length + (n - s.rx.length) = n
    omega
  · have hj : (List.getD (s.rx ++ free) j 0) = free.getD (j - s.rx.length) 0 := List.getD_append_right _ _ _ _ h1
    change (List.getD (s.rx ++ free) j 0).getLsbD p.val = _
    rw [hj]
    exact hb _ p (by change j - s.rx.length < n - s.rx.length; omega)
  · rw [hh]
    change (s.hist ++ [_]) ++ _ = _
    rw [List.append_assoc]; rfl
  · have h2 := hr.2
    rw [hs] at h2
    exact h2

theorem readAfterWait_fwd (n : Nat) (ok : Bool) (base : List Frame) (s : State) :
    Fwd s (readAfterWait n ok base s).2 := by
  unfold readAfterWait
  split
  · exact (rxPop_fwd _ _ _ _ s).trans (back_fwd _ _)
  · have h := rxPop_fwd (.readBuffer n) base 1 s.rx.length s
    simp only [(drawBytes_eq _ _).1]
    generalize (rxPop (.readBuffer n) base 1 s.rx.length s).2 = t at *
    exact (h.trans (emit_fwd (.shortRead .readBuffer s.rx.length n) t rfl)).trans
      (Fwd.of_same rfl rfl rfl rfl rfl rfl (List.suffix_refl _))

/-- READ_BUFFER's first step: it returns the n oldest bytes, or is held in its wait with fewer there (R93). -/
theorem readBytes_cases (n : Nat) (base : List Frame) (s : State) :
    (n ≤ s.rx.length ∧ ∃ t l, readBytes n base s = .ok (s.rx.take n) t ∧ t.seq = base ∧ RunOnly s t ∧ Fwd s t ∧
        t.hist = s.hist ++ l ∧ (∀ e ∈ l, hostEvent e = true) ∧ t.rx = s.rx.drop n ++ received l) ∨
      (s.rx.length < n ∧ readBytes n base s =
        .stop { s with seq := .op (.waitForBytes n s.rxTimeout) 1 :: .op (.readBuffer n) 0 :: base }) := by
  by_cases h : n ≤ s.rx.length
  · left
    obtain ⟨t, l, e, h1, h2, h3, h4, h5⟩ :=
      readAfterWait_full base (s := s.back (.op (.readBuffer n) 0 :: base)) (n := n) h
    have hf := readAfterWait_fwd n true base (s.back (.op (.readBuffer n) 0 :: base))
    rw [e] at hf
    refine ⟨h, t, l, ?_, h1, (back_run _ s).trans h2, (back_fwd _ s).trans hf, h3, h4, h5⟩
    rw [readBytes, waitBytes_now _ _ h]
    simp only [Flow.bind, e]; rfl
  · right
    have h' : s.rx.length < n := by omega
    refine ⟨h', ?_⟩
    rw [readBytes, waitBytes_held _ _ h']
    rfl

/-! ### Sending -/

/-- What a run of sends leaves: `d` delivered, the place, and everything else as HOST and EE leave it. -/
def SentRun (d : List Byte) (s t : State) : Prop :=
  RunOnly { s with toHost := s.toHost ++ d, draws := t.draws } t

theorem SentRun.trans {d e : List Byte} {s t u : State} (h1 : SentRun d s t) (h2 : SentRun e t u) :
    SentRun (d ++ e) s u := by
  refine ⟨EeMeanwhile.trans (t := t) h1.1 h2.1, ?_⟩
  rw [h2.2, h1.2]
  simp

/-- Between two micro-steps the link stays up, and the schedule only gets shorter. -/
theorem yieldAlong_up (l : List Slot) (s : State) (hl : LinkStays l) (hs : s.link = true) :
    (yieldAlong l s).link = true ∧ LinkStays (yieldAlong l s).sched := by
  induction l generalizing s with
  | nil => exact ⟨hs, hl⟩
  | cons x r ih =>
    have hr : LinkStays r := fun h => hl (List.mem_cons_of_mem _ h)
    cases x with
    | ctrl => exact ⟨hs, hr⟩
    | timeout => exact ⟨hs, hr⟩
    | env e =>
      refine ih _ hr ?_
      cases e with
      | hostSend b =>
        change (hostSend b s).link = true
        simp only [hostSend, hs, if_true]
        split
        · rfl
        · exact hs
      | linkUp => rfl
      | linkDown => exact absurd (List.mem_cons_self ..) hl
      | eeComplete =>
        change (eeComplete s).link = true
        unfold eeComplete
        split <;> exact hs

/-- `TxPush` of bytes in order: one `Tx` event each, whatever HOST does; some of them delivered, in order, and all of them
over a link that stays up (R87). -/
theorem txAll_spec (i : Instr) (base : List Frame) (k : Nat) (l : List Byte) (s : State) :
    ∃ d h, SentRun d s (txAll i base k l s) ∧ (txAll i base k l s).hist = s.hist ++ h ∧ written h = l ∧
      (txAll i base k l s).rx = s.rx ++ received h ∧ d.Sublist l ∧
      (s.link = true → LinkStays s.sched → d = l ∧ (txAll i base k l s).draws = s.draws) := by
  induction l generalizing k s with
  | nil => exact ⟨[], [], ⟨EeMeanwhile.refl s, by simp [txAll]⟩, by simp [txAll], rfl, by simp [txAll], by simp,
      fun _ _ => ⟨rfl, rfl⟩⟩
  | cons b bs ih =>
    have o := yield_others s
    obtain ⟨l, hl, he, hx⟩ := o.grows
    have hw := written_host he
    have up := yieldAlong_up s.sched s
    have rm := micro_run i k base s
    have hd0 : (s.micro i k base).draws = s.draws := o.draws
    simp only [txAll]
    change ∀ (_ : LinkStays s.sched) (_ : s.link = true), (s.micro i k base).link = true ∧
      LinkStays (s.micro i k base).sched at up
    have hl' : (s.micro i k base).hist = s.hist ++ l := hl
    have hx' : (s.micro i k base).rx = s.rx ++ received l := hx
    have ht : (s.micro i k base).toHost = s.toHost := o.toHost
    generalize s.micro i k base = y at *
    obtain ⟨d, n, hp, hd, hu⟩ := txPush_eq b y
    obtain ⟨d', h', r', hh', hw', hx'', hs', hu'⟩ := ih (k + 1) (txPush b y)
    generalize txAll i base (k + 1) bs (txPush b y) = t at *
    have r1 : SentRun d s (txPush b y) := by
      rw [hp]
      exact ⟨rm.1, by simp only [ht]; conv_lhs => rw [rm.2]⟩
    refine ⟨d ++ d', l ++ [.tx b] ++ h', r1.trans r', ?_, ?_, ?_, hd.append hs', ?_⟩
    · rw [hh', hp]; simp [hl']
    · rw [written_append, written_append, hw, hw']; rfl
    · rw [hx'', hp]; simp [hx', received]
    · intro hlk hst
      obtain ⟨u1, u2⟩ := up hst hlk
      obtain ⟨v1, v2⟩ := hu u1
      obtain ⟨w1, w2⟩ := hu' (by rw [hp]; exact u1) (by rw [hp]; exact u2)
      refine ⟨by rw [v1, w1]; rfl, ?_⟩
      rw [w2, hp]; exact v2.trans hd0

end Sys2Proof.Machine
end

