-- ==== Sys2Proof/Laws/BusSafe.lean ====
section
/-! SUPPORT. What every piece of the bus controller keeps from EVERY state, faults and all switch settings included: one
relation (`BusOnly`), and one lemma per piece. -/

namespace Sys2Proof.Machine

/-- Of CTRL's state only the bus, the place, the marks and the history may have changed; the EEPROM array, the write cycle
and the control pins keep what the invariant says of them. -/
structure BusOnly (s t : State) : Prop where
  fwd : Fwd s t
  grows : OnlyArrivals s t
  toHost : t.toHost = s.toHost
  rxTimeout : t.rxTimeout = s.rxTimeout
  fsm : t.fsm = s.fsm
  table : t.table = s.table
  calls : t.calls = s.calls
  refused : t.refused = s.refused
  ret : t.ret = s.ret
  cells : CellsOk s → CellsOk t
  pins : PinsOk s → PinsOk t

theorem BusOnly.refl (s : State) : BusOnly s s :=
  ⟨Fwd.refl s, ⟨[], by simp, by simp⟩, rfl, rfl, rfl, rfl, rfl, rfl, rfl, id, id⟩

theorem BusOnly.trans {s t u : State} (h1 : BusOnly s t) (h2 : BusOnly t u) : BusOnly s u where
  fwd := h1.fwd.trans h2.fwd
  grows := by
    obtain ⟨a, ha, hx⟩ := h1.grows
    obtain ⟨b, hb, hy⟩ := h2.grows
    exact ⟨a ++ b, by rw [hb, ha, List.append_assoc], by rw [hy, hx, received_append, List.append_assoc]⟩
  toHost := h2.toHost.trans h1.toHost
  rxTimeout := h2.rxTimeout.trans h1.rxTimeout
  fsm := h2.fsm.trans h1.fsm
  table := h2.table.trans h1.table
  calls := h2.calls.trans h1.calls
  refused := h2.refused.trans h1.refused
  ret := h2.ret.trans h1.ret
  cells := h2.cells ∘ h1.cells
  pins := h2.pins ∘ h1.pins

/-- A write to an address of the address space keeps the array as the invariant says. -/
theorem cells_write {s t : State} {a : Nat} {d : Byte} (h : CellsOk s) (hb : s.busy = some (a, d))
    (hc : t.cfg = s.cfg) (ht : t.busy = none) (hm : t.cell = Memory.write s.cell a d) : CellsOk t := by
  obtain ⟨h1, h2, h3⟩ := h
  refine ⟨by rw [hm]; exact Memory.write_wf a d h1, ?_, by rw [ht]; simp⟩
  intro e he
  rw [hm] at he
  rw [hc]
  rcases mem_sparsePut he with rfl | he
  · exact h3 _ (by rw [hb]; exact rfl)
  · exact h2 e he

/-- The array and the write cycle as EE leaves them. -/
theorem EeMeanwhile.cellsOk {s t : State} (h : EeMeanwhile s t) (hc : t.cfg = s.cfg) (hs : CellsOk s) : CellsOk t := by
  rcases h with ⟨hb, hm⟩ | ⟨hb, a, d, hs', hm⟩
  · obtain ⟨h1, h2, h3⟩ := hs
    exact ⟨by rw [hm]; exact h1, by rw [hm, hc]; exact h2, by rw [hb, hc]; exact h3⟩
  · exact cells_write hs hs' hc hb hm

/-- The control pins unchanged. -/
theorem pins_same {s t : State} (h1 : t.initDone = s.initDone) (h2 : t.ctlReady = s.ctlReady)
    (h3 : t.pinSdata.mode = s.pinSdata.mode) (h4 : t.pinSclk = s.pinSclk) (h5 : t.pinLatch = s.pinLatch)
    (h6 : t.pinWe = s.pinWe) (h : PinsOk s) : PinsOk t := by
  unfold PinsOk at *
  rw [h1, h2, h3, h4, h5, h6]
  exact h

/-- Steps of HOST and EE. -/
theorem Others.busOnly {s t : State} (h : Others s t) : BusOnly s t where
  fwd := h.fwd
  grows := by obtain ⟨l, hl, _, hx⟩ := h.grows; exact ⟨l, hl, hx⟩
  toHost := h.toHost
  rxTimeout := h.rxTimeout
  fsm := h.fsm
  table := h.table
  calls := h.calls
  refused := h.refused
  ret := h.ret
  cells := EeMeanwhile.cellsOk h.ee h.cfg
  pins := pins_same h.initDone h.ctlReady (by rw [h.pinSdata]) h.pinSclk h.pinLatch h.pinWe

/-- A change of bus registers, the place and the history alone, by events that are neither received nor written bytes. -/
theorem BusOnly.of_bus {s t : State} (e : List Event) (he : received e = []) (hp : PinsOk s → PinsOk t)
    (ht : t = { s with
      stage := t.stage, q := t.q, dir := t.dir, dout := t.dout, pinSdata := t.pinSdata, pinSclk := t.pinSclk,
      pinLatch := t.pinLatch, pinWe := t.pinWe, ctlReady := t.ctlReady, initDone := t.initDone, seq := t.seq,
      draws := t.draws, hist := s.hist ++ e }) : BusOnly s t := by
  have r : BusRun s t := BusRun.of_bus e he ht
  exact ⟨r.fwd, r.grows, r.toHost, r.rxTimeout, r.fsm, r.table, r.calls, r.refused, r.ret,
    EeMeanwhile.cellsOk r.ee r.fwd.cfg, hp⟩

/-- A change of the place alone. -/
theorem seq_busOnly (l : List Frame) (s : State) : BusOnly s { s with seq := l } :=
  BusOnly.of_bus [] rfl (fun h => h) (by simp only [List.append_nil])

theorem back_busOnly (base : List Frame) (s : State) : BusOnly s (s.back base) := seq_busOnly base s

theorem micro_busOnly (i : Instr) (k : Nat) (base : List Frame) (s : State) : BusOnly s (s.micro i k base) :=
  (yield_others s).busOnly.trans (BusOnly.of_bus [] rfl (fun h => h) (by simp only [State.micro, List.append_nil]))

theorem raise_busOnly (i : Instr) (f : Fault) (s : State) : BusOnly s (s.raise i f) :=
  ⟨raise_fwd i f s, ⟨[], by simp, by simp⟩, rfl, rfl, rfl, rfl, rfl, rfl, rfl, fun h => h, fun h => h⟩

/-! ### The primitives -/

theorem push8_busOnly (b : Byte) (s : State) : BusOnly s (push8 b s).state := by
  cases h : s.ctlReady with
  | true =>
    rw [push8_ok b h]
    exact BusOnly.of_bus [.push b] rfl
      (fun hp => ⟨hp.1, fun hc => ⟨(hp.2 h).1, by rw [(hp.2 h).2.1]; rfl, (hp.2 h).2.2⟩⟩) rfl
  | false =>
    have : push8 b s = .stop (s.raise (.push8 b) (.notInitialised (.push8 b))) := by rw [push8, h]; rfl
    rw [this]; exact raise_busOnly _ _ s

theorem latch_busOnly (s : State) : BusOnly s (latch s).state := by
  cases h : s.ctlReady with
  | true =>
    rw [latch_ok h]
    simp only [Flow.state]
    generalize (!s.contention && ({ s with q := s.stage } : State).contention) = c
    refine BusOnly.of_bus ([.latch s.stage] ++ if c then [.contention] else []) (by cases c <;> rfl)
      (fun hp => ⟨hp.1, fun hc => ⟨(hp.2 h).1, (hp.2 h).2.1, by rw [(hp.2 h).2.2.1], (hp.2 h).2.2.2⟩⟩) ?_
    simp only [List.append_assoc]
  | false =>
    have : latch s = .stop (s.raise .latch (.notInitialised .latch)) := by rw [latch, h]; rfl
    rw [this]; exact raise_busOnly _ _ s

theorem dataDir_busOnly (p : Line) (d : Dir) (s : State) : BusOnly s (dataDir p d s) := by
  rw [dataDir_eq]
  generalize (!s.contention && ({ s with dir := s.dir.set p.val d } : State).contention) = c
  exact BusOnly.of_bus (if c then [.contention] else []) (by cases c <;> rfl) (fun h => h) rfl

theorem dataOut_busOnly (p : Line) (x : Bool) (s : State) : BusOnly s (dataOut p x s) :=
  BusOnly.of_bus [] rfl (fun h => h) (by simp only [dataOut, List.append_nil])

theorem dataIn_busOnly (p : Line) (s : State) : BusOnly s (dataIn p s).2 := by
  obtain ⟨n, e⟩ := dataIn_eq p s
  rw [e]
  exact BusOnly.of_bus [] rfl (fun h => h) (by simp only [List.append_nil])

/-- The address a pulse writes is one of the EEPROM's. -/
theorem busAddress_le (s : State) : s.busAddress ≤ maxAddress s.cfg := by
  have h := Nat.two_pow_pos s.cfg.addrWidth
  have := Nat.mod_lt s.q.toNat h
  simp only [State.busAddress, maxAddress]; omega

theorem wePulse_busOnly (s : State) : BusOnly s (wePulse s).state := by
  cases h : s.ctlReady with
  | false =>
    have : wePulse s = .stop (s.raise .wePulse (.notInitialised .wePulse)) := by rw [wePulse, h]; rfl
    rw [this]; exact raise_busOnly _ _ s
  | true =>
    cases hq : s.q.getLsbD 15 with
    | false =>
      have : wePulse s = .stop (s.raise .wePulse (.weWithOeAsserted s.q)) := by rw [wePulse, h, hq]; rfl
      rw [this]; exact raise_busOnly _ _ s
    | true =>
      cases hb : s.busy with
      | some e =>
        obtain ⟨a, d⟩ := e
        have : wePulse s = .stop (s.raise .wePulse (.writeWhileBusy a d s.q)) := by
          rw [wePulse, h, hq]; simp only [hb]; rfl
        rw [this]; exact raise_busOnly _ _ s
      | none =>
        obtain ⟨d, b, n, e, _, hbz, _⟩ := wePulse_ok h hq hb
        obtain ⟨t, ht, e⟩ : ∃ t, _ ∧ wePulse s = .ok () t := ⟨_, rfl, e⟩
        rw [e]
        change BusOnly s t
        have hw : t.pinWe = { s.pinWe with level := true } := by rw [← ht]
        have hs : t.initDone = s.initDone ∧ t.ctlReady = s.ctlReady ∧ t.pinSdata = s.pinSdata ∧
            t.pinSclk = s.pinSclk ∧ t.pinLatch = s.pinLatch := by rw [← ht]; exact ⟨rfl, rfl, rfl, rfl, rfl⟩
        have hc : t.cfg = s.cfg ∧ t.cell = s.cell ∧ t.busy = b := by rw [← ht]; exact ⟨rfl, rfl, rfl⟩
        have hf : Fwd s t := by
          rw [← ht]
          exact ⟨rfl, List.prefix_refl _, fun _ h => h, ⟨[.wePulse s.busAddress d], rfl, ⟨[], by simp [received]⟩,
            [], by simp, by simp⟩, id, List.suffix_refl _⟩
        have hg : OnlyArrivals s t := by rw [← ht]; exact ⟨[.wePulse s.busAddress d], rfl, by simp [received]⟩
        refine ⟨hf, hg, by rw [← ht], by rw [← ht], by rw [← ht], by rw [← ht], by rw [← ht], by rw [← ht],
          by rw [← ht], fun c => ⟨by rw [hc.2.1]; exact c.1, by rw [hc.2.1, hc.1]; exact c.2.1, ?_⟩, fun hp => ?_⟩
        · intro x hx
          rw [hc.2.2] at hx
          rw [hc.1]
          rcases hbz with rfl | rfl
          · simp at hx
          · simp only [Option.mem_def, Option.some.injEq] at hx
            subst hx
            exact busAddress_le s
        · have hwe : t.pinWe = s.pinWe := by rw [hw, (hp.2 h).2.2.2]
          exact pins_same hs.1 hs.2.1 (by rw [hs.2.2.1]) hs.2.2.2.1 hs.2.2.2.2 hwe hp

theorem settle_busOnly (base : List Frame) (s : State) : BusOnly s (settle base s).state := by
  unfold settle
  split
  · exact seq_busOnly _ s
  · exact back_busOnly base s

theorem settleAgain_busOnly (base : List Frame) (s : State) : BusOnly s (settleAgain base s).state := by
  unfold settleAgain
  split
  · exact BusOnly.refl s
  · exact back_busOnly base s

/-! ### Sequences -/

theorem setDirs_busOnly (i : Instr) (base : List Frame) (d : Dir) (l : List Line) (k : Nat) (s : State) :
    BusOnly s (setDirs i base d k l s) := by
  induction l generalizing k s with
  | nil => exact BusOnly.refl s
  | cons p ps ih => exact ((micro_busOnly i k base s).trans (dataDir_busOnly p d _)).trans (ih _ _)

theorem driveByte_busOnly (i : Instr) (base : List Frame) (v : Byte) (l : List Line) (k : Nat) (s : State) :
    BusOnly s (driveByte i base v k l s) := by
  induction l generalizing k s with
  | nil => exact BusOnly.refl s
  | cons p ps ih => exact ((micro_busOnly i k base s).trans (dataOut_busOnly p _ _)).trans (ih _ _)

theorem sampleByte_busOnly (i : Instr) (base : List Frame) (l : List Line) (k : Nat) (r : Byte) (s : State) :
    BusOnly s (sampleByte i base k l r s).2 := by
  induction l generalizing k r s with
  | nil => exact BusOnly.refl s
  | cons p ps ih => exact ((micro_busOnly i k base s).trans (dataIn_busOnly p _)).trans (ih _ _ _)

/-- A piece followed by another. -/
theorem bind_busOnly {α β : Type} {s : State} {x : Flow α} {k : α → State → Flow β} (h : BusOnly s x.state)
    (hk : ∀ a t, BusOnly t (k a t).state) : BusOnly s (x.bind k).state :=
  Flow.bind_keeps (R := BusOnly) BusOnly.trans h hk

theorem presentAddress_busOnly (a : Nat) (oe : Bool) (base : List Frame) (s : State) :
    BusOnly s (presentAddress a oe base s).state := by
  unfold presentAddress
  refine bind_busOnly ((micro_busOnly _ _ _ s).trans (push8_busOnly _ _)) fun _ t => ?_
  refine bind_busOnly ((micro_busOnly _ _ _ t).trans (push8_busOnly _ _)) fun _ u => ?_
  exact bind_busOnly ((micro_busOnly _ _ _ u).trans (latch_busOnly _)) fun _ v => back_busOnly base v

theorem readCell_busOnly (a : Nat) (base : List Frame) (s : State) : BusOnly s (readCell a base s).state := by
  unfold readCell
  refine bind_busOnly (((setDirs_busOnly _ _ _ _ _ s).trans (micro_busOnly _ _ _ _)).trans
    (presentAddress_busOnly _ _ _ _)) fun _ t => ?_
  have h := sampleByte_busOnly (.read a) base linesDown 9 0 t
  generalize sampleByte (.read a) base 9 linesDown 0 t = x at h ⊢
  exact h.trans (back_busOnly base x.2)

theorem writePhase_busOnly (a : Nat) (v : Byte) (base : List Frame) (s : State) :
    BusOnly s (writePhase a v base s).state := by
  unfold writePhase
  refine bind_busOnly (((setDirs_busOnly _ _ _ _ _ s).trans (micro_busOnly _ _ _ _)).trans
    (presentAddress_busOnly _ _ _ _)) fun _ t => ?_
  refine bind_busOnly (((driveByte_busOnly _ _ _ _ _ t).trans (micro_busOnly _ _ _ _)).trans
    (wePulse_busOnly _)) fun _ u => ?_
  exact bind_busOnly ((micro_busOnly _ _ _ u).trans (settle_busOnly _ _)) fun _ w => back_busOnly base w

theorem writeCell_busOnly (a : Nat) (v : Byte) (base : List Frame) (s : State) :
    BusOnly s (writeCell a v base s).state := by
  unfold writeCell
  refine bind_busOnly (readCell_busOnly _ _ s) fun cur t => ?_
  split
  · exact (BusOnly.of_bus (s := t) (t := t.emit (.elided a)) [.elided a] rfl (fun h => h) rfl).trans (back_busOnly base _)
  · exact writePhase_busOnly a v base t

/-- INIT leaves the pins as the invariant says, whatever they were. -/
theorem initBus_busOnly (base : List Frame) (s : State) : BusOnly s (initBus base s).state := by
  obtain ⟨t, e, h⟩ := initBus_spec base s
  rw [e]
  exact ⟨h.run.fwd, h.run.grows, h.run.toHost, h.run.rxTimeout, h.run.fsm, h.run.table, h.run.calls, h.run.refused,
    h.run.ret, EeMeanwhile.cellsOk h.run.ee h.run.fwd.cfg, fun _ => ⟨fun _ => h.ctlReady, fun _ =>
      ⟨by rw [Flow.state, h.pinSdata], h.pinSclk, h.pinLatch, h.pinWe⟩⟩⟩

end Sys2Proof.Machine
end

