-- ==== Sys2Proof/Laws/Server.lean ====
section
/-! SUPPORT. The transport's and the command server's operations from every state: what each keeps (`ServerKeeps`), and what
the server's answers are over a link that is up. -/

namespace Sys2Proof.Machine

/-- Of the state only what the server writes may have changed: the session, the place, the wire, the marks of a stopped
run, and what HOST and EE write. -/
def ServerOnly (s t : State) : Prop :=
  EeMeanwhile s t ∧
    t = { s with
      rx := t.rx, link := t.link, cell := t.cell, busy := t.busy, hist := t.hist, sched := t.sched,
      toHost := t.toHost, draws := t.draws, fsm := t.fsm, seq := t.seq, refused := t.refused }

theorem ServerOnly.trans {s t u : State} (h1 : ServerOnly s t) (h2 : ServerOnly t u) : ServerOnly s u :=
  ⟨h1.1.trans h2.1, by rw [h2.2, h1.2]⟩

/-- Nothing else changed, and the run went forward. -/
structure ServerKeeps (s t : State) : Prop where
  only : ServerOnly s t
  fwd : Fwd s t

theorem ServerKeeps.refl (s : State) : ServerKeeps s s := ⟨⟨EeMeanwhile.refl s, rfl⟩, Fwd.refl s⟩

theorem ServerKeeps.trans {s t u : State} (h1 : ServerKeeps s t) (h2 : ServerKeeps t u) : ServerKeeps s u :=
  ⟨h1.only.trans h2.only, h1.fwd.trans h2.fwd⟩

theorem bind_server {α β : Type} {s : State} {x : Flow α} {k : α → State → Flow β} (h : ServerKeeps s x.state)
    (hk : ∀ a t, ServerKeeps t (k a t).state) : ServerKeeps s (x.bind k).state :=
  Flow.bind_keeps (R := ServerKeeps) ServerKeeps.trans h hk

theorem RunOnly.server {s t : State} (h : RunOnly s t) (hf : Fwd s t) : ServerKeeps s t :=
  ⟨⟨h.1, by rw [h.2]⟩, hf⟩

/-- A change of the session and the place alone. -/
theorem session_server (s : State) (f : Fsm) (l : List Frame) : ServerKeeps s { s with fsm := f, seq := l } :=
  ⟨⟨EeMeanwhile.refl s, rfl⟩, Fwd.of_same rfl rfl rfl rfl rfl rfl (List.suffix_refl _)⟩

theorem back_server (base : List Frame) (s : State) : ServerKeeps s (s.back base) := session_server s s.fsm base

theorem micro_server (i : Instr) (k : Nat) (base : List Frame) (s : State) : ServerKeeps s (s.micro i k base) :=
  (micro_run i k base s).server (micro_fwd i k base s)

theorem emit_server (e : Event) (s : State) (h : received [e] = []) : ServerKeeps s (s.emit e) :=
  (emit_only e s).run.server (emit_fwd e s h)

theorem txPush_server (b : Byte) (s : State) : ServerKeeps s (txPush b s) := by
  obtain ⟨d, n, e, _⟩ := txPush_eq b s
  exact ⟨⟨by rw [e]; exact .inl ⟨rfl, rfl⟩, by rw [e]⟩, txPush_fwd b s⟩

theorem refuse_server (i : Instr) (r : Refusal) (s : State) : ServerKeeps s (s.refuse i r) :=
  ⟨⟨EeMeanwhile.refl s, rfl⟩, refuse_fwd i r s⟩

theorem draws_server (n : Nat) (s : State) : ServerKeeps s { s with draws := n } :=
  ⟨⟨EeMeanwhile.refl s, rfl⟩, Fwd.of_same rfl rfl rfl rfl rfl rfl (List.suffix_refl _)⟩

/-! ### The transport -/

theorem txAll_server (i : Instr) (base : List Frame) (k : Nat) (l : List Byte) (s : State) :
    ServerKeeps s (txAll i base k l s) := by
  induction l generalizing k s with
  | nil => exact ServerKeeps.refl s
  | cons b bs ih => exact ((micro_server i k base s).trans (txPush_server b _)).trans (ih _ _)

theorem sendAll_server (i : Instr) (l : List Byte) (s : State) : ServerKeeps s (sendAll i l s) :=
  (txAll_server i s.seq 0 l s).trans (back_server _ _)

theorem rxPop_server (i : Instr) (base : List Frame) (k n : Nat) (s : State) :
    ServerKeeps s (rxPop i base k n s).2 := (rxPop_run i base k n s).server (rxPop_fwd i base k n s)

theorem waitBytes_server (n : Nat) (d : Duration) (base : List Frame) (s : State) :
    ServerKeeps s (waitBytes n d base s).state := by
  obtain ⟨l, e⟩ := waitBytes_seq n d base s
  rw [e]; exact session_server s s.fsm l

theorem waitAgain_server (late : Bool) (n : Nat) (base : List Frame) (s : State) :
    ServerKeeps s (waitAgain late n base s).state := by
  rcases waitAgain_cases late n base s with ⟨e, _⟩ | ⟨e, _⟩ | ⟨e, _⟩ <;> rw [e]
  · exact back_server base s
  · exact (emit_server (.timeout .waitForBytes) s rfl).trans (back_server base _)
  · exact ServerKeeps.refl s

theorem readAfterWait_server (n : Nat) (ok : Bool) (base : List Frame) (s : State) :
    ServerKeeps s (readAfterWait n ok base s).2 := by
  unfold readAfterWait
  split
  · exact (rxPop_server _ _ _ _ s).trans (back_server _ _)
  · simp only [(drawBytes_eq _ _).1]
    have h := rxPop_server (.readBuffer n) base 1 s.rx.length s
    generalize (rxPop (.readBuffer n) base 1 s.rx.length s).2 = t at *
    exact ((h.trans (emit_server (.shortRead .readBuffer s.rx.length n) t rfl)).trans (draws_server _ _)).trans
      (back_server _ _)

theorem readBytes_server (n : Nat) (base : List Frame) (s : State) : ServerKeeps s (readBytes n base s).state :=
  bind_server (waitBytes_server _ _ _ s) fun ok t => readAfterWait_server n ok base t

/-! ### A byte from the wire -/

theorem handshakeByte_keeps (b : Byte) (s : State) : ServerKeeps s (handshakeByte b s) := by
  unfold handshakeByte
  split
  · exact (txPush_server _ s).trans (session_server _ .connected _)
  · exact txPush_server _ s

theorem dispatchOpcode_keeps (op : Byte) (base : List Frame) (s : State) :
    ServerKeeps s (dispatchOpcode op base s).state := by
  unfold dispatchOpcode
  split
  · split
    · exact (txPush_server _ s).trans (session_server _ (txPush codeAck s).fsm _)
    · exact (back_server base s).trans (refuse_server _ _ _)
  · exact (txPush_server _ s).trans (session_server _ .disconnected _)

theorem connectedByte_keeps (b : Byte) (base : List Frame) (s : State) :
    ServerKeeps s (connectedByte b base s).state := by
  unfold connectedByte
  split
  · exact (txPush_server _ s).trans (session_server _ .disconnected _)
  · exact dispatchOpcode_keeps _ _ s

theorem serverByte_keeps (b : Byte) (base : List Frame) (s : State) : ServerKeeps s (serverByte b base s).state := by
  unfold serverByte
  split
  · exact (handshakeByte_keeps b s).trans (back_server _ _)
  · exact connectedByte_keeps b base s

/-- FIN leaves the session. -/
theorem sendFin_keeps (s : State) : ServerKeeps s (sendFin s) ∧ (sendFin s).fsm = s.fsm := by
  have h := txPush_server codeFin s
  have hf : (txPush codeFin s).fsm = s.fsm := by
    obtain ⟨d, n, e, _⟩ := txPush_eq codeFin s
    rw [e]
  simp only [sendFin]
  generalize txPush codeFin s = t at *
  split
  · exact ⟨h.trans (session_server t t.fsm _), hf⟩
  · exact ⟨h, hf⟩

/-! ### The server's calls -/

theorem handshakeRest_keeps (ok : Bool) (base : List Frame) (s : State) :
    ServerKeeps s (handshakeRest ok base s) := by
  have h := rxPop_server .handshakeAttempt base 1 1 s
  unfold handshakeRest
  split
  · split
    · rename_i b _ t e
      rw [e] at h
      exact ((h.trans (micro_server _ 2 base t)).trans (handshakeByte_keeps b _)).trans (back_server _ _)
    · rename_i t e
      rw [e] at h
      exact h.trans (back_server _ _)
  · exact back_server base s

theorem handshakeAttempt_keeps (base : List Frame) (s : State) : ServerKeeps s (handshakeAttempt base s).state :=
  bind_server (waitBytes_server _ _ _ s) fun ok t => handshakeRest_keeps ok base t

theorem connectedRest_keeps (ok : Bool) (base : List Frame) (s : State) :
    ServerKeeps s (connectedRest ok base s).state := by
  have h := rxPop_server .serveConnected base 1 1 s
  unfold connectedRest
  split
  · split
    · rename_i b _ t e
      rw [e] at h
      exact (h.trans (micro_server _ 2 base t)).trans (connectedByte_keeps b base _)
    · rename_i t e
      rw [e] at h
      exact h.trans (back_server _ _)
  · exact (micro_server _ 1 base s).trans (back_server _ _)

theorem serveConnected_keeps (base : List Frame) (s : State) : ServerKeeps s (serveConnected base s).state :=
  bind_server (waitBytes_server _ _ _ s) fun ok t => connectedRest_keeps ok base t

theorem serveAgain_keeps (base : List Frame) (s : State) : ServerKeeps s (serveAgain base s).state := by
  unfold serveAgain
  split
  · exact back_server base s
  · exact session_server s s.fsm _

theorem serve_keeps (base : List Frame) (s : State) : ServerKeeps s (serve base s).state := by
  unfold serve
  split
  · exact bind_server (handshakeAttempt_keeps _ s) fun _ t => serveAgain_keeps base t
  · exact bind_server (serveConnected_keeps _ s) fun _ t => back_server base t

/-! ### The answer to a byte, under every schedule -/

/-- The server's answer once a byte is taken: one byte written, the session and the place set. -/
theorem answered_of {s m : State} {r : List Byte} {l : List Event} (reply : Byte) (f : Fsm) (q : List Frame)
    (h : RunOnly s m) (hh : m.hist = s.hist ++ l) (hx : m.rx = r ++ received l) (hw : written l = []) :
    Answered reply r f q s { txPush reply m with fsm := f, seq := q } := by
  obtain ⟨d, n, e, hd, _⟩ := txPush_eq reply m
  have ht : m.toHost = s.toHost := by rw [h.2]
  rw [e]
  refine ⟨l ++ [.tx reply], d, ?_, ?_, ?_, hd, h.1, ?_⟩
  · simp only [hh, List.append_assoc]
  · simp only [hx]; simp [received]
  · rw [written_append, hw]; rfl
  · simp only [ht]; conv_lhs => rw [h.2]

theorem handshakeByte_eq (b : Byte) {s : State} (hf : s.fsm = .disconnected) :
    handshakeByte b s = { txPush (if b = 0x73 then 0x61 else 0x72) s with
      fsm := if b = 0x73 then .connected else .disconnected } := by
  by_cases hb : b = 0x73
  · rw [hb]; rfl
  · have hd : decodeDisconnected b = .reject := if_neg hb
    have : (txPush codeRst s).fsm = .disconnected := by
      obtain ⟨d, n, e, _⟩ := txPush_eq codeRst s
      rw [e]; exact hf
    rw [handshakeByte, hd, if_neg hb, if_neg hb]
    simp only [← this]; rfl

/-- HANDSHAKE_ATTEMPT's answer to the oldest byte (R62, R65, R111). -/
theorem handshakeRest_answers {s : State} {b : Byte} {r : List Byte} (h : s.rx = b :: r) (hf : s.fsm = .disconnected)
    (base : List Frame) :
    Answered (if b = 0x73 then 0x61 else 0x72) r (if b = 0x73 then .connected else .disconnected) base s
      (handshakeRest true base s) := by
  obtain ⟨t, l, e, hr, _, hh, hx, hw⟩ := takeByte_spec .handshakeAttempt base h
  have hm : (t.micro .handshakeAttempt 2 base).fsm = .disconnected := by rw [hr.2]; exact hf
  have : handshakeRest true base s = { txPush (if b = 0x73 then 0x61 else 0x72) (t.micro .handshakeAttempt 2 base) with
      fsm := if b = 0x73 then .connected else .disconnected, seq := base } := by
    simp only [handshakeRest, if_true, e, handshakeByte_eq b hm]; rfl
  rw [this]
  exact answered_of _ _ base hr hh hx hw

/-- SERVE_CONNECTED's answer to BYE, a registered opcode and an unknown one (R66, R112). -/
theorem connectedRest_answers {s : State} {b : Byte} {r : List Byte} (h : s.rx = b :: r) (base : List Frame) :
    (b = 0x62 → ∃ t, connectedRest true base s = .ok () t ∧ Answered 0x62 r .disconnected base s t) ∧
    (b ≠ 0x62 → s.tableAt b = none →
      ∃ t, connectedRest true base s = .ok () t ∧ Answered 0x65 r .disconnected base s t) ∧
    (∀ n body, b ≠ 0x62 → s.tableAt b = some n → bodyOf s.cfg n = some body →
      ∃ t, connectedRest true base s = .stop t ∧
        Answered 0x61 r s.fsm (.handler b body 0 [] :: .op .serveConnected 3 :: base) s t) := by
  obtain ⟨t, l, e, hr, _, hh, hx, hw⟩ := takeByte_spec .serveConnected base h
  have htab : ∀ op, (t.micro .serveConnected 2 base).tableAt op = s.tableAt op := by
    intro op; unfold State.tableAt; rw [hr.2]
  have hcfg : (t.micro .serveConnected 2 base).cfg = s.cfg := by rw [hr.2]
  have hfsm : (t.micro .serveConnected 2 base).fsm = s.fsm := by rw [hr.2]
  have e' : connectedRest true base s = connectedByte b base (t.micro .serveConnected 2 base) := by
    simp only [connectedRest, if_true, e]
  have hop : b ≠ 0x62 → connectedByte b base (t.micro .serveConnected 2 base) =
      dispatchOpcode b base (t.micro .serveConnected 2 base) := fun hb => by
    have : decodeConnected b = .opcode b := if_neg hb
    rw [connectedByte, this]
  rw [e']
  refine ⟨fun hb => ?_, fun hb ht => ?_, fun n body hb ht hbd => ?_⟩
  · subst hb
    exact ⟨_, rfl, answered_of _ _ base hr hh hx hw⟩
  · rw [hop hb, dispatchOpcode, htab, ht]
    exact ⟨_, rfl, answered_of _ _ base hr hh hx hw⟩
  · rw [hop hb, dispatchOpcode, htab, ht]
    simp only [hcfg, hbd]
    refine ⟨_, rfl, ?_⟩
    have := answered_of codeAck s.fsm (.handler b body 0 [] :: .op .serveConnected 3 :: base) hr hh hx hw
    have hf : (txPush codeAck (t.micro .serveConnected 2 base)).fsm = s.fsm := by
      obtain ⟨d, k, e2, _⟩ := txPush_eq codeAck (t.micro .serveConnected 2 base)
      rw [e2]; exact hfsm
    rw [← hf] at this ⊢
    exact this

/-! ### Over a link that is up -/

/-- One byte over a link that is up. -/
theorem txPush_up (b : Byte) {s : State} (h : s.link = true) : txPush b s = sent [b] s := by
  simp [txPush, h, sent, State.emit]

/-- The handshake's answer: ACK and CONNECTED for SYN, RST for every other byte (R111). -/
theorem handshakeByte_up (b : Byte) {s : State} (h : s.link = true) (hf : s.fsm = .disconnected) :
    handshakeByte b s = sent [if b = 0x73 then 0x61 else 0x72]
      { s with fsm := if b = 0x73 then .connected else .disconnected } := by
  rw [handshakeByte_eq b hf, txPush_up _ h]; rfl

/-- FIN over a link that is up: the handler's frame goes. -/
theorem sendFin_up {s : State} (h : s.link = true) {op : Byte} {body : Handler} {pc : Nat}
    {vars : List (Nat × Value)} {base : List Frame} (hs : s.seq = .handler op body pc vars :: base) :
    sendFin s = sent [0x66] { s with seq := base } := by
  simp only [sendFin, txPush_up _ h, sent, hs]; rfl

end Sys2Proof.Machine
end

