-- ==== Sys2Proof/Laws/Exec.lean ====
section
/-! SUPPORT. What every operation keeps from every state: one relation (`Keeps`) and one lemma over all constructors. -/

namespace Sys2Proof.Machine

/-- The run went forward, and the EEPROM array, the control pins and the handler table keep what the invariant says. -/
structure Keeps (s t : State) : Prop where
  fwd : Fwd s t
  cells : CellsOk s → CellsOk t
  pins : PinsOk s → PinsOk t
  table : TableOk s → TableOk t

theorem Keeps.refl (s : State) : Keeps s s := ⟨Fwd.refl s, id, id, id⟩

theorem Keeps.trans {s t u : State} (h1 : Keeps s t) (h2 : Keeps t u) : Keeps s u :=
  ⟨h1.fwd.trans h2.fwd, h2.cells ∘ h1.cells, h2.pins ∘ h1.pins, h2.table ∘ h1.table⟩

/-- The same table under the same configuration. -/
theorem table_same {s t : State} (hc : t.cfg = s.cfg) (ht : t.table = s.table) (h : TableOk s) : TableOk t := by
  unfold TableOk at *
  rw [hc, ht]
  exact h

theorem BusOnly.keeps {s t : State} (h : BusOnly s t) : Keeps s t :=
  ⟨h.fwd, h.cells, h.pins, table_same h.fwd.cfg h.table⟩

theorem ServerKeeps.keeps {s t : State} (h : ServerKeeps s t) : Keeps s t :=
  have e := h.only.2
  ⟨h.fwd, EeMeanwhile.cellsOk h.only.1 h.fwd.cfg,
    pins_same (by rw [e]) (by rw [e]) (by rw [e]) (by rw [e]) (by rw [e]) (by rw [e]),
    table_same h.fwd.cfg (by rw [e])⟩

/-- The place in the program and the schedule, of which some may be used up, are none of what the invariant reads. -/
theorem place_keeps (s : State) (l : List Frame) (c : List Instr) {m : List Slot} (h : m <:+ s.sched) :
    Keeps s { s with seq := l, calls := c, sched := m } :=
  ⟨Fwd.of_same rfl rfl rfl rfl rfl rfl h, id, id, id⟩

/-- Only the answer changes. -/
theorem ret_keeps (s : State) (v : Value) : Keeps s { s with ret := v } :=
  ⟨Fwd.of_same rfl rfl rfl rfl rfl rfl (List.suffix_refl _), id, id, id⟩

theorem raise_keeps (i : Instr) (f : Fault) (s : State) : Keeps s (s.raise i f) := (raise_busOnly i f s).keeps

theorem refuse_keeps (i : Instr) (r : Refusal) (s : State) : Keeps s (s.refuse i r) :=
  (refuse_server i r s).keeps

/-- A registration the server accepts keeps the table as the invariant says. -/
theorem register_keeps {op : Byte} {h : HandlerName} {s : State} (hr : reservedOpcode s.cfg op = false)
    (hb : (bodyOf s.cfg h).isSome = true) : Keeps s { s with table := sparsePut s.table op.toNat h } where
  fwd := Fwd.of_same rfl rfl rfl rfl rfl rfl (List.suffix_refl _)
  cells := id
  pins := id
  table := fun ⟨h1, h2⟩ => by
    refine ⟨sparsePut_wf _ _ h1, fun e he => ?_⟩
    rcases mem_sparsePut he with rfl | he
    · exact ⟨op.isLt, by simpa using hr, hb⟩
    · exact h2 e he

theorem unlessHandler_keeps {i : Instr} {s : State} {k : Host.Outcome State Fault Refusal}
    (h : ∃ t, k = .next t ∧ Keeps s t) : ∃ t, unlessHandler i s k = .next t ∧ Keeps s t := by
  unfold unlessHandler
  split
  · exact ⟨_, rfl, refuse_keeps _ _ _⟩
  · exact h

theorem finish_keeps {α : Type} {s : State} {x : Flow α} {k : α → State → State} (h : Keeps s x.state)
    (hk : ∀ a t, Keeps t (k a t)) : ∃ t, x.finish k = .next t ∧ Keeps s t := by
  cases x with
  | ok a t => exact ⟨_, rfl, h.trans (hk a t)⟩
  | stop t => exact ⟨_, rfl, h⟩

/-- An operation called from where CTRL stands, which answers a value once it has returned. -/
theorem finish_server {α : Type} {s : State} {x : Flow α} {k : α → State → State} (h : ServerKeeps s x.state)
    (hk : ∀ a t, Keeps t (k a t)) : ∃ t, x.finish k = .next t ∧ Keeps s t := finish_keeps h.keeps hk

theorem printText_keeps (i : Instr) (text : List Byte) (s : State) : Keeps s (printText i text s) := by
  unfold printText
  split
  · exact raise_keeps _ _ _
  · exact (sendAll_server _ _ s).keeps

theorem readInt_keeps (i : Instr) (m : Nat) (s : State) : ∃ t, readInt i m s = .next t ∧ Keeps s t :=
  finish_server (readBytes_server m _ s) fun _ t => (back_server s.seq t).keeps.trans (ret_keeps _ _)

theorem applyEnv_keeps (e : Env) (s : State) : Keeps s (applyEnv e s) :=
  ((applyEnv_others e s).only.run.server (applyEnv_others e s).fwd).keeps

theorem busGuarded_keeps {i : Instr} {a : Nat} {s : State} {o : Host.Outcome State Fault Refusal}
    (h : ∃ t, o = .next t ∧ Keeps s t) :
    ∃ t, (match busGuard i a s with
      | some f => Host.Outcome.next (s.raise i f)
      | none => o) = .next t ∧ Keeps s t := by
  split
  · exact ⟨_, rfl, raise_keeps _ _ _⟩
  · exact h

/-- Every operation answers a next state, and it keeps the run going forward and the invariant's parts. -/
theorem exec_keeps (i : Instr) (s : State) : ∃ t, exec i s = .next t ∧ Keeps s t := by
  cases i with
  | push8 b => exact unlessHandler_keeps (finish_keeps (push8_busOnly b s).keeps fun _ t => Keeps.refl t)
  | latch => exact unlessHandler_keeps (finish_keeps (latch_busOnly s).keeps fun _ t => Keeps.refl t)
  | dataDir p d =>
    refine unlessHandler_keeps ?_
    split
    · exact ⟨_, rfl, (dataDir_busOnly _ d s).keeps⟩
    · exact ⟨_, rfl, refuse_keeps _ _ _⟩
  | dataOut p x =>
    refine unlessHandler_keeps ?_
    split
    · exact ⟨_, rfl, (dataOut_busOnly _ x s).keeps⟩
    · exact ⟨_, rfl, refuse_keeps _ _ _⟩
  | dataIn p =>
    refine unlessHandler_keeps ?_
    split
    · exact ⟨_, rfl, (dataIn_busOnly _ s).keeps.trans (ret_keeps _ _)⟩
    · exact ⟨_, rfl, refuse_keeps _ _ _⟩
  | wePulse => exact unlessHandler_keeps (finish_keeps (wePulse_busOnly s).keeps fun _ t => Keeps.refl t)
  | delay t =>
    refine unlessHandler_keeps ?_
    split
    · exact finish_keeps (settle_busOnly _ s).keeps fun _ t => Keeps.refl t
    · exact ⟨_, rfl, Keeps.refl s⟩
    · exact ⟨_, rfl, refuse_keeps _ _ _⟩
  | init => exact unlessHandler_keeps (finish_keeps (initBus_busOnly _ s).keeps fun _ t => Keeps.refl t)
  | setAddress a oe =>
    exact unlessHandler_keeps (busGuarded_keeps
      (finish_keeps (presentAddress_busOnly a oe _ s).keeps fun _ t => Keeps.refl t))
  | read a => exact busGuarded_keeps (finish_keeps (readCell_busOnly a _ s).keeps fun _ t => ret_keeps t _)
  | write a v => exact busGuarded_keeps (finish_keeps (writeCell_busOnly a v _ s).keeps fun _ t => Keeps.refl t)
  | isConnected => exact ⟨_, rfl, ret_keeps _ _⟩
  | setRxTimeout t => exact ⟨_, rfl, ⟨Fwd.of_same rfl rfl rfl rfl rfl rfl (List.suffix_refl _), id, id, id⟩⟩
  | available => exact ⟨_, rfl, ret_keeps _ _⟩
  | waitForBytes n t => exact finish_server (waitBytes_server n t _ s) fun _ u => ret_keeps u _
  | readBuffer n => exact finish_server (readBytes_server n _ s) fun _ t => ret_keeps t _
  | readI8 => exact readInt_keeps .readI8 1 s
  | readI16 => exact readInt_keeps .readI16 2 s
  | readI32 => exact readInt_keeps .readI32 4 s
  | writeBuffer buf => exact ⟨_, rfl, (sendAll_server _ _ s).keeps⟩
  | writeI8 x => exact ⟨_, rfl, (sendAll_server _ _ s).keeps⟩
  | writeI16 x => exact ⟨_, rfl, (sendAll_server _ _ s).keeps⟩
  | writeI32 x => exact ⟨_, rfl, (sendAll_server _ _ s).keeps⟩
  | print text => exact ⟨_, rfl, printText_keeps _ _ s⟩
  | println text => exact ⟨_, rfl, printText_keeps _ _ s⟩
  | registerHandler op h =>
    refine unlessHandler_keeps ?_
    split
    · exact ⟨_, rfl, raise_keeps _ _ _⟩
    · rename_i hr
      split
      · rename_i hb
        exact ⟨_, rfl, register_keeps (by simpa using hr) hb⟩
      · exact ⟨_, rfl, refuse_keeps _ _ _⟩
  | serve => exact unlessHandler_keeps (finish_server (serve_keeps _ s) fun _ t => Keeps.refl t)
  | handshakeAttempt => exact unlessHandler_keeps (finish_server (handshakeAttempt_keeps _ s) fun _ t => Keeps.refl t)
  | serveConnected => exact unlessHandler_keeps (finish_server (serveConnected_keeps _ s) fun _ t => Keeps.refl t)
  | syn => exact unlessHandler_keeps (finish_server (serverByte_keeps _ _ s) fun _ t => Keeps.refl t)
  | ack => exact unlessHandler_keeps ⟨_, rfl, (txPush_server _ s).keeps⟩
  | err => exact unlessHandler_keeps ⟨_, rfl, (txPush_server _ s).keeps⟩
  | rst => exact unlessHandler_keeps ⟨_, rfl, (txPush_server _ s).keeps⟩
  | fin => exact ⟨_, rfl, (sendFin_keeps s).1.keeps⟩
  | bye => exact unlessHandler_keeps (finish_server (serverByte_keeps _ _ s) fun _ t => Keeps.refl t)
  | request op => exact unlessHandler_keeps (finish_server (serverByte_keeps _ _ s) fun _ t => Keeps.refl t)
  | hostSend b => exact ⟨_, rfl, applyEnv_keeps (.hostSend b) s⟩
  | hostLinkUp => exact ⟨_, rfl, applyEnv_keeps .linkUp s⟩
  | hostLinkDown => exact ⟨_, rfl, applyEnv_keeps .linkDown s⟩
  | eeComplete => exact ⟨_, rfl, applyEnv_keeps .eeComplete s⟩

end Sys2Proof.Machine
end

