-- ==== Sys2Proof/Laws/Frames.lean ====
section
/-! SUPPORT. Who writes what: what the transport's and the server's operations leave alone from every state, how to take an
outcome apart by its cases, and what the sequencer's own turns keep. -/

namespace Sys2Proof.Machine

/-! ### Taking an outcome apart -/

theorem unlessHandler_elim {i : Instr} {s t : State} {k : Host.Outcome State Fault Refusal} {P : State → Prop}
    (hr : ∀ r, P (s.refuse i r)) (hk : k = .next t → P t) (h : unlessHandler i s k = .next t) : P t := by
  unfold unlessHandler at h
  split at h
  · cases h; exact hr _
  · exact hk h

theorem finish_elim {α : Type} {t : State} {x : Flow α} {k : α → State → State} {P : State → Prop} (h : P x.state)
    (hk : ∀ a t, P t → P (k a t)) (e : x.finish k = .next t) : P t := by
  cases x with
  | ok a u => cases e; exact hk a u h
  | stop u => cases e; exact h

theorem busGuard_elim {i : Instr} {a : Nat} {s t : State} {o : Host.Outcome State Fault Refusal} {P : State → Prop}
    (hr : ∀ f, P (s.raise i f)) (hk : o = .next t → P t)
    (h : (match busGuard i a s with
      | some f => Host.Outcome.next (s.raise i f)
      | none => o) = .next t) : P t := by
  split at h
  · cases h; exact hr _
  · exact hk h

/-! ### The transport's operations -/

/-- The bus, the table, the session and the receive timeout are the same. -/
structure WireOnly (s t : State) : Prop where
  table : t.table = s.table
  rxTimeout : t.rxTimeout = s.rxTimeout
  fsm : t.fsm = s.fsm
  bus : SameBus s t

theorem SameBus.refl (s : State) : SameBus s s := ⟨rfl, rfl, rfl, rfl, rfl, rfl, rfl, rfl, rfl, rfl⟩

theorem SameBus.trans {s t u : State} (h1 : SameBus s t) (h2 : SameBus t u) : SameBus s u := by
  obtain ⟨a1, a2, a3, a4, a5, a6, a7, a8, a9, a10⟩ := h1
  obtain ⟨b1, b2, b3, b4, b5, b6, b7, b8, b9, b10⟩ := h2
  exact ⟨b1.trans a1, b2.trans a2, b3.trans a3, b4.trans a4, b5.trans a5, b6.trans a6, b7.trans a7, b8.trans a8,
    b9.trans a9, b10.trans a10⟩

theorem ServerKeeps.sameBus {s t : State} (h : ServerKeeps s t) : SameBus s t := by
  rw [h.only.2]; exact ⟨rfl, rfl, rfl, rfl, rfl, rfl, rfl, rfl, rfl, rfl⟩

theorem WireOnly.refl (s : State) : WireOnly s s := ⟨rfl, rfl, rfl, SameBus.refl s⟩

theorem WireOnly.trans {s t u : State} (h1 : WireOnly s t) (h2 : WireOnly t u) : WireOnly s u :=
  ⟨h2.table.trans h1.table, h2.rxTimeout.trans h1.rxTimeout, h2.fsm.trans h1.fsm, h1.bus.trans h2.bus⟩

theorem RunOnly.wireOnly {s t : State} (h : RunOnly s t) : WireOnly s t := by
  rw [h.2]; exact ⟨rfl, rfl, rfl, rfl, rfl, rfl, rfl, rfl, rfl, rfl, rfl, rfl, rfl⟩

theorem txPush_wireOnly (b : Byte) (s : State) : WireOnly s (txPush b s) := by
  obtain ⟨d, n, e, _⟩ := txPush_eq b s
  rw [e]; exact ⟨rfl, rfl, rfl, rfl, rfl, rfl, rfl, rfl, rfl, rfl, rfl, rfl, rfl⟩

theorem txAll_wireOnly (i : Instr) (base : List Frame) (k : Nat) (l : List Byte) (s : State) :
    WireOnly s (txAll i base k l s) := by
  induction l generalizing k s with
  | nil => exact WireOnly.refl s
  | cons b bs ih => exact ((micro_run i k base s).wireOnly.trans (txPush_wireOnly b _)).trans (ih _ _)

theorem sendAll_wireOnly (i : Instr) (l : List Byte) (s : State) : WireOnly s (sendAll i l s) :=
  (txAll_wireOnly i s.seq 0 l s).trans (back_run _ _).wireOnly

theorem readBytes_wireOnly (n : Nat) (base : List Frame) (s : State) : WireOnly s (readBytes n base s).state := by
  rcases readBytes_cases n base s with ⟨_, t, l, e, _, h, _⟩ | ⟨_, e⟩ <;> rw [e]
  · exact h.wireOnly
  · exact (seq_run s _).wireOnly

theorem printText_wireOnly (i : Instr) (l : List Byte) (s : State) : WireOnly s (printText i l s) := by
  unfold printText
  split
  · exact ⟨rfl, rfl, rfl, rfl, rfl, rfl, rfl, rfl, rfl, rfl, rfl, rfl, rfl⟩
  · exact sendAll_wireOnly _ _ _

/-! ### The sequencer: whose turn it is -/

/-- CTRL's turn, from every schedule that gives it one. -/
theorem nextTurn_ctrl {s : State} (h : CtrlTurn s) : nextTurn s = ctrlOrStop s.mayTimeOut s.turnTaken := by
  obtain ⟨h1, h2⟩ := h
  unfold nextTurn State.mayTimeOut State.turnTaken
  cases hs : s.sched with
  | nil => simp only [List.tail_nil, quiet_eta hs]; rw [h2 hs]; rfl
  | cons x r =>
    cases x with
    | ctrl => rfl
    | timeout => rfl
    | env e => exact absurd hs (h1 e r)

/-- CTRL that has not stopped goes on. -/
theorem ctrlOrStop_running {s : State} (h : s.Running) (late : Bool) : ctrlOrStop late s = ctrlTurn late s := by
  unfold ctrlOrStop
  rw [h.1, h.2]

/-- HOST and EE move at no turn of CTRL's. -/
theorem ctrlOrStop_noEnv (late : Bool) (s : State) (i : Instr) (t : State) : ctrlOrStop late s ≠ .env i t := by
  unfold ctrlOrStop ctrlTurn handlerTurn
  repeat' split
  all_goals simp

/-- At the schedule's end EE completes the write cycle in progress (R80). -/
theorem step_eeLast {s : State} (h : s.sched = []) (hb : s.busy ≠ none) : step s = exec .eeComplete s := by
  rw [step, nextTurn, h, if_pos (Option.isSome_iff_ne_none.2 hb)]

/-- A step is CTRL's turn. -/
theorem step_own {s t : State} (hr : s.Running) (hc : CtrlTurn s) (h : ctrlTurn s.mayTimeOut s.turnTaken = .own t) :
    step s = .next t := by
  rw [step, nextTurn_ctrl hc, ctrlOrStop_running (s := s.turnTaken) hr, h]

theorem step_run {s u : State} {i : Instr} {base : List Frame} (hr : s.Running) (hc : CtrlTurn s)
    (h : ctrlTurn s.mayTimeOut s.turnTaken = .run i base u) :
    step s = afterOutcome base (exec i { u with ret := .none }) := by
  rw [step, nextTurn_ctrl hc, ctrlOrStop_running (s := s.turnTaken) hr, h]

/-- A held wait's turn (R8, R92, R118). -/
theorem step_wait {s : State} {n : Nat} {d : Duration} {base : List Frame} (hr : s.Running) (hc : CtrlTurn s)
    (hs : s.seq = waitFrame n d :: base) :
    step s = .next (afterLook base (waitAgain s.mayTimeOut n base s.turnTaken) .bool) := by
  refine step_own hr hc ?_
  unfold ctrlTurn
  rw [show s.turnTaken.seq = waitFrame n d :: base from hs]

/-- A turn of CTRL's in DELAY T_SETTLE held for the write cycle (R79). -/
theorem step_settle {s : State} {base : List Frame} (hr : s.Running) (hc : CtrlTurn s)
    (hs : s.seq = .op (.delay .tSettle) 1 :: base) :
    step s = .next (afterLook base (settleAgain base s.turnTaken) fun _ => .none) := by
  refine step_own hr hc ?_
  unfold ctrlTurn
  rw [show s.turnTaken.seq = .op (.delay .tSettle) 1 :: base from hs]

/-- What follows an operation that has returned. -/
theorem afterRun_returned {base : List Frame} {t : State} (h : t.Running) (hs : t.seq = base) :
    afterRun base t = returnTo base t.ret { t with ret := .none } := by
  simp [afterRun, State.stopped, h.1, h.2, hs]

/-- What follows an operation that has not returned, or at which CTRL stopped. -/
theorem afterRun_stays {base : List Frame} {t : State} (h : t.seq ≠ base) : afterRun base t = { t with ret := .none } := by
  simp [afterRun, h]

/-! ### What the sequencer keeps -/

theorem goOn_keeps (i : Instr) (k : Nat) (v : Value) (base : List Frame) (s : State) :
    Keeps s (goOn i k v base s).state := by
  unfold goOn
  split
  · rename_i n ok
    exact (readAfterWait_server n ok base s).keeps
  · exact (back_server base s).keeps
  · exact (back_server base s).keeps
  · exact (back_server base s).keeps
  · exact (handshakeRest_keeps _ base s).keeps
  · exact (bind_server (k := fun _ t => .ok Value.none t) (connectedRest_keeps _ base s) fun _ t => ServerKeeps.refl t).keeps
  · split
    · exact (bind_server (k := fun _ t => .ok Value.none t) (serveAgain_keeps base s) fun _ t => ServerKeeps.refl t).keeps
    · exact (back_server base s).keeps
  · exact (back_server base s).keeps

theorem returnTo_keeps (l : List Frame) (v : Value) (s : State) : Keeps s (returnTo l v s) := by
  induction l generalizing v s with
  | nil => exact (back_server [] s).keeps
  | cons f base ih =>
    cases f with
    | handler op body pc vars => exact place_keeps s _ s.calls (List.suffix_refl _)
    | op i k =>
      have h := goOn_keeps i k v base s
      simp only [returnTo]
      generalize goOn i k v base s = x at *
      cases x with
      | ok w t => exact Keeps.trans h (ih w t)
      | stop t => exact h

theorem afterLook_keeps {α : Type} {base : List Frame} {s : State} {x : Flow α} (v : α → Value)
    (h : Keeps s x.state) : Keeps s (afterLook base x v) := by
  cases x with
  | ok a t => exact Keeps.trans h (returnTo_keeps base (v a) t)
  | stop t => exact h

theorem afterRun_keeps (base : List Frame) (t : State) : Keeps t (afterRun base t) := by
  unfold afterRun
  simp only []
  split
  · exact (ret_keeps t .none).trans (returnTo_keeps _ _ _)
  · exact ret_keeps t .none

/-- A running handler's turn runs an operation, or computes and keeps all. -/
theorem handlerTurn_cases (op : Byte) (body : Handler) (pc : Nat) (vars : List (Nat × Value)) (base : List Frame)
    (s : State) :
    (∃ i l, handlerTurn op body pc vars base s = .run i l s) ∨
      ∃ t, handlerTurn op body pc vars base s = .own t ∧ Keeps s t := by
  unfold handlerTurn
  split
  · exact .inl ⟨_, _, rfl⟩
  · exact .inl ⟨_, _, rfl⟩
  · split
    · exact .inl ⟨_, _, rfl⟩
    · exact .inr ⟨_, rfl, ⟨rfl, List.prefix_refl _, fun r h => by simp [h],
        ⟨[], by simp, ⟨[], by simp⟩, [], by simp, by simp⟩, id, List.suffix_refl _⟩, id, id, id⟩
  · exact .inr ⟨_, rfl, place_keeps s _ s.calls (List.suffix_refl _)⟩
  · exact .inr ⟨_, rfl, place_keeps s _ s.calls (List.suffix_refl _)⟩

/-- What CTRL's turn runs, it runs in a state that keeps all; a turn of its own keeps all. -/
theorem ctrlTurn_keeps (late : Bool) (s : State) :
    (∀ i l u, ctrlTurn late s = .run i l u → Keeps s u) ∧ ∀ t, ctrlTurn late s = .own t → Keeps s t := by
  unfold ctrlTurn
  split
  · split
    · exact ⟨fun _ _ _ h => by cases h; exact place_keeps s s.seq _ (List.suffix_refl _), by simp⟩
    · exact ⟨fun _ _ _ h => by cases h; exact Keeps.refl s, by simp⟩
  · rename_i op body pc vars base _
    rcases handlerTurn_cases op body pc vars base s with ⟨i, l, e⟩ | ⟨u, e, k⟩ <;> rw [e]
    · exact ⟨fun _ _ _ h => by cases h; exact Keeps.refl s, by simp⟩
    · exact ⟨by simp, fun _ h => by cases h; exact k⟩
  · exact ⟨by simp, fun _ h => by cases h; exact afterLook_keeps _ (waitAgain_server _ _ _ s).keeps⟩
  · exact ⟨by simp, fun _ h => by cases h; exact afterLook_keeps _ (settleAgain_busOnly _ s).keeps⟩
  · exact ⟨fun _ _ _ h => by cases h; exact place_keeps s _ s.calls (List.suffix_refl _), by simp⟩

theorem ctrlOrStop_keeps (late : Bool) (s : State) :
    (∀ i l u, ctrlOrStop late s = .run i l u → Keeps s u) ∧ ∀ t, ctrlOrStop late s = .own t → Keeps s t := by
  unfold ctrlOrStop
  split
  · simp
  · split
    · simp
    · exact ctrlTurn_keeps late s

/-- A step uses up the schedule: the head goes, and what an operation passes between its micro-steps. -/
theorem step_sched {s t : State} (h : step s = .next t) : t.sched <:+ s.sched.tail := by
  have hc : ∀ late u, u.sched = s.sched.tail →
      (match ctrlOrStop late u with
      | .env i v => exec i v
      | .run i base v => afterOutcome base (exec i { v with ret := .none })
      | .own v => .next v
      | .fault f => .fault f
      | .refused r => .refused r) = Host.Outcome.next t → t.sched <:+ s.sched.tail := by
    intro late u hu h
    rw [← hu]
    obtain ⟨k1, k2⟩ := ctrlOrStop_keeps late u
    have k3 := ctrlOrStop_noEnv late u
    generalize ctrlOrStop late u = x at *
    cases x with
    | env i v => exact absurd rfl (k3 i v)
    | run i base v =>
      obtain ⟨w, e, k⟩ := exec_keeps i { v with ret := .none }
      simp only [e, afterOutcome, Host.Outcome.next.injEq] at h
      rw [← h]
      exact ((((k1 i base v rfl).trans (ret_keeps v .none)).trans k).trans (afterRun_keeps base w)).fwd.sched
    | own v => simp only [Host.Outcome.next.injEq] at h; rw [← h]; exact (k2 v rfl).fwd.sched
    | fault f => cases h
    | refused r => cases h
  have he : ∀ i u, u.sched = s.sched.tail → exec i u = Host.Outcome.next t → t.sched <:+ s.sched.tail := by
    intro i u hu h
    obtain ⟨w, e, k⟩ := exec_keeps i u
    rw [e] at h
    cases h
    exact hu ▸ k.fwd.sched
  unfold step nextTurn at h
  cases hs : s.sched with
  | nil =>
    simp only [hs] at h hc he
    cases hb : s.busy.isSome with
    | true => rw [hb] at h; exact he _ s hs h
    | false => rw [hb] at h; exact hc _ s hs h
  | cons x r =>
    simp only [hs] at h hc he
    cases x with
    | ctrl => exact hc _ _ rfl h
    | timeout => exact hc _ _ rfl h
    | env e => exact he _ _ rfl h

end Sys2Proof.Machine
end

