-- ==== Sys2Proof/Laws/PerInstr.lean ====
section
/-! SUPPORT. The per-instruction family `OwnRow`: the record of every operation is decoded by the row of
opcode_table.json that is its own, one lemma per constructor. -/

namespace Sys2Proof.Laws.OwnRow

/-- The row of an operation in opcode_table.json, counted from 0. -/
def row : Instr → Nat
  | .push8 _ => 0
  | .latch => 1
  | .dataDir _ _ => 2
  | .dataOut _ _ => 3
  | .dataIn _ => 4
  | .wePulse => 5
  | .delay _ => 6
  | .init => 7
  | .setAddress _ _ => 8
  | .read _ => 9
  | .write _ _ => 10
  | .isConnected => 11
  | .setRxTimeout _ => 12
  | .available => 13
  | .waitForBytes _ _ => 14
  | .readBuffer _ => 15
  | .readI8 => 16
  | .readI16 => 17
  | .readI32 => 18
  | .writeBuffer _ => 19
  | .writeI8 _ => 20
  | .writeI16 _ => 21
  | .writeI32 _ => 22
  | .print _ => 23
  | .println _ => 24
  | .registerHandler _ _ => 25
  | .serve => 26
  | .handshakeAttempt => 27
  | .serveConnected => 28
  | .syn => 29
  | .ack => 30
  | .err => 31
  | .rst => 32
  | .fin => 33
  | .bye => 34
  | .request _ => 35
  | .hostSend _ => 36
  | .hostLinkUp => 37
  | .hostLinkDown => 38
  | .eeComplete => 39

/-- The record of `i` opens with its row's number, and the decoder gives the rest to that row. -/
def Statement (i : Instr) : Prop :=
  ∀ rest : List Byte, decode (encode i ++ rest) = decodeRow (row i) ((encode i).tail ++ rest)

theorem push8 (b : Byte) : Statement (.push8 b) := fun _ => rfl
theorem latch : Statement .latch := fun _ => rfl
theorem dataDir (p : Nat) (d : Dir) : Statement (.dataDir p d) := fun _ => rfl
theorem dataOut (p : Nat) (x : Bool) : Statement (.dataOut p x) := fun _ => rfl
theorem dataIn (p : Nat) : Statement (.dataIn p) := fun _ => rfl
theorem wePulse : Statement .wePulse := fun _ => rfl
theorem delay (t : Duration) : Statement (.delay t) := fun _ => rfl
theorem init : Statement .init := fun _ => rfl
theorem setAddress (a : Nat) (oe : Bool) : Statement (.setAddress a oe) := fun _ => rfl
theorem read (a : Nat) : Statement (.read a) := fun _ => rfl
theorem write (a : Nat) (v : Byte) : Statement (.write a v) := fun _ => rfl
theorem isConnected : Statement .isConnected := fun _ => rfl
theorem setRxTimeout (t : Duration) : Statement (.setRxTimeout t) := fun _ => rfl
theorem available : Statement .available := fun _ => rfl
theorem waitForBytes (n : Nat) (t : Duration) : Statement (.waitForBytes n t) := fun _ => rfl
theorem readBuffer (n : Nat) : Statement (.readBuffer n) := fun _ => rfl
theorem readI8 : Statement .readI8 := fun _ => rfl
theorem readI16 : Statement .readI16 := fun _ => rfl
theorem readI32 : Statement .readI32 := fun _ => rfl
theorem writeBuffer (buf : List Byte) : Statement (.writeBuffer buf) := fun _ => rfl
theorem writeI8 (x : Int) : Statement (.writeI8 x) := fun _ => rfl
theorem writeI16 (x : Int) : Statement (.writeI16 x) := fun _ => rfl
theorem writeI32 (x : Int) : Statement (.writeI32 x) := fun _ => rfl
theorem print (text : List Byte) : Statement (.print text) := fun _ => rfl
theorem println (text : List Byte) : Statement (.println text) := fun _ => rfl
theorem registerHandler (op : Byte) (h : HandlerName) : Statement (.registerHandler op h) := fun _ => rfl
theorem serve : Statement .serve := fun _ => rfl
theorem handshakeAttempt : Statement .handshakeAttempt := fun _ => rfl
theorem serveConnected : Statement .serveConnected := fun _ => rfl
theorem syn : Statement .syn := fun _ => rfl
theorem ack : Statement .ack := fun _ => rfl
theorem err : Statement .err := fun _ => rfl
theorem rst : Statement .rst := fun _ => rfl
theorem fin : Statement .fin := fun _ => rfl
theorem bye : Statement .bye := fun _ => rfl
theorem request (op : Byte) : Statement (.request op) := fun _ => rfl
theorem hostSend (b : Byte) : Statement (.hostSend b) := fun _ => rfl
theorem hostLinkUp : Statement .hostLinkUp := fun _ => rfl
theorem hostLinkDown : Statement .hostLinkDown := fun _ => rfl
theorem eeComplete : Statement .eeComplete := fun _ => rfl

end Sys2Proof.Laws.OwnRow
end

