-- ==== Sys2Proof/Tests/Slice0.lean ====
section
/-! SUPPORT. The model's own tests: ill-formed operations, words written out from the encodings, one-step vectors of
spec/95_test_vectors.md (each names its vector), and a witness for the hypotheses of each statement. -/

namespace Sys2Proof.Tests

-- One test after the other: each kernel evaluation would otherwise wait in a thread of its own.
set_option Elab.async false

open Sys2Proof.Machine

/-! ### Well-formedness: one ill-formed term for each check -/

theorem test_wf_line_dir : wellFormed (.dataDir 8 .inp) = false := by decide
theorem test_wf_line_out : wellFormed (.dataOut 8 true) = false := by decide
theorem test_wf_line_in : wellFormed (.dataIn 8) = false := by decide
theorem test_wf_delay : wellFormed (.delay .tServe) = false := by decide
theorem test_wf_address_set : wellFormed (.setAddress 0x8000 true) = false := by decide
theorem test_wf_address_read : wellFormed (.read 0x8000) = false := by decide
theorem test_wf_address_write : wellFormed (.write 0x8000 0) = false := by decide
theorem test_wf_duration : wellFormed (.setRxTimeout (.micros (2 ^ 32))) = false := by decide +kernel
theorem test_wf_wait_count : wellFormed (.waitForBytes (2 ^ 32) .tServe) = false := by decide +kernel
theorem test_wf_wait_duration : wellFormed (.waitForBytes 1 (.micros (2 ^ 32))) = false := by decide +kernel
theorem test_wf_count : wellFormed (.readBuffer (2 ^ 32)) = false := by decide +kernel
theorem test_wf_buffer : countOk (2 ^ 32) = false := by decide +kernel
theorem test_wf_i8 : wellFormed (.writeI8 128) = false := by decide
theorem test_wf_i16 : wellFormed (.writeI16 (-32769)) = false := by decide
theorem test_wf_i32 : wellFormed (.writeI32 2147483648) = false := by decide
theorem test_wf_print : wellFormed (.print [0x41, 0x00]) = false := by decide
theorem test_wf_println : wellFormed (.println [0x00]) = false := by decide
theorem test_wf_ends : wellFormed (.dataIn 7) = true ∧ wellFormed (.read 0x7FFF) = true ∧
    wellFormed (.writeI8 (-128)) = true ∧ wellFormed (.writeI16 32767) = true := by decide

/-! ### Decoding: records written out byte by byte (row number, image of spec/30_encoding.md, operands) -/

/-- What the decoder reads from a record, where it reads all of it. -/
def reads (l : List Byte) : Option Instr :=
  match decode l with
  | .ok (i, []) => some i
  | _ => none

theorem test_decode_bus_prim :
    reads [0, 0b10110011] = some (.push8 0xB3) ∧ reads [1, 0b010] = some .latch ∧
    reads [2, 7, 1] = some (.dataDir 7 .out) ∧ reads [2, 0, 0] = some (.dataDir 0 .inp) ∧
    reads [3, 5, 1] = some (.dataOut 5 true) ∧ reads [4, 6] = some (.dataIn 6) ∧
    reads [5, 0b101] = some .wePulse ∧ reads [6, 1] = some (.delay .tSettle) ∧
    reads [6, 4] = some (.delay .tIdle) := by decide +kernel

/-- R54, R56: bit 15 is NOE; `0x8123` is 0x123 with output disabled. -/
theorem test_decode_bus_op :
    reads [7, 0b00000000, 0b00000000] = some .init ∧
    reads [8, 0b10000001, 0b00100011] = some (.setAddress 0x123 false) ∧
    reads [8, 0b00000111, 0b11111111] = some (.setAddress 0x7FF true) ∧
    reads [9, 0b00000111, 0b11111111] = some (.read 0x7FF) ∧
    reads [10, 0b10000000, 0b00000101, 0b00111100] = some (.write 5 0x3C) := by decide +kernel

/-- R63: the least significant byte first; R64: the text ends at `0x00`. -/
theorem test_decode_xport :
    reads [11] = some .isConnected ∧ reads [12, 5, 0x10, 0x27, 0, 0] = some (.setRxTimeout (.micros 10000)) ∧
    reads [13] = some .available ∧ reads [14, 2, 0, 0, 0, 3] = some (.waitForBytes 2 .tServe) ∧
    reads [15, 0, 1, 0, 0] = some (.readBuffer 256) ∧ reads [16] = some .readI8 ∧ reads [17] = some .readI16 ∧
    reads [18] = some .readI32 ∧ reads [19, 2, 0, 0, 0, 0x61, 0x66] = some (.writeBuffer [0x61, 0x66]) ∧
    reads [20, 0x9C] = some (.writeI8 (-100)) ∧ reads [21, 0xFF, 0x07] = some (.writeI16 2047) ∧
    reads [22, 0x78, 0x56, 0x34, 0x12] = some (.writeI32 305419896) ∧
    reads [23, 0x6F, 0x6B, 0x00] = some (.print [0x6F, 0x6B]) ∧ reads [24, 0x00] = some (.println []) := by
  decide +kernel

/-- R58: 's' 0x73, 'a' 0x61, 'e' 0x65, 'r' 0x72, 'f' 0x66, 'b' 0x62. -/
theorem test_decode_server :
    reads [25, 0x10, 0x01, 0x02] = some (.registerHandler 0x10 0x0102) ∧ reads [26] = some .serve ∧
    reads [27] = some .handshakeAttempt ∧ reads [28] = some .serveConnected ∧ reads [29, 0x73] = some .syn ∧
    reads [30, 0x61] = some .ack ∧ reads [31, 0x65] = some .err ∧ reads [32, 0x72] = some .rst ∧
    reads [33, 0x66] = some .fin ∧ reads [34, 0x62] = some .bye ∧ reads [35, 0x99] = some (.request 0x99) := by
  decide +kernel

theorem test_decode_env :
    reads [36, 0x73] = some (.hostSend 0x73) ∧ reads [37] = some .hostLinkUp ∧ reads [38] = some .hostLinkDown ∧
    reads [39] = some .eeComplete := by decide +kernel

/-- The decoder refuses these bytes for this reason. -/
def refuses (l : List Byte) (e : DecodeError) : Bool :=
  match decode l with
  | .error e' => e' == e
  | .ok _ => false

/-- Bytes that are no record are refused by name. -/
theorem test_decode_refuses :
    refuses [] .truncated ∧ refuses [40] .noSuchRow ∧ refuses [7, 0, 1] .badImage ∧ refuses [9, 0x80, 0] .badImage ∧
    refuses [2, 8, 0] .badOperand ∧ refuses [23, 0x41] .truncated := by decide +kernel

theorem test_encode_write : encode (.write 0x7FF 0xA5) = [10, 0x87, 0xFF, 0xA5] := by decide +kernel

/-! ### States the vectors start from -/

/-- The test handlers of spec/95_test_vectors.md Part 2 (SERVER): hNone, hEcho, hWrite, hRead, hBad. -/
def bodies : List Handler :=
  [[],
    [.call (some 0) .readI8, .call none (.writeI8 (.var 0))],
    [.call (some 0) .readI16, .call (some 1) .readI8, .call none (.write (.var 0) (.var 1))],
    [.call (some 0) .readI16, .call (some 1) (.read (.var 0)), .call none (.writeI8 (.var 1))],
    [.call none (.closed .init)]]

/-- "After INIT" (70_reset_and_hazards.md R129), with `cell[5] = 0x3C`, `cell[0x7FF] = 0xA5` and the test handlers. -/
def ready : State :=
  { State.reset with
    cfg := { Config.launch with bodies := bodies }
    pinSdata := ⟨.out, false⟩
    pinSclk := ⟨.out, false⟩
    pinLatch := ⟨.out, false⟩
    pinWe := ⟨.out, true⟩
    ctlReady := true
    initDone := true
    cell := [(0, 0x00), (5, 0x3C), (0x7FF, 0xA5)]
    calls := [] }

/-- As after a performed write of 5: output disabled, all lines outputs. -/
def driving : State := { ready with stage := 0x8005, q := 0x8005, dir := allLines .out, dout := 0x3C }

/-- In session, with handlers registered for 0x10 (hEcho), 0x20 (hBad) and 0x99 (hNone). -/
def session (rx : List Byte) : State :=
  { ready with fsm := .connected, table := [(0x10, 1), (0x20, 4), (0x99, 0)], rx := rx }

/-- A handler running in the session, called by SERVE. -/
def inHandler (rx : List Byte) : State :=
  { session rx with seq := [.handler 0x10 (bodies.getD 1 []) 0 [], .op .serveConnected 3, .op .serve 1] }

/-- The next state of an outcome. -/
def after (o : Host.Outcome State Fault Refusal) : State :=
  match o with
  | .next t => t
  | _ => State.reset

/-- The outcome is a next state. -/
def isNext (o : Host.Outcome State Fault Refusal) : Bool :=
  match o with
  | .next _ => true
  | _ => false

theorem eq_after {o : Host.Outcome State Fault Refusal} (h : isNext o = true) : o = .next (after o) := by
  cases o <;> simp_all [isNext, after]

/-- CTRL's turn answers this fault. -/
def stepFaults (s : State) (f : Fault) : Bool :=
  match step s with
  | .fault g => g == f
  | _ => false

/-- CTRL's turn answers this refusal. -/
def stepRefuses (s : State) (r : Refusal) : Bool :=
  match step s with
  | .refused q => q == r
  | _ => false

/-- `k` steps. -/
def steps : Nat → State → State
  | 0, s => s
  | k + 1, s => steps k (after (step s))

/-! ### BUS-PRIM vectors -/

/-- V-PRIM-01. -/
theorem test_push8 : let t := after (exec (.push8 0x12) { ready with stage := 0xABCD })
    t.stage = 0xCD12 ∧ t.q = ready.q ∧ t.hist = [.push 0x12] := by decide +kernel
/-- V-PRIM-03, V-PRIM-04. -/
theorem test_push8_pins : let t := after (exec (.push8 0x80) ready)
    t.stage = 0x0080 ∧ t.pinSdata.level = false ∧ t.pinSclk.level = false ∧
      (after (exec (.push8 0) State.reset)).faults = [.notInitialised (.push8 0)] := by decide +kernel
/-- V-PRIM-05. -/
theorem test_latch : let t := after (exec .latch { ready with stage := 0x87FF, q := 0x07FF })
    t.q = 0x87FF ∧ t.pinLatch.level = false ∧ t.hist = [.latch 0x87FF] := by decide +kernel
/-- V-PRIM-07. -/
theorem test_latch_contention :
    (after (exec .latch { driving with stage := 0x0005 })).hist = [.latch 0x0005, .contention] := by decide +kernel
/-- V-PRIM-08. -/
theorem test_dataDir : let t := after (exec (.dataDir 3 .out) { ready with q := 0x8000, dout := 0x08 })
    lineLevel t 3 = some true ∧ t.hist = [] := by decide +kernel
/-- V-PRIM-09, V-PRIM-10. -/
theorem test_dataDir_contention : let t := after (exec (.dataDir 0 .out) { ready with q := 0x0005 })
    t.hist = [.contention] ∧ lineLevel t 0 = none ∧ (after (exec (.dataDir 1 .out) t)).hist = [.contention] := by
  decide +kernel
/-- V-PRIM-11. -/
theorem test_dataOut : let t := after (exec (.dataOut 0 true) { ready with q := 0x8000 })
    t.dout = 0x01 ∧ lineLevel t 0 = none := by decide +kernel
/-- R76: a bit is cleared, the others stay. -/
theorem test_dataOut_clears : (after (exec (.dataOut 7 false) { ready with dout := 0xC1 })).dout = 0x41 := by
  decide +kernel
/-- V-PRIM-12. -/
theorem test_dataIn : let s := { ready with q := 0x0005 }
    (after (exec (.dataIn 7) s)).ret = .bit false ∧ (after (exec (.dataIn 5) s)).ret = .bit true ∧
      (after (exec (.dataIn 2) s)).ret = .bit true ∧ (after (exec (.dataIn 0) s)).ret = .bit false := by
  decide +kernel
/-- V-PRIM-13 to V-PRIM-16: an output line, a floating, a busy and a too early one use up a free bit. -/
theorem test_dataIn_free : (after (exec (.dataIn 4) driving)).draws = 1 ∧
    (after (exec (.dataIn 0) { ready with q := 0x8005 })).draws = 1 ∧
    (after (exec (.dataIn 0) { ready with busy := some (5, 0x3C) })).draws = 1 ∧
    (after (exec (.dataIn 2) { ready with cfg := { ready.cfg with accessTimeMet := false } })).draws = 1 := by
  decide +kernel
/-- V-PRIM-17. -/
theorem test_wePulse : let t := after (exec .wePulse driving)
    t.busy = some (5, 0x3C) ∧ t.pinWe.level = true ∧ t.hist = [.wePulse 5 0x3C] ∧ t.wePulses = 1 := by
  decide +kernel
/-- V-PRIM-18, V-PRIM-19, V-PRIM-22. -/
theorem test_wePulse_faults :
    (after (exec .wePulse { driving with q := 0x0005 })).faults = [.weWithOeAsserted 0x0005] ∧
    (after (exec .wePulse { driving with busy := some (7, 0x11) })).faults = [.writeWhileBusy 7 0x11 0x8005] ∧
    (after (exec .wePulse { State.reset with q := 0x0005 })).faults = [.notInitialised .wePulse] := by decide +kernel
/-- V-PRIM-23: CTRL is held, no timeout ends it, until EE_COMPLETE has come. -/
theorem test_delay : let t := after (exec (.delay .tSettle)
      { driving with busy := some (5, 0xC3), sched := [.ctrl, .timeout, .env .eeComplete, .ctrl] })
    t.seq = [.op (.delay .tSettle) 1] ∧ t.held = true ∧ (steps 2 t).seq = t.seq ∧ (steps 2 t).cellByte 5 = 0x3C ∧
      (steps 3 t).held = false ∧ (steps 4 t).seq = [] ∧ (steps 4 t).cellByte 5 = 0xC3 := by decide +kernel
/-- V-PRIM-25, V-PRIM-27. -/
theorem test_delay_short :
    (after (exec (.delay .tSettle) { driving with
      cfg := { ready.cfg with settleSufficient := false }, busy := some (5, 0x3C) })).busy = some (5, 0x3C) ∧
    (after (exec (.dataDir 8 .inp) ready)).refused = some (.unmodelled (.dataDir 8 .inp)) := by decide +kernel

/-! ### BUS-OP vectors -/

/-- V-OP-01. -/
theorem test_init : let t := after (exec .init { State.reset with stage := 0xFFFF, q := 0xFFFF, dout := 0x5A })
    t.stage = 0 ∧ t.q = 0 ∧ t.dir = allLines .inp ∧ t.dout = 0x5A ∧ t.pinWe = ⟨.out, true⟩ ∧ t.initDone = true ∧
      t.hist = [.push 0, .push 0, .latch 0] := by decide +kernel
/-- V-OP-03. -/
theorem test_init_again : let t := after (exec .init driving)
    t.q = 0 ∧ t.dir = allLines .inp ∧ t.dout = 0x3C ∧ t.cell = driving.cell ∧ t.hist = [.push 0, .push 0, .latch 0] := by
  decide +kernel
/-- V-OP-04, V-OP-05. -/
theorem test_setAddress :
    (after (exec (.setAddress 0x123 false) ready)).hist = [.push 0x81, .push 0x23, .latch 0x8123] ∧
    (after (exec (.setAddress 0x7FF true) ready)).q = 0x07FF := by decide +kernel
/-- V-OP-06, V-OP-06b. -/
theorem test_setAddress_faults :
    (after (exec (.setAddress 0x800 true) ready)).faults = [.addressRange (.setAddress 0x800 true) 0x800] ∧
    (after (exec (.setAddress 0x800 true) State.reset)).faults = [.notInitialised (.setAddress 0x800 true)] := by
  decide +kernel
/-- V-OP-09, V-OP-13: from a state that drives the lines, too. -/
theorem test_read : let t := after (exec (.read 0x7FF) driving)
    t.ret = .u8 0xA5 ∧ t.hist = [.push 0x07, .push 0xFF, .latch 0x07FF] ∧ t.q = 0x07FF ∧ t.dir = allLines .inp := by
  decide +kernel
/-- V-OP-11, V-OP-12. -/
theorem test_read_faults :
    (after (exec (.read 0x800) ready)).faults = [.addressRange (.read 0x800) 0x800] ∧
    (after (exec (.read 0) State.reset)).faults = [.notInitialised (.read 0)] := by decide +kernel
/-- V-OP-14: the whole trace; WRITE is held in its settle delay, EE completes the cycle, WRITE returns. -/
theorem test_write : let t := after (exec (.write 5 0xC3) ready)
    t.hist = [.push 0x00, .push 0x05, .latch 0x0005, .contention, .push 0x80, .push 0x05, .latch 0x8005,
      .wePulse 5 0xC3] ∧ t.dout = 0xC3 ∧ t.dir = allLines .out ∧ t.busy = some (5, 0xC3) ∧
      t.seq = [.op (.delay .tSettle) 1, .op (.write 5 0xC3) 19] ∧
      (steps 2 t).seq = [] ∧ (steps 2 t).cellByte 5 = 0xC3 ∧ (steps 2 t).hist = t.hist := by decide +kernel
/-- V-OP-08. -/
theorem test_write_elided : let t := after (exec (.write 5 0x3C) ready)
    t.hist = [.push 0x00, .push 0x05, .latch 0x0005, .elided 5] ∧ t.wePulses = 0 ∧ t.q = 0x0005 := by decide +kernel

/-! ### XPORT vectors -/

/-- V-XP-01, V-XP-02. -/
theorem test_isConnected : (after (exec .isConnected ready)).ret = .bool true ∧
    (after (exec .isConnected { ready with link := false })).ret = .bool false := by decide +kernel
/-- V-XP-03. -/
theorem test_setRxTimeout : (after (exec (.setRxTimeout (.micros 100000)) ready)).rxTimeout = .micros 100000 := by
  decide +kernel
/-- V-XP-04. -/
theorem test_available : let t := after (exec .available { ready with rx := [0x10, 0x00] })
    t.ret = .count 2 ∧ t.rx = [0x10, 0x00] := by decide +kernel
/-- V-XP-08: the byte comes during the hold. -/
theorem test_waitForBytes : let t := after (exec (.waitForBytes 1 .tServe)
      { ready with sched := [.ctrl, .env (.hostSend 0x62), .ctrl, .timeout] })
    t.seq = [waitFrame 1 .tServe] ∧ t.held = true ∧ (steps 1 t).seq = t.seq ∧ (steps 3 t).seq = [] ∧ (steps 3 t).rx = [0x62] ∧
      (steps 3 t).hist = [.rx 0x62] := by decide +kernel
/-- V-XP-05, V-XP-07: it returns true at once; it is held and its wait times out, which READ_BUFFER, its caller, sees. -/
theorem test_waitForBytes_ends : (after (exec (.waitForBytes 0 .tServe) ready)).ret = .bool true ∧
    (steps 1 (after (exec (.waitForBytes 1 .tServe) ready))).hist = [.timeout .waitForBytes] ∧
    (steps 1 (after (exec (.waitForBytes 1 .tServe) ready))).seq = [] := by decide +kernel
/-- V-XP-10, V-XP-11. -/
theorem test_readBuffer : let t := after (exec (.readBuffer 2) { ready with rx := [1, 2, 3] })
    t.ret = .bytes [1, 2] ∧ t.rx = [3] ∧ (after (exec (.readBuffer 0) { ready with rx := [1] })).rx = [1] := by
  decide +kernel
/-- V-XP-12, with the one byte coming during the hold. -/
theorem test_readBuffer_short :
    let t := steps 2 (after (exec (.readBuffer 3) { ready with sched := [.env (.hostSend 0xAA), .timeout] }))
    t.rx = [] ∧ t.seq = [] ∧ t.draws = 16 ∧
      t.hist = [.rx 0xAA, .timeout .waitForBytes, .shortRead .readBuffer 1 3] := by decide +kernel
/-- V-XP-13. -/
theorem test_readI8 : (after (exec .readI8 { ready with rx := [0x9C] })).ret = .int (-100) ∧
    (after (exec .readI8 { ready with rx := [0x80] })).ret = .int (-128) := by decide +kernel
/-- V-XP-14. -/
theorem test_readI16 : (after (exec .readI16 { ready with rx := [0xFF, 0x07] })).ret = .int 2047 ∧
    (after (exec .readI16 { ready with rx := [0x00, 0x80] })).ret = .int (-32768) := by decide +kernel
/-- V-XP-16. -/
theorem test_readI32 : (after (exec .readI32 { ready with rx := [0x78, 0x56, 0x34, 0x12] })).ret = .int 305419896 ∧
    (after (exec .readI32 { ready with rx := [0xFE, 0xFF, 0xFF, 0xFF] })).ret = .int (-2) := by decide +kernel
/-- V-XP-18. -/
theorem test_writeBuffer : let t := after (exec (.writeBuffer [0x61, 0x66]) ready)
    t.toHost = [0x61, 0x66] ∧ t.hist = [.tx 0x61, .tx 0x66] := by decide +kernel
/-- V-XP-19. -/
theorem test_writeI8 : (after (exec (.writeI8 (-128)) ready)).toHost = [0x80] ∧
    (after (exec (.writeI8 200) ready)).toHost = [0xC8] := by decide +kernel
/-- V-XP-20. -/
theorem test_writeI16 : (after (exec (.writeI16 2047) ready)).toHost = [0xFF, 0x07] ∧
    (after (exec (.writeI16 40000) ready)).toHost = [0x40, 0x9C] := by decide +kernel
/-- V-XP-21. -/
theorem test_writeI32 : (after (exec (.writeI32 0x12345678) ready)).toHost = [0x78, 0x56, 0x34, 0x12] ∧
    (after (exec (.writeI32 (2 ^ 31)) ready)).toHost = [0x00, 0x00, 0x00, 0x80] := by decide +kernel
/-- V-XP-22, V-XP-24. -/
theorem test_print : (after (exec (.print [0x6F, 0x6B]) ready)).toHost = [0x6F, 0x6B, 0x00] ∧
    (after (exec (.print [0x41, 0x00, 0x42]) ready)).faults =
      [.textContainsNul (.print [0x41, 0x00, 0x42]) [0x41, 0x00, 0x42]] ∧
    (after (exec (.print [0x41, 0x00, 0x42]) ready)).toHost = [] := by decide +kernel
/-- V-XP-23. -/
theorem test_println : (after (exec (.println [0x6F, 0x6B]) ready)).toHost = [0x6F, 0x6B, 0x00] ∧
    (after (exec (.println []) ready)).toHost = [0x00] := by decide +kernel

/-! ### SERVER vectors -/

/-- V-SRV-01. -/
theorem test_registerHandler :
    let t := after (exec (.registerHandler 0x10 1) (after (exec (.registerHandler 0x10 0) ready)))
    t.tableAt 0x10 = some 1 ∧ t.tableAt 0x11 = none := by decide +kernel
/-- V-SRV-03, V-SRV-04, V-SRV-05. -/
theorem test_registerHandler_reserved :
    (after (exec (.registerHandler 0x62 0) ready)).faults = [.reservedOpcode 0x62] ∧
    (after (exec (.registerHandler 0x61 0) ready)).tableAt 0x61 = some 0 ∧
    (after (exec (.registerHandler 0x00 0)
      { ready with cfg := { ready.cfg with extraReserved := [0x00] } })).faults = [.reservedOpcode 0x00] := by
  decide +kernel
/-- V-SRV-10: SERVE answers SYN and leaves the next byte. -/
theorem test_serve : let t := after (exec .serve { ready with rx := [0x73, 0x10] })
    t.toHost = [0x61] ∧ t.fsm = .connected ∧ t.rx = [0x10] ∧ t.seq = [] := by decide +kernel
/-- V-SRV-09, its first attempt: RST, and SERVE still runs. -/
theorem test_serve_retries : let t := after (exec .serve { ready with rx := [0x78, 0x73] })
    t.toHost = [0x72] ∧ t.fsm = .disconnected ∧ t.seq = [.op .serve 0] ∧
      (after (step t)).toHost = [0x72, 0x61] := by decide +kernel
/-- V-SRV-06, V-SRV-07. -/
theorem test_handshakeAttempt : (after (exec .handshakeAttempt { ready with rx := [0x41] })).toHost = [0x72] ∧
    (after (exec .handshakeAttempt { ready with rx := [0x73] })).fsm = .connected := by decide +kernel
/-- V-SRV-08: it is held in its wait; the wait times out and no reply is sent. -/
theorem test_handshakeAttempt_idle : let t := after (exec .handshakeAttempt ready)
    t.seq = [waitFrame 1 .tHandshake, .op .handshakeAttempt 0] ∧ (steps 1 t).seq = [] ∧
      (steps 1 t).hist = [.timeout .waitForBytes] ∧ (steps 1 t).toHost = [] := by decide +kernel
/-- V-SRV-13, V-SRV-14, V-SRV-15. -/
theorem test_serveConnected : (after (exec .serveConnected (session [0x62]))).toHost = [0x62] ∧
    (after (exec .serveConnected (session [0x98]))).toHost = [0x65] ∧
    (after (exec .serveConnected (session [0x73]))).fsm = .disconnected := by decide +kernel
/-- V-SRV-16: `61 2A 66` in four steps of CTRL (dispatch, two calls, return); SERVE has then returned. -/
theorem test_serveConnected_handler : let t := steps 4 (session [0x10, 0x2A])
    (steps 1 (session [0x10, 0x2A])).seq =
      [.handler 0x10 (bodies.getD 1 []) 0 [], .op .serveConnected 3, .op .serve 1] ∧
    t.toHost = [0x61, 0x2A, 0x66] ∧ t.fsm = .connected ∧ t.rx = [] ∧ t.seq = [] := by decide +kernel
/-- A handler's variables are its own (R13, R107; log17): a second request starts with none. -/
theorem test_handler_variables : (steps 5 (session [0x10, 0x2A, 0x10, 0x2B])).seq =
    [.handler 0x10 (bodies.getD 1 []) 0 [], .op .serveConnected 3, .op .serve 1] := by decide +kernel
/-- R112 corner case 1; R65. -/
theorem test_syn : (after (exec .syn ready)).toHost = [0x61] ∧ (after (exec .syn (session []))).toHost = [0x65] := by
  decide +kernel
/-- R25: the device's codes leave the session alone. -/
theorem test_ack : let t := after (exec .ack ready)
    t.toHost = [0x61] ∧ t.fsm = .disconnected := by decide +kernel
theorem test_err : let t := after (exec .err (session []))
    t.toHost = [0x65] ∧ t.fsm = .connected := by decide +kernel
theorem test_rst : let t := after (exec .rst ready)
    t.toHost = [0x72] ∧ t.fsm = .disconnected := by decide +kernel
theorem test_fin : let t := after (exec .fin (inHandler []))
    t.toHost = [0x66] ∧ t.fsm = .connected ∧ t.seq = [.op .serveConnected 3, .op .serve 1] := by decide +kernel
/-- R25, R112: a dispatch in DISCONNECTED writes no session. -/
theorem test_dispatch_keeps_fsm :
    (after (exec .serveConnected { session [0x99] with fsm := .disconnected })).fsm = .disconnected := by decide +kernel
/-- R66: BYE before the table; R111: BYE in DISCONNECTED draws RST. -/
theorem test_bye : (after (exec .bye (session []))).toHost = [0x62] ∧ (after (exec .bye ready)).toHost = [0x72] := by
  decide +kernel
/-- V-SRV-21: 0x99 selects slot 153. -/
theorem test_request : let t := steps 1 (after (exec (.request 0x99) (session [])))
    t.toHost = [0x61, 0x66] ∧ t.fsm = .connected := by decide +kernel
/-- V-SRV-20: NOT_EXPOSED after ACK, no FIN; CTRL's next turn answers the refusal. -/
theorem test_notExposed : let t := steps 2 (session [0x20])
    t.toHost = [0x61] ∧ t.refused = some (.notExposed .init) ∧
      stepRefuses t (.notExposed .init) := by decide +kernel
/-- V-SRV-22: a fault inside a handler leaves ACK sent and FIN unsent. -/
theorem test_fault_in_handler :
    let t := steps 4 { session [0x10, 0x00, 0x08, 0x01] with table := [(0x10, 2)] }
    t.toHost = [0x61] ∧ t.faults = [.addressRange (.write 0x800 0x01) 0x800] ∧
      stepFaults t (.addressRange (.write 0x800 0x01) 0x800) := by decide +kernel

/-! ### ENV vectors -/

/-- V-ENV-03. -/
theorem test_hostSend : let t := after (exec (.hostSend 0x10) { ready with rx := [0x73] })
    t.rx = [0x73, 0x10] ∧ t.hist = [.rx 0x10] := by decide +kernel
/-- V-ENV-04, V-ENV-05. -/
theorem test_hostSend_lost : let s := { ready with cfg := { ready.cfg with rxCapacity := 2 }, rx := [1, 2] }
    (after (exec (.hostSend 3) s)).rx = [1, 2] ∧ (after (exec (.hostSend 3) s)).hist = [.rxDropped 3] ∧
      (after (exec (.hostSend 0x73) { ready with link := false })).rx = [] := by decide +kernel
/-- V-ENV-07. -/
theorem test_hostLinkUp : (after (exec .hostLinkUp { ready with link := false })).link = true := by decide +kernel
/-- V-ENV-06. -/
theorem test_hostLinkDown : let t := after (exec .hostLinkDown (session [0x10]))
    t.link = false ∧ t.fsm = .connected ∧ t.rx = [0x10] := by decide +kernel
/-- V-ENV-01, V-ENV-02. -/
theorem test_eeComplete : let t := after (exec .eeComplete { ready with busy := some (0x7FF, 0x5A) })
    t.cellByte 0x7FF = 0x5A ∧ t.busy = none ∧ after (exec .eeComplete ready) = ready := by decide +kernel

/-- R80, weak fairness: a cycle no DELAY waits for completes at the schedule's end, after a bare WE_PULSE and after a WRITE
whose settle delay does not cover it. -/
theorem test_ee_fair : let s := after (step (placeCall .wePulse driving))
    let w := { driving with cfg := { driving.cfg with settleSufficient := false } }
    let t := after (step (placeCall (.write 5 0x81) w))
    s.busy = some (5, 0x3C) ∧ s.seq = [] ∧ (steps 1 s).busy = none ∧ (steps 1 s).cellByte 5 = 0x3C ∧
      t.busy = some (5, 0x81) ∧ t.seq = [] ∧ (steps 1 t).busy = none ∧ (steps 1 t).cellByte 5 = 0x81 := by
  decide +kernel

/-! ### The machine from reset -/

/-- R132: the first step after reset is INIT, the next is SERVE, held in its attempt's wait. -/
theorem test_boot : (steps 1 State.reset).initDone = true ∧
    (steps 2 State.reset).seq = [waitFrame 1 .tHandshake, .op .handshakeAttempt 0, .op .serve 0] := by decide +kernel
/-- R28: a controller reset keeps the EEPROM; a cut-off cycle leaves free bits. -/
theorem test_controllerReset :
    (driving.controllerReset).cell = driving.cell ∧ (driving.controllerReset).initDone = false ∧
    ({ driving with busy := some (0, 1) } : State).controllerReset.cellByte 5 = 0x3C ∧
    ({ driving with busy := some (0, 1) } : State).controllerReset.draws = 8 := by decide +kernel
/-- A placed word is what the next step runs: 0x87FF, the write-phase word of 0x7FF, before INIT. -/
theorem test_placed : (after (step (State.reset.withFetchWord 16 0x87FF))).faults =
    [.notInitialised (.write 0x7FF 0)] := by decide +kernel

/-! ### Witnesses: for each statement, states and operands that meet its hypotheses together, at the ends of ranges -/

theorem ready_bus (a : Nat) (h : a ≤ 0x7FF) : BusReady a ready :=
  ⟨rfl, ⟨fun _ => rfl, fun _ => ⟨rfl, rfl, rfl, rfl⟩⟩, by decide, decide_eq_true h⟩

theorem driving_bus (a : Nat) (h : a ≤ 0x7FF) : BusReady a driving :=
  ⟨rfl, ⟨fun _ => rfl, fun _ => ⟨rfl, rfl, rfl, rfl⟩⟩, by decide, decide_eq_true h⟩

/-- CTRL is held in a wait or at another place `l`, in the session, with `rx` and what is scheduled. -/
def heldAt (l : List Frame) (rx : List Byte) (sched : List Slot) : State :=
  { session rx with seq := l, sched := sched }

theorem turn_of_slot {s : State} {r : List Slot} (h : s.sched = .ctrl :: r ∨ s.sched = .timeout :: r) : CtrlTurn s := by
  rcases h with h | h <;> exact ⟨fun e l => by simp [h], fun h' => by simp [h] at h'⟩

theorem turn_of_end {s : State} (h : s.sched = []) (hh : s.busy = none) : CtrlTurn s :=
  ⟨fun e l => by simp [h], fun _ => hh⟩

theorem ready_switches : SwitchesOn ready.cfg := ⟨rfl, rfl, rfl⟩

theorem witness_RecordRoundTrip : WellFormed (.write 0x7FFF 0xFF) ∧ WellFormed (.dataOut 7 true) ∧
    WellFormed (.writeI32 (-2147483648)) ∧ WellFormed (.print []) := by decide
theorem witness_RecordIsCanonical : decode [10, 0x87, 0xFF, 0xA5, 0x01] = .ok (.write 0x7FF 0xA5, [0x01]) := rfl
theorem witness_AddressWordFields : Config.launch.addrWidth ≤ 15 ∧ addressInRange Config.launch 0 = true ∧
    addressInRange Config.launch 0x7FF = true ∧ addressInRange { Config.launch with addrWidth := 15 } 0x7FFF = true := by
  decide +kernel
theorem witness_PushEightBits : ready.inHandler = false ∧ ready.ctlReady = true := by decide
theorem witness_LatchCommits : driving.inHandler = false ∧ driving.ctlReady = true := by decide
theorem witness_DataDirection : ready.eeDrives = true ∧ driving.eeDrives = false ∧ ready.dir[(0 : Line)] = .inp ∧
    driving.dir[(7 : Line)] = .out := by decide
theorem witness_DataOutputLatch : driving.dir[(7 : Line)] = .out ∧ driving.eeDrives = false ∧
    ready.dir[(0 : Line)] = .inp ∧ ({ ready with q := 0x8000 } : State).eeDrives = false := by decide
theorem witness_DataSample : ready.dir[(7 : Line)] = .inp ∧ ready.q.getLsbD 15 = false ∧ ready.pinWe.level = true ∧
    ready.busy = none ∧ ready.cfg.accessTimeMet = true ∧ driving.dir[(0 : Line)] = .out ∧
    driving.q.getLsbD 15 = true ∧ State.reset.pinWe.level = false := by decide
theorem witness_WritePulse : driving.inHandler = false ∧ driving.ctlReady = true ∧ driving.q.getLsbD 15 = true ∧
    driving.busy = none ∧ driving.dir = allLines .out ∧ driving.cfg.wePulseSufficient = true := by decide
theorem witness_PrimitiveFaults : State.reset.inHandler = false ∧ State.reset.ctlReady = false ∧
    ready.ctlReady = true ∧ ready.q.getLsbD 15 = false ∧ driving.q.getLsbD 15 = true ∧
    ({ driving with busy := some (7, 0x11) } : State).busy = some (7, 0x11) := by decide
theorem witness_DelayHolds : let s := { driving with busy := some (0x7FF, 0x00) }
    s.inHandler = false ∧ s.busy ≠ none ∧ s.cfg.settleSufficient = true ∧ s.Running ∧ driving.busy = none ∧
      ({ s with cfg := { s.cfg with settleSufficient := false } } : State).cfg.settleSufficient = false := by decide
/-- Of DelayHolds, held: the cycle in progress and a turn of CTRL's, the schedule's end, the cycle over. -/
theorem witness_DelayHeld : let s : State := { driving with
      seq := [.op (.delay .tSettle) 1, .op (.write 5 0x3C) 19], busy := some (5, 0x3C), sched := [.timeout] }
    s.Running ∧ s.seq = .op (.delay .tSettle) 1 :: [.op (.write 5 0x3C) 19] ∧ s.busy ≠ none ∧ CtrlTurn s ∧
      ({ s with sched := [] } : State).sched = [] ∧ ({ s with busy := none } : State).busy = none ∧
      CtrlTurn { s with busy := none, sched := [] } :=
  ⟨by decide, rfl, by decide, turn_of_slot (.inr rfl), rfl, rfl, turn_of_end rfl (by decide)⟩
theorem witness_UnmodelledShapes : ready.inHandler = false ∧ 7 < 8 ∧ Duration.tServe ≠ .tSettle ∧
    Duration.tServe ≠ .tIdle ∧ Duration.micros 5000 ≠ .tSettle := by decide
/-- Of EepromCompletes, its last clause too, with CTRL's turns scheduled and with none. -/
theorem witness_EepromCompletes : let s : State := { ready with busy := some (0x7FF, 0xA5), sched := [.ctrl, .timeout] }
    s.busy = some (0x7FF, 0xA5) ∧ ready.busy = none ∧ s.busy ≠ none ∧ s.sched ≠ [] ∧
      ({ s with sched := [] } : State).sched = [] := by decide
theorem witness_InitEndState : State.reset.inHandler = false ∧ driving.inHandler = false := by decide
/-- Of SetAddressEndState and SetAddressTrace. -/
theorem witness_SetAddress : driving.inHandler = false ∧ BusReady 0 driving ∧ BusReady 0x7FF driving ∧ driving.Quiet :=
  ⟨by decide, driving_bus 0 (by decide), driving_bus 0x7FF (by decide), rfl⟩
/-- Of BusGuardFaults, with a running handler too. -/
theorem witness_BusGuardFaults : State.reset.inHandler = false ∧ State.reset.initDone = false ∧
    ready.initDone = true ∧ ready.inHandler = false ∧ 2 ^ ready.cfg.addrWidth ≤ 0x800 ∧
    (inHandler []).inHandler = true ∧ (inHandler []).initDone = true ∧ 2 ^ (inHandler []).cfg.addrWidth ≤ 0x800 := by
  decide
/-- Of ReadEndState and ReadGivesCell. -/
theorem witness_Read : BusReady 0 driving ∧ BusReady 0x7FF ready ∧ ready.busy = none ∧
    ready.cfg.accessTimeMet = true := ⟨driving_bus 0 (by decide), ready_bus 0x7FF (by decide), rfl, rfl⟩
theorem witness_WriteElided : BusReady 0x7FF ready ∧ ready.busy = none ∧ ready.cfg.accessTimeMet = true ∧
    ready.cellByte 0x7FF = 0xA5 := ⟨ready_bus 0x7FF (by decide), rfl, rfl, by decide⟩
/-- Of WritePerformed and WriteTrace. -/
theorem witness_WritePerformed : BusReady 0 driving ∧ driving.busy = none ∧ SwitchesOn driving.cfg ∧
    driving.cellByte 0 ≠ 0x80 ∧ driving.Quiet := ⟨driving_bus 0 (by decide), rfl, ready_switches, by decide, rfl⟩
theorem witness_WriteFaultsOnlyBusy : BusReady 0x7FF { ready with busy := some (1, 0x11) } ∧ ready.busy = none :=
  ⟨ready_bus 0x7FF (by decide), rfl⟩
/-- The state a performed WRITE leaves, and the same once EE has completed the cycle. -/
def written0 : State := after (exec (.write 0 0x80) driving)
def settled0 : State := eeComplete written0
/-- Of WritePerformed (where it is held), ReadAfterWrite and SecondWriteIsElided: what comes after the WRITE. -/
theorem witness_WriteHeld : exec (.write 0 0x80) driving = .next written0 ∧ OthersOnly written0 settled0 ∧
    settled0.busy = none ∧ settled0.Running ∧ CtrlTurn settled0 :=
  ⟨eq_after (by decide +kernel), ⟨.inr ⟨by decide +kernel, 0, 0x80, by decide +kernel, by decide +kernel⟩, by decide +kernel⟩,
    by decide +kernel, by decide +kernel, turn_of_end (by decide +kernel) (by decide +kernel)⟩
/-- Of ReadAfterWrite, SecondWriteIsElided and BusIgnoresSchedule. -/
theorem witness_TwoWrites : BusReady 0x7FF ready ∧ ready.busy = none ∧ SwitchesOn ready.cfg ∧
    ready.inHandler = false := ⟨ready_bus 0x7FF (by decide), rfl, ready_switches, by decide⟩
theorem witness_AvailableCounts : (session [0x10]).rx.length ≤ (session []).cfg.rxCapacity ∧
    (session [0x10]).link = true ∧ (session [0x10]).rx.length < (session [0x10]).cfg.rxCapacity := by decide
/-- Of WaitAtOnceOrTimeout and WaitEndsTruly. -/
theorem witness_Wait : (session [0x10]).Running ∧ 1 ≤ (session [0x10]).rx.length ∧ (session [0x10]).rx.length < 2 ∧
    (session []).rx.length ≤ (session []).cfg.rxCapacity ∧ (session []).cfg.rxCapacity < 17 := by decide
/-- Of WaitAtOnceOrTimeout and WaitEndsTruly, held: the bytes there, a timeout, still held. -/
theorem witness_WaitHeld :
    let s := heldAt [waitFrame 2 .tServe] [0x10] [.timeout]
    let u := heldAt [waitFrame 2 .tServe] [0x10, 0x11] []
    let w := heldAt [waitFrame 2 .tServe] [] [.ctrl]
    s.Running ∧ CtrlTurn s ∧ s.seq = waitFrame 2 .tServe :: [] ∧ s.rx.length < 2 ∧ s.mayTimeOut = true ∧
      u.Running ∧ CtrlTurn u ∧ 2 ≤ u.rx.length ∧ w.Running ∧ CtrlTurn w ∧ w.mayTimeOut = false :=
  ⟨by decide, turn_of_slot (.inr rfl), rfl, by decide, by decide, by decide, turn_of_end rfl (by decide), by decide,
    by decide, turn_of_slot (.inl rfl), by decide⟩
/-- Of ReadBufferFull and ReadBufferShort. -/
theorem witness_ReadBuffer : 2 ≤ (session [1, 2]).rx.length ∧ (session [1, 2]).rx.length < 3 := by decide
/-- Of ReadBufferShort, held with HOST steps still to come, and with none. -/
theorem witness_ReadBufferHeld :
    let s := heldAt [waitFrame 3 .tServe, .op (.readBuffer 3) 0] [1, 2] [.timeout, .env (.hostSend 9)]
    let u := heldAt [waitFrame 3 .tServe, .op (.readBuffer 3) 0] [] []
    s.Running ∧ CtrlTurn s ∧ s.mayTimeOut = true ∧ s.seq = waitFrame 3 .tServe :: .op (.readBuffer 3) 0 :: [] ∧
      u.Running ∧ CtrlTurn u ∧ u.mayTimeOut = true :=
  ⟨by decide, turn_of_slot (.inr rfl), by decide, rfl, by decide, turn_of_end rfl (by decide), by decide⟩
/-- Of IntegerReads: each width, the bytes there, too few, and held. -/
theorem witness_IntegerReads : 4 ≤ (session [1, 2, 3, 4]).rx.length ∧ (session []).rx.length < 1 ∧
    (session [1]).rx.length < 2 ∧ (session [1, 2, 3]).rx.length < 4 ∧ [(0xFF : Byte), 0x7F].length = 2 ∧
    ready.cfg.addrWidth ≤ 15 := by decide
theorem witness_IntegerReadsHeld :
    let s := heldAt [waitFrame 4 .tServe, .op (.readBuffer 4) 0, .op .readI32 0] [1, 2, 3] [.timeout, .env (.hostSend 9)]
    let u := heldAt [waitFrame 2 .tServe, .op (.readBuffer 2) 0, .op .readI16 0] [1] []
    let w := heldAt [waitFrame 1 .tServe, .op (.readBuffer 1) 0, .op .readI8 0] [] []
    s.Running ∧ CtrlTurn s ∧ s.mayTimeOut = true ∧ s.rx.length < 4 ∧
      s.seq = waitFrame 4 .tServe :: .op (.readBuffer 4) 0 :: .op .readI32 0 :: [] ∧
      u.Running ∧ CtrlTurn u ∧ u.mayTimeOut = true ∧ u.rx.length < 2 ∧
      w.Running ∧ CtrlTurn w ∧ w.mayTimeOut = true ∧ w.rx.length < 1 :=
  ⟨by decide, turn_of_slot (.inr rfl), by decide, by decide, rfl, by decide, turn_of_end rfl (by decide), by decide,
    by decide, by decide, turn_of_end rfl (by decide), by decide, by decide⟩
theorem witness_WriteBufferSends : ready.Quiet ∧ ready.link = true ∧
    LinkStays [.env (.hostSend 1), .ctrl, .env .linkUp, .timeout] := by decide
theorem witness_PrintsText : (0 : Byte) ∉ ([] : List Byte) ∧ (0 : Byte) ∉ ([0x6F, 0x6B] : List Byte) ∧
    (0 : Byte) ∈ ([0x41, 0x00] : List Byte) := by decide
theorem witness_RegistersHandler : ready.inHandler = false ∧ (0x61 : Byte) ≠ 0x73 ∧ (0x61 : Byte) ≠ 0x62 ∧
    (0x61 : Byte) ∉ ready.cfg.extraReserved ∧ (bodyOf ready.cfg 4).isSome = true ∧
    (0x00 : Byte) ∈ ({ ready.cfg with extraReserved := [0x00] } : Config).extraReserved := by decide
theorem witness_HandshakeReplies : let s := { ready with rx := [0x73, 0x10] }
    s.inHandler = false ∧ s.Quiet ∧ s.fsm = .disconnected ∧ s.link = true ∧ s.rx = 0x73 :: [0x10] ∧ ready.rx = [] := by
  decide
/-- Of HandshakeReplies, held: no byte and a timeout, a byte come meanwhile. -/
theorem witness_HandshakeHeld :
    let l := [waitFrame 1 .tHandshake, .op .handshakeAttempt 0, .op .serve 0]
    let s : State := { ready with seq := l, sched := [.timeout] }
    let u : State := { s with rx := [0x41], sched := [.ctrl, .env .linkDown] }
    s.fsm = .disconnected ∧ s.Running ∧ CtrlTurn s ∧ s.rx = [] ∧ s.mayTimeOut = true ∧
      s.seq = waitFrame 1 .tHandshake :: .op .handshakeAttempt 0 :: [.op .serve 0] ∧
      u.Running ∧ CtrlTurn u ∧ u.rx = 0x41 :: [] :=
  ⟨rfl, by decide, turn_of_slot (.inr rfl), rfl, by decide, rfl, by decide, turn_of_slot (.inl rfl), rfl⟩
theorem witness_ServeByState : ready.inHandler = false ∧ ready.fsm = .disconnected ∧
    (session []).inHandler = false ∧ (session []).fsm = .connected := by decide
theorem session_table (rx : List Byte) : TableOk (session rx) := by
  refine ⟨rfl, ?_⟩
  intro e he
  simp only [session, List.mem_cons, List.not_mem_nil, or_false] at he
  rcases he with rfl | rfl | rfl <;> exact ⟨by decide, rfl, rfl⟩
theorem witness_ServeConnectedOutcomes : (session [0x99]).inHandler = false ∧ (session [0x99]).Quiet ∧
    (session [0x99]).fsm = .connected ∧ (session [0x99]).link = true ∧ (session [0x99]).rx = 0x99 :: [] ∧
    (0x99 : Byte) ≠ 0x62 ∧ (session [0x99]).tableAt 0x99 = some 0 ∧ (session [0x98]).tableAt 0x98 = none ∧
    (session [0x62]).rx = 0x62 :: [] ∧ (session []).rx = [] := by decide
theorem witness_ServeConnectedTable : TableOk (session [0x99]) := session_table _
/-- Of ServeConnectedOutcomes, held: the timeout. -/
theorem witness_ServeConnectedHeld :
    let s := heldAt [waitFrame 1 .tServe, .op .serveConnected 0, .op .serve 1] [] [.timeout, .env (.hostSend 0x62)]
    s.fsm = .connected ∧ TableOk s ∧ s.Running ∧ CtrlTurn s ∧ s.mayTimeOut = true ∧ s.rx = [] ∧
      s.seq = waitFrame 1 .tServe :: .op .serveConnected 0 :: [.op .serve 1] :=
  ⟨rfl, session_table [], by decide, turn_of_slot (.inr rfl), by decide, rfl, rfl⟩
theorem witness_HostCodes : ready.inHandler = false ∧ ready.link = true ∧ ready.fsm = .disconnected ∧
    (session []).fsm = .connected ∧ (session []).tableAt 0x73 = none ∧ (session []).tableAt 0x10 = some 1 ∧
    bodyOf (session []).cfg 1 = bodies[1]? := by decide +kernel
theorem witness_DeviceCodes : ready.inHandler = false ∧ ready.link = true ∧ (inHandler []).link = true ∧
    (inHandler []).seq = .handler 0x10 (bodies.getD 1 []) 0 [] :: [.op .serveConnected 3, .op .serve 1] := by
  decide +kernel
theorem witness_HandlerRestriction : (inHandler []).inHandler = true ∧ handlerMayIssue .init = false ∧
    notACall .init = false ∧ handlerMayIssue (.write 5 0x3C) = true := by decide +kernel
theorem witness_HandlerCallStep : let s := inHandler [0x2A]
    s.Running ∧ CtrlTurn s ∧ s.seq = .handler 0x10 (bodies.getD 1 []) 0 [] :: [.op .serveConnected 3, .op .serve 1] ∧
      (bodies.getD 1 [])[0]? = some (.call (some 0) .readI8) ∧ callInstr [] .readI8 = some .readI8 :=
  ⟨by decide, turn_of_end rfl (by decide), by decide +kernel, by decide +kernel, rfl⟩
/-- Of HandlerCallStep, its premise about `exec`: the byte there, and the call held in its wait. -/
theorem witness_HandlerCallRuns :
    let s := { (inHandler [0x2A]).turnTaken with ret := Value.none }
    let u := { (inHandler []).turnTaken with ret := Value.none }
    exec .readI8 s = .next (after (exec .readI8 s)) ∧ (after (exec .readI8 s)).Running ∧
      exec .readI8 u = .next (after (exec .readI8 u)) ∧ (after (exec .readI8 u)).Running :=
  ⟨eq_after (by decide +kernel), by decide +kernel, eq_after (by decide +kernel), by decide +kernel⟩
/-- Of EnvelopeAroundHandler, its first part: past the last statement, and at `ret`, with SERVE's frames below. -/
theorem witness_HandlerReturns :
    let body : Handler := [.ret, .call none (.writeI8 (.num 1))]
    let s := heldAt [.handler 0x10 body 2 [(0, .int 7)], .op .serveConnected 3, .op .serve 1] [] [.ctrl, .env .linkDown]
    let u := heldAt [.handler 0x10 body 0 [], .op .serveConnected 3, .op .serve 1] [] []
    s.Running ∧ CtrlTurn s ∧ s.link = true ∧
      s.seq = .handler 0x10 body 2 [(0, .int 7)] :: [.op .serveConnected 3, .op .serve 1] ∧ body[2]? = none ∧
      u.Running ∧ CtrlTurn u ∧ u.seq = .handler 0x10 body 0 [] :: [.op .serveConnected 3, .op .serve 1] ∧
      body[0]? = some .ret :=
  ⟨by decide, turn_of_slot (.inl rfl), rfl, rfl, rfl, by decide, turn_of_end rfl (by decide), rfl, rfl⟩
/-- Of EnvelopeAroundHandler, its second part. -/
theorem witness_Envelope : let s := session [0x99, 0x2A]
    s.Running ∧ s.Quiet ∧ s.seq = [] ∧ s.calls = [] ∧ s.busy = none ∧ s.ret = .none ∧ s.link = true ∧
      s.fsm = .connected ∧ s.rx = 0x99 :: [0x2A] ∧ (0x99 : Byte) ≠ 0x62 ∧ s.tableAt 0x99 = some 0 ∧ bodyOf s.cfg 0 = some [] := by
  decide +kernel
theorem witness_HostSends : ready.link = true ∧ ready.rx.length < ready.cfg.rxCapacity ∧
    ({ ready with link := false } : State).link = false ∧
    (session (List.replicate 16 0)).cfg.rxCapacity ≤ (session (List.replicate 16 0)).rx.length := by decide
theorem witness_StepRunsDecoded : State.reset.Running ∧ decodeTableWord 16 0x87FF = some (.write 0x7FF 0) := by
  decide +kernel
theorem witness_TurnOrder :
    let h : State := { ready with seq := [.op (.delay .tSettle) 1], busy := some (5, 1) }
    ({ ready with sched := [.env (.hostSend 0x73)] } : State).sched = .env (.hostSend 0x73) :: [] ∧
      h.sched = [] ∧ h.busy ≠ none ∧ State.reset.seq = [] ∧ State.reset.calls = .init :: [] ∧
      ready.seq = [] ∧ ready.calls = [] ∧ (heldAt [.op .serve 0] [] []).seq = .op .serve 0 :: [] ∧
      (heldAt [.op .serveConnected 3, .op .serve 1] [] []).seq = .op .serveConnected 3 :: [.op .serve 1] ∧
      (∀ n d, Instr.serveConnected ≠ .waitForBytes n d) ∧ Instr.serveConnected ≠ .delay .tSettle :=
  ⟨rfl, rfl, by decide, rfl, rfl, rfl, rfl, rfl, rfl, nofun, nofun⟩
/-- Of TurnOrder: turns of CTRL's, under each head of the schedule. -/
theorem witness_TurnOrderTurns : State.reset.Running ∧ CtrlTurn State.reset ∧
    CtrlTurn { State.reset with sched := [.ctrl, .env .linkDown] } ∧
    CtrlTurn { State.reset with sched := [.timeout, .env .linkDown] } :=
  ⟨by decide, turn_of_end rfl (by decide), turn_of_slot (.inl rfl), turn_of_slot (.inr rfl)⟩
theorem witness_StoppedControllerStays :
    let s := after (exec (.read 0) State.reset)
    let u := after (exec (.dataIn 8) ready)
    CtrlTurn s ∧ s.faults = .notInitialised (.read 0) :: [] ∧ CtrlTurn u ∧ u.faults = [] ∧
      u.refused = some (.unmodelled (.dataIn 8)) :=
  ⟨turn_of_end (by decide +kernel) (by decide +kernel), by decide +kernel,
    turn_of_end (by decide +kernel) (by decide +kernel), by decide +kernel, by decide +kernel⟩
/-- Of StepsOnlyAdd, and with `reset_inv` and `reset_wire` of StepKeepsInv and StepKeepsWireFifo. -/
theorem witness_Step : step State.reset = .next (after (step State.reset)) := eq_after (by decide +kernel)
theorem reset_inv : Inv State.reset :=
  ⟨⟨by decide, by decide, by decide⟩, ⟨rfl, fun _ h => (by cases h), fun _ h => (by cases h)⟩,
    ⟨rfl, fun _ h => (by cases h)⟩, ⟨fun h => (by cases h), fun h => (by cases h)⟩, by decide, rfl⟩
theorem ready_inv : Inv ready := by
  refine ⟨⟨by decide, by decide, by decide⟩, ⟨by decide, by decide, fun _ h => (by cases h)⟩, ⟨rfl, fun _ h => (by cases h)⟩,
    ⟨fun _ => rfl, fun _ => ⟨rfl, rfl, rfl, rfl⟩⟩, by decide, rfl⟩
theorem reset_wire : WireFifo State.reset := ⟨List.suffix_refl _, List.Sublist.refl _⟩
/-- Of PowerOnMeetsInvariants. -/
theorem witness_PowerOn : ConfigOk Config.launch ∧ ConfigOk { Config.launch with addrWidth := 1, rxCapacity := 1 } ∧
    ConfigOk { Config.launch with addrWidth := 15 } := by decide
theorem witness_OwnersWrite : exec (.write 5 0xC3) ready = .next (after (exec (.write 5 0xC3) ready)) :=
  eq_after (by decide +kernel)
/-- Of ControllerReset. -/
theorem witness_ControllerReset : ready.busy = none ∧ Inv ready ∧
    ({ ready with busy := some (0x7FF, 1) } : State).busy = some (0x7FF, 1) := ⟨rfl, ready_inv, rfl⟩
/-- Of HeldOperationGoesOn: at TOP, the byte coming while READ_I8 is held. -/
theorem witness_HeldOperationGoesOn :
    let t := after (exec .readI8 (session []))
    let u : State := { t with rx := [0x2A], hist := [.rx 0x2A] }
    notACall .readI8 = false ∧ (session []).seq = [] ∧ exec .readI8 (session []) = .next t ∧
      t.seq = waitFrame 1 Config.launch.rxTimeoutReset :: [.op (.readBuffer 1) 0, .op .readI8 0] ∧
      OthersOnly t u ∧ u.Running ∧ u.ret = .none ∧ CtrlTurn u ∧ 1 ≤ u.rx.length :=
  ⟨rfl, rfl, eq_after (by decide +kernel), by decide +kernel, ⟨.inl ⟨rfl, rfl⟩, rfl⟩, by decide +kernel,
    by decide +kernel, turn_of_end (by decide +kernel) (by decide +kernel), by decide⟩
/-- Of HeldOperationGoesOn: in a handler. -/
theorem witness_HeldInHandler :
    let t := after (exec .readI8 (inHandler []))
    let u : State := { t with rx := [0x2A], hist := [.rx 0x2A] }
    (inHandler []).inHandler = true ∧ exec .readI8 (inHandler []) = .next t ∧
      t.seq = waitFrame 1 Config.launch.rxTimeoutReset ::
        [.op (.readBuffer 1) 0, .op .readI8 0] ++ (inHandler []).seq ∧
      OthersOnly t u ∧ u.Running ∧ u.ret = .none ∧ CtrlTurn u ∧ 1 ≤ u.rx.length :=
  ⟨by decide, eq_after (by decide +kernel), by decide +kernel, ⟨.inl ⟨rfl, rfl⟩, rfl⟩, by decide +kernel,
    by decide +kernel, turn_of_end (by decide +kernel) (by decide +kernel), by decide⟩
theorem witness_OnlyWriteChangesCells : ready.cfg.addrWidth ≤ 15 ∧ ready.busy = none := by decide

end Sys2Proof.Tests
end

section
/-! SUPPORT. Small facts the proofs share: an operation outside a handler, pieces in a row, a state whose field already holds
the value put there, and CTRL's place after a piece of an operation. -/

namespace Sys2Proof.Machine

/-! ### Outcomes and pieces -/

theorem unlessHandler_top {s : State} (h : s.inHandler = false) (i : Instr)
    (k : Host.Outcome State Fault Refusal) : unlessHandler i s k = k := by
  rw [unlessHandler, h, if_neg Bool.false_ne_true]

/-- An operation that answers no value leaves the state its last piece left. -/
theorem finish_state {α : Type} (x : Flow α) : (x.finish fun _ t => t) = .next x.state := by
  cases x <;> rfl

theorem Flow.bind_assoc {α β γ : Type} (x : Flow α) (k : α → State → Flow β) (l : β → State → Flow γ) :
    (x.bind k).bind l = x.bind fun a t => (k a t).bind l := by
  cases x <;> rfl

theorem Flow.bind_ok {α : Type} (x : Flow α) : x.bind .ok = x := by
  cases x <;> rfl

/-! ### States -/

/-- The two connection states (R25). -/
theorem fsm_cases (f : Fsm) : f = .disconnected ∨ f = .connected := by
  cases f
  · exact .inl rfl
  · exact .inr rfl

theorem RunOnly.running {s t : State} (h : RunOnly s t) (hr : s.Running) : t.Running := by
  rw [h.2]; exact hr

theorem RunOnly.answer {s t : State} (h : RunOnly s t) : t.ret = s.ret := by
  rw [h.2]

theorem ServerKeeps.answer {s t : State} (h : ServerKeeps s t) : t.ret = s.ret := by
  rw [h.only.2]

theorem ret_eta {s : State} {v : Value} (h : s.ret = v) : ({ s with ret := v } : State) = s := by
  rw [← h]

theorem back_eta {s : State} {l : List Frame} (h : s.seq = l) : s.back l = s := by
  rw [← h]; rfl

/-! ### The place a piece leaves (spec/10_state.md R27) -/

theorem dataIn_place (p : Line) (s : State) : (dataIn p s).2.seq = s.seq := by
  obtain ⟨n, e⟩ := dataIn_eq p s
  rw [e]

theorem strobe_place (a : Nat) (d : Byte) (s : State) : (strobe a d s).seq = s.seq := by
  obtain ⟨b, n, e, -⟩ := strobe_eq a d s
  rw [e]

theorem drivenByte_place (l : List Line) (d : Byte) (s : State) : (drivenByte l d s).2.seq = s.seq := by
  obtain ⟨n, e, -⟩ := drivenByte_eq l d s
  rw [e]

theorem txPush_place (b : Byte) (s : State) : (txPush b s).seq = s.seq := by
  obtain ⟨d, n, e, -⟩ := txPush_eq b s
  rw [e]

theorem readAfterWait_place (n : Nat) (ok : Bool) (base : List Frame) (s : State) :
    (readAfterWait n ok base s).2.seq = base := by
  unfold readAfterWait
  split <;> rfl

theorem handshakeRest_place (ok : Bool) (base : List Frame) (s : State) : (handshakeRest ok base s).seq = base := by
  unfold handshakeRest
  split
  · split <;> rfl
  · rfl

theorem connectedByte_returned {b : Byte} {base : List Frame} {s t : State}
    (h : connectedByte b base s = .ok () t) : t.seq = base := by
  unfold connectedByte dispatchOpcode at h
  split at h
  · cases h; rfl
  · split at h
    · split at h <;> cases h
    · cases h; rfl

theorem connectedRest_returned {ok : Bool} {base : List Frame} {s t : State}
    (h : connectedRest ok base s = .ok () t) : t.seq = base := by
  unfold connectedRest at h
  split at h
  · split at h
    · exact connectedByte_returned h
    · cases h; rfl
  · cases h; rfl

theorem serveAgain_returned {base : List Frame} {s t : State} (h : serveAgain base s = .ok () t) : t.seq = base := by
  unfold serveAgain at h
  split at h <;> cases h
  rfl

end Sys2Proof.Machine
end

section
/-! Whose turn it is (spec/00_scope.md R6, R7, spec/10_state.md R27): what a turn of CTRL's answers, by CTRL's place. -/

namespace Sys2Proof.Machine

/-! ### A stopped CTRL -/

theorem ctrlOrStop_fault {s : State} {f : Fault} {l : List Fault} (h : s.faults = f :: l) (late : Bool) :
    ctrlOrStop late s = .fault f := by
  simp only [ctrlOrStop, h]

theorem ctrlOrStop_refused {s : State} {r : Refusal} (hf : s.faults = []) (h : s.refused = some r) (late : Bool) :
    ctrlOrStop late s = .refused r := by
  simp only [ctrlOrStop, hf, h]

/-- Settles O51: CTRL's turn looks at the marks of a stopped run first. -/
theorem stoppedControllerStays : Obligations.StoppedControllerStays := by
  intro s hc
  refine ⟨fun f l hf => ?_, fun r hf hr => ?_⟩
  · rw [step, nextTurn_ctrl hc, ctrlOrStop_fault (s := s.turnTaken) hf]
  · rw [step, nextTurn_ctrl hc, ctrlOrStop_refused (s := s.turnTaken) hf hr]

/-! ### A running CTRL -/

/-- At TOP the program's next call is due (R132). -/
theorem ctrlTurn_call {s : State} {i : Instr} {r : List Instr} (hs : s.seq = []) (hc : s.calls = i :: r)
    (late : Bool) : ctrlTurn late s = .run i [] { s with calls := r } := by
  simp only [ctrlTurn, hs, hc]

/-- At TOP with no call left SERVE is due (R132). -/
theorem ctrlTurn_serve {s : State} (hs : s.seq = []) (hc : s.calls = []) (late : Bool) :
    ctrlTurn late s = .run .serve [] s := by
  simp only [ctrlTurn, hs, hc]

/-- Inside an operation that is not held, that operation is due: SERVE's loop, whose frame stays below each attempt's
(assumption log 16). -/
theorem ctrlTurn_op {s : State} {i : Instr} {k : Nat} {base : List Frame} (hs : s.seq = .op i k :: base)
    (h : k = 0 ∨ (∀ n d, i ≠ .waitForBytes n d) ∧ i ≠ .delay .tSettle) (late : Bool) :
    ctrlTurn late s = .run i base (s.back base) := by
  unfold ctrlTurn
  rw [hs]
  split
  case h_1 he => cases he
  case h_2 he => cases he
  case h_3 he =>
    cases he
    rcases h with h | ⟨h, -⟩
    · cases h
    · exact absurd rfl (h _ _)
  case h_4 he =>
    cases he
    rcases h with h | ⟨-, h⟩
    · cases h
    · exact absurd rfl h
  case h_5 he => cases he; rfl

/-- A turn at which CTRL runs an operation: the operation answers a next state, and what called it goes on. -/
theorem step_runs {s u : State} {i : Instr} {base : List Frame} (hr : s.Running) (hc : CtrlTurn s)
    (h : ctrlTurn s.mayTimeOut s.turnTaken = .run i base u) :
    ∃ t, exec i { u with ret := .none } = .next t ∧ step s = .next (afterRun base t) := by
  obtain ⟨t, e, -⟩ := exec_keeps i { u with ret := .none }
  exact ⟨t, e, by rw [step_run hr hc h, e, afterOutcome]⟩

/-- Settles O50: the head of the schedule decides whose turn it is, whether CTRL has stopped or not (assumption log 29), and
CTRL's place what its turn runs; inside an operation that is not held the place is SERVE's (log 16). -/
theorem turnOrder : Obligations.TurnOrder := by
  intro s
  refine ⟨fun e r hs => ?_, fun hs hb => step_eeLast hs hb, fun hr hc => ⟨fun i r hs hl => ?_, fun hs hl => ?_,
    fun i k base hs hk => ?_⟩⟩
  · rw [step, nextTurn, hs]
  · exact step_runs hr hc (ctrlTurn_call (s := s.turnTaken) hs hl _)
  · exact step_runs hr hc (ctrlTurn_serve (s := s.turnTaken) hs hl _)
  · exact step_runs hr hc (ctrlTurn_op (s := s.turnTaken) hs hk _)

end Sys2Proof.Machine
end

section
/-! The bus operations as functions of the state they start in (spec/41_bus_controller.md R81 to R85): what each leaves
of the bus, the counts, the EEPROM and the answer, under every schedule (spec/00_scope.md R6). -/

namespace Sys2Proof.Machine

/-! ### The operations past their checks -/

theorem busGuard_ready {a : Nat} {s : State} (h : BusReady a s) (i : Instr) : busGuard i a s = none := by
  obtain ⟨hi, -, -, ha⟩ := h
  simp [busGuard, hi, ha]

theorem exec_init_top {s : State} (h : s.inHandler = false) : exec .init s = .next (initBus s.seq s).state :=
  (unlessHandler_top h .init _).trans (finish_state _)

theorem exec_setAddress_ready {a : Nat} {s : State} (h : s.inHandler = false) (hb : BusReady a s) (oe : Bool) :
    exec (.setAddress a oe) s = .next (presentAddress a oe s.seq s).state := by
  change unlessHandler _ _ _ = _
  rw [unlessHandler_top h, busGuard_ready hb]
  exact finish_state _

theorem exec_read_ready {a : Nat} {s : State} (hb : BusReady a s) :
    exec (.read a) s = (readCell a s.seq s).finish fun r t => { t with ret := .u8 r } := by
  change execRead a s = _
  rw [execRead, busGuard_ready hb]

theorem exec_write_ready {a : Nat} {s : State} (hb : BusReady a s) (v : Byte) :
    exec (.write a v) s = .next (writeCell a v s.seq s).state := by
  change execWrite a v s = _
  rw [execWrite, busGuard_ready hb]
  exact finish_state _

/-- The control pins of a ready bus (R19, R82). -/
theorem BusReady.pins {a : Nat} {s : State} (h : BusReady a s) :
    s.ctlReady = true ∧ s.pinSdata.mode = .out ∧ s.pinSclk = ⟨.out, false⟩ ∧ s.pinLatch = ⟨.out, false⟩ ∧
      s.pinWe = ⟨.out, true⟩ := by
  obtain ⟨hi, ⟨hc, hp⟩, -, -⟩ := h
  exact ⟨hc hi, hp (hc hi)⟩

/-! ### The bus at the end of each -/

theorem InitEnd.busIs {base : List Frame} {s t : State} (h : InitEnd base s t) :
    BusIs 0 (allLines .inp) s.dout t :=
  ⟨h.stage, h.q, h.dir, h.dout, h.pinSdata, h.pinSclk, h.pinLatch, h.pinWe, h.ctlReady, h.initDone⟩

theorem Presented.busIs {w : Srw} {base : List Frame} {a : Nat} {s t : State} (h : Presented w base s t)
    (hb : BusReady a s) : BusIs w s.dir s.dout t := by
  obtain ⟨-, p1, p2, p3, p4⟩ := hb.pins
  exact ⟨h.stage, h.q, h.dir, h.dout, by rw [h.pinSdata, p1], by rw [h.pinSclk, p2], by rw [h.pinLatch, p3],
    by rw [h.pinWe, p4], h.ctlReady, h.initDone.trans hb.1⟩

theorem ReadEnd.busIs {base : List Frame} {a : Nat} {s t : State} (h : ReadEnd a base s t) (hb : BusReady a s) :
    BusIs (srwWord a true) (allLines .inp) s.dout t := by
  obtain ⟨-, p1, p2, p3, p4⟩ := hb.pins
  exact ⟨h.stage, h.q, h.dir, h.dout, by rw [h.pinSdata, p1], by rw [h.pinSclk, p2], by rw [h.pinLatch, p3],
    by rw [h.pinWe, p4], h.ctlReady, h.initDone.trans hb.1⟩

/-- The write phase of WRITE begins where its READ ends. -/
theorem WriteEnd.busIs {base : List Frame} {a : Nat} {v : Byte} {s u t : State} (h : WriteEnd a v u t)
    (hu : ReadEnd a base s u) (hb : BusReady a s) : BusIs (srwWord a false) (allLines .out) v t := by
  obtain ⟨-, -, -, -, u1, u2, u3, u4, -, u5⟩ := hu.busIs hb
  exact ⟨h.stage, h.q, h.dir, h.dout, by rw [h.pinSdata, u1], by rw [h.pinSclk, u2], by rw [h.pinLatch, u3],
    by rw [h.pinWe, u4], h.ctlReady, h.initDone.trans u5⟩

/-! ### The EEPROM once the write cycle is over -/

theorem eeComplete_idle {s : State} {m : List Host.Cell} (hb : s.busy = none) (hc : s.cell = m) :
    (eeComplete s).cell = m := by
  simp only [eeComplete, hb, hc]

theorem eeComplete_busy {s : State} {a : Nat} {d : Byte} (h : s.busy = some (a, d)) :
    (eeComplete s).cell = Memory.write s.cell a d := by
  simp only [eeComplete, h]

/-- A performed WRITE, returned or held in its settle delay, puts its byte. -/
theorem WriteStands.cells {a : Nat} {v : Byte} {base : List Frame} {s t : State} (h : WriteStands a v base s t) :
    (eeComplete t).cell = Memory.write s.cell a v := by
  rcases h with ⟨-, hb, hc⟩ | ⟨-, hb, hc⟩
  · exact eeComplete_idle hb hc
  · rw [eeComplete_busy hb, hc]

/-! ### What each does -/

/-- What a bus operation does: the word in the chain, the lines, the counts, the array once no write cycle is in progress,
and the answer. -/
structure BusEffect where
  word : Srw
  dir : Vector Dir 8
  dout : Byte
  pushes : Nat
  latches : Nat
  pulses : Nat
  cell : List Host.Cell
  ret : Value

/-- `t` comes from `s` by an operation that does `e`. -/
def BusEffect.Leads (e : BusEffect) (s t : State) : Prop :=
  BusIs e.word e.dir e.dout t ∧ Counted e.pushes e.latches e.pulses s t ∧ (eeComplete t).cell = e.cell ∧
    t.ret = e.ret

/-- INIT (R81). -/
def initEffect (s : State) : BusEffect := ⟨0, allLines .inp, s.dout, 2, 1, 0, s.cell, s.ret⟩

/-- SET_ADDRESS (R82). -/
def setAddressEffect (a : Nat) (oe : Bool) (s : State) : BusEffect :=
  ⟨srwWord a oe, s.dir, s.dout, 2, 1, 0, s.cell, s.ret⟩

/-- READ (R84). -/
def readEffect (a : Nat) (s : State) : BusEffect :=
  ⟨srwWord a true, allLines .inp, s.dout, 2, 1, 0, s.cell, .u8 (s.cellByte a)⟩

/-- WRITE (R85): elided where the cell holds the byte, performed where it does not. -/
def writeEffect (a : Nat) (v : Byte) (s : State) : BusEffect :=
  if s.cellByte a = v then ⟨srwWord a true, allLines .inp, s.dout, 2, 1, 0, s.cell, s.ret⟩
  else ⟨srwWord a false, allLines .out, v, 4, 2, 1, Memory.write s.cell a v, s.ret⟩

theorem exec_init_leads {s : State} (h : s.inHandler = false) (hb : s.busy = none) :
    ∃ t, exec .init s = .next t ∧ (initEffect s).Leads s t := by
  obtain ⟨t, e, r⟩ := initBus_spec s.seq s
  exact ⟨t, by rw [exec_init_top h, e]; rfl, r.busIs, ⟨r.pushes, r.latches, r.wePulses⟩,
    eeComplete_idle (r.run.idle hb).1 (r.run.idle hb).2, r.run.ret⟩

theorem exec_setAddress_leads {a : Nat} {s : State} (h : s.inHandler = false) (hr : BusReady a s)
    (hb : s.busy = none) (oe : Bool) :
    ∃ t, exec (.setAddress a oe) s = .next t ∧ (setAddressEffect a oe s).Leads s t := by
  obtain ⟨t, e, r⟩ := presentAddress_spec a oe s.seq hr.pins.1
  exact ⟨t, by rw [exec_setAddress_ready h hr, e]; rfl, r.busIs hr, ⟨r.pushes, r.latches, r.wePulses⟩,
    eeComplete_idle (r.run.idle hb).1 (r.run.idle hb).2, r.run.ret⟩

theorem exec_read_leads {a : Nat} {s : State} (hr : BusReady a s) (hb : s.busy = none)
    (hm : s.cfg.accessTimeMet = true) :
    ∃ t, exec (.read a) s = .next t ∧ (readEffect a s).Leads s t := by
  have ⟨_, _, hw, ha⟩ := hr
  obtain ⟨hc, -, -, -, hwe⟩ := hr.pins
  obtain ⟨r, t, e, k, hv⟩ := readCell_spec a s.seq hc
  obtain ⟨hv, -⟩ := hv hb hm (by rw [hwe]) hw ha
  exact ⟨{ t with ret := .u8 r }, by rw [exec_read_ready hr, e]; rfl, k.busIs hr, ⟨k.pushes, k.latches, k.wePulses⟩,
    eeComplete_idle (k.run.idle hb).1 (k.run.idle hb).2, by rw [hv]; rfl⟩

theorem exec_write_leads {a : Nat} {s : State} (hr : BusReady a s) (hb : s.busy = none) (hsw : SwitchesOn s.cfg)
    (v : Byte) : ∃ t, exec (.write a v) s = .next t ∧ (writeEffect a v s).Leads s t := by
  have ⟨_, _, hw, ha⟩ := hr
  obtain ⟨hc, -, -, -, hwe⟩ := hr.pins
  unfold writeEffect
  split
  case isTrue hv =>
    obtain ⟨u, k, -, e⟩ := writeCell_elides a v s.seq hc hb hsw.1 (by rw [hwe]) hw ha hv
    obtain ⟨c1, c2, c3⟩ := counters_append (s := u) (t := u.emit (.elided a)) [.elided a] rfl
    exact ⟨(u.emit (.elided a)).back s.seq, by rw [exec_write_ready hr, e]; rfl, k.busIs hr,
      ⟨c1.trans k.pushes, c2.trans k.latches, c3.trans k.wePulses⟩,
      eeComplete_idle (k.run.idle hb).1 (k.run.idle hb).2, k.run.ret⟩
  case isFalse hv =>
    obtain ⟨u, t, k, -, e, w, p⟩ := writeCell_performs a v s.seq hc hb hsw (by rw [hwe]) hw ha hv
    exact ⟨t, by rw [exec_write_ready hr, e], w.busIs k hr,
      ⟨w.pushes.trans (congrArg (· + 2) k.pushes), w.latches.trans (congrArg (· + 1) k.latches),
        w.wePulses.trans (congrArg (· + 1) k.wePulses)⟩,
      by rw [p.cells, (k.run.idle hb).2], w.ret.trans k.run.ret⟩

/-! ### The schedule -/

theorem BusIs.same {w : Srw} {d : Vector Dir 8} {v : Byte} {t u : State} (h : BusIs w d v t) (k : BusIs w d v u) :
    SameBus t u := by
  obtain ⟨h1, h2, h3, h4, h5, h6, h7, h8, h9, h10⟩ := h
  obtain ⟨k1, k2, k3, k4, k5, k6, k7, k8, k9, k10⟩ := k
  exact ⟨k1.trans h1.symm, k2.trans h2.symm, k3.trans h3.symm, k4.trans h4.symm, k5.trans h5.symm, k6.trans h6.symm,
    k7.trans h7.symm, k8.trans h8.symm, k9.trans h9.symm, k10.trans h10.symm⟩

/-- Two ends of one effect agree on all that `BusEffect` names. -/
theorem BusEffect.Leads.agree {e : BusEffect} {s t u : State} (h : e.Leads s t) (k : e.Leads s u) :
    SameBus t u ∧ (eeComplete t).cell = (eeComplete u).cell ∧ t.ret = u.ret ∧ Counted 0 0 0 t u := by
  obtain ⟨hb, ⟨h1, h2, h3⟩, hc, hr⟩ := h
  obtain ⟨kb, ⟨k1, k2, k3⟩, kc, kr⟩ := k
  exact ⟨hb.same kb, hc.trans kc.symm, hr.trans kr.symm, k1.trans h1.symm, k2.trans h2.symm, k3.trans h3.symm⟩

/-- An operation whose effect is one for every schedule does not see the schedule. -/
theorem ignoresSchedule_of_effect {i : Instr} {s : State} (e : BusEffect)
    (h : ∀ l, ∃ t, exec i { s with sched := l } = .next t ∧ e.Leads s t) (l m : List Slot) :
    ∃ t u, exec i { s with sched := l } = .next t ∧ exec i { s with sched := m } = .next u ∧
      SameBus t u ∧ (eeComplete t).cell = (eeComplete u).cell ∧ t.ret = u.ret ∧ Counted 0 0 0 t u := by
  obtain ⟨t, et, ht⟩ := h l
  obtain ⟨u, eu, hu⟩ := h m
  exact ⟨t, u, et, eu, ht.agree hu⟩

/-- Settles O27: each bus operation's effect is a function of the state that does not read the schedule. -/
theorem busIgnoresSchedule : Obligations.BusIgnoresSchedule := by
  intro i a s l m hi ht hr hb hsw
  rcases hi with rfl | ⟨oe, rfl⟩ | rfl | ⟨v, rfl⟩
  · exact ignoresSchedule_of_effect (initEffect s)
      (fun n => exec_init_leads (s := { s with sched := n }) ht hb) l m
  · exact ignoresSchedule_of_effect (setAddressEffect a oe s)
      (fun n => exec_setAddress_leads (s := { s with sched := n }) ht hr hb oe) l m
  · exact ignoresSchedule_of_effect (readEffect a s)
      (fun n => exec_read_leads (s := { s with sched := n }) hr hb hsw.1) l m
  · exact ignoresSchedule_of_effect (writeEffect a v s)
      (fun n => exec_write_leads (s := { s with sched := n }) hr hb hsw v) l m

end Sys2Proof.Machine
end

section
/-! A hold is a wait and nothing else (spec/00_scope.md R7, spec/42_byte_transport.md R92): which operations can be held in
WAIT_FOR_BYTES, where they are held, and how each goes on once the bytes are there. -/

namespace Sys2Proof.Machine

/-! ### Places that are no wait -/

/-- The place is not the one of a held WAIT_FOR_BYTES. -/
def NoWait (l : List Frame) : Prop := ∀ n d rest, l ≠ waitFrame n d :: rest

/-- CTRL at TOP or in a running handler, where an operation can be called, is in no wait. -/
theorem noWait_of_callable {s : State} (h : s.seq = [] ∨ s.inHandler = true) : NoWait s.seq := by
  intro n d rest e
  rcases h with h | h
  · rw [h] at e; cases e
  · rw [State.inHandler, e] at h; cases h

theorem noWait_op {i : Instr} (h : ∀ n d, i ≠ .waitForBytes n d) (k : Nat) (base : List Frame) :
    NoWait (.op i k :: base) := by
  intro n d rest e
  cases e
  exact h n d rfl

/-- Where an operation has stopped at a fault or a refusal. -/
theorem noWait_first (i : Instr) (base : List Frame) : NoWait (.op i 0 :: base) := nofun

theorem noWait_handler (op : Byte) (body : Handler) (pc : Nat) (vars : List (Nat × Value)) (base : List Frame) :
    NoWait (.handler op body pc vars :: base) := nofun

theorem bind_noWait {α β : Type} {x : Flow α} {k : α → State → Flow β} (h : NoWait x.state.seq)
    (hk : ∀ a t, NoWait (k a t).state.seq) : NoWait (x.bind k).state.seq := by
  cases x with
  | ok a t => exact hk a t
  | stop t => exact h

theorem push8_noWait (b : Byte) {s : State} (h : NoWait s.seq) : NoWait (push8 b s).state.seq := by
  cases hr : s.ctlReady with
  | true => rw [push8_ok b hr]; exact h
  | false => rw [push8, hr]; exact noWait_first _ _

theorem latch_noWait {s : State} (h : NoWait s.seq) : NoWait (latch s).state.seq := by
  cases hr : s.ctlReady with
  | true => rw [latch_ok hr]; exact h
  | false => rw [latch, hr]; exact noWait_first _ _

theorem wePulse_noWait {s : State} (h : NoWait s.seq) : NoWait (wePulse s).state.seq := by
  unfold wePulse
  split
  · exact noWait_first _ _
  · split
    · exact noWait_first _ _
    · split
      · exact noWait_first _ _
      · simp only [Flow.state, strobe_place, drivenByte_place]; exact h

theorem settle_noWait {base : List Frame} (h : NoWait base) (s : State) : NoWait (settle base s).state.seq := by
  unfold settle
  split
  · exact noWait_op (by nofun) _ _
  · exact h

theorem presentAddress_noWait (a : Nat) (oe : Bool) {base : List Frame} (h : NoWait base) (s : State) :
    NoWait (presentAddress a oe base s).state.seq := by
  unfold presentAddress
  refine bind_noWait (push8_noWait _ (noWait_op (by nofun) _ _)) fun _ t => ?_
  refine bind_noWait (push8_noWait _ (noWait_op (by nofun) _ _)) fun _ u => ?_
  exact bind_noWait (latch_noWait (noWait_op (by nofun) _ _)) fun _ v => h

theorem initBus_noWait {base : List Frame} (h : NoWait base) (s : State) : NoWait (initBus base s).state.seq := by
  obtain ⟨t, e, r⟩ := initBus_spec base s
  rw [e, Flow.state, r.seq]
  exact h

theorem readCell_noWait (a : Nat) {base : List Frame} (h : NoWait base) (s : State) :
    NoWait (readCell a base s).state.seq := by
  unfold readCell
  refine bind_noWait (presentAddress_noWait _ _ (noWait_op (by nofun) _ _) _) fun _ t => ?_
  generalize sampleByte (.read a) base 9 linesDown 0 t = x
  exact h

theorem writePhase_noWait (a : Nat) (v : Byte) {base : List Frame} (h : NoWait base) (s : State) :
    NoWait (writePhase a v base s).state.seq := by
  unfold writePhase
  refine bind_noWait (presentAddress_noWait _ _ (noWait_op (by nofun) _ _) _) fun _ t => ?_
  refine bind_noWait (wePulse_noWait (noWait_op (by nofun) _ _)) fun _ u => ?_
  exact bind_noWait (settle_noWait (noWait_op (by nofun) _ _) _) fun _ w => h

theorem writeCell_noWait (a : Nat) (v : Byte) {base : List Frame} (h : NoWait base) (s : State) :
    NoWait (writeCell a v base s).state.seq := by
  unfold writeCell
  refine bind_noWait (readCell_noWait a (noWait_op (by nofun) _ _) s) fun cur t => ?_
  split
  · exact h
  · exact writePhase_noWait a v h t

theorem dispatchOpcode_noWait (op : Byte) {base : List Frame} (h : NoWait base) (s : State) :
    NoWait (dispatchOpcode op base s).state.seq := by
  unfold dispatchOpcode
  split
  · split
    · exact noWait_handler _ _ _ _ _
    · exact noWait_first _ _
  · exact h

theorem connectedByte_noWait (b : Byte) {base : List Frame} (h : NoWait base) (s : State) :
    NoWait (connectedByte b base s).state.seq := by
  unfold connectedByte
  split
  · exact h
  · exact dispatchOpcode_noWait _ h s

theorem serverByte_noWait (b : Byte) {base : List Frame} (h : NoWait base) (s : State) :
    NoWait (serverByte b base s).state.seq := by
  unfold serverByte
  split
  · exact h
  · exact connectedByte_noWait b h s

theorem printText_noWait (i : Instr) (text : List Byte) {s : State} (h : NoWait s.seq) :
    NoWait (printText i text s).seq := by
  unfold printText
  split
  · exact noWait_first _ _
  · exact h

/-! ### The operations that wait -/

/-- How many bytes an operation waits for at its start, and the frames its wait is called from, innermost first; `f` is the
session it is called in. -/
def waitOf (f : Fsm) : Instr → Option (Nat × List Frame)
  | .waitForBytes n _ => some (n, [])
  | .readBuffer n => some (n, [.op (.readBuffer n) 0])
  | .readI8 => some (1, [.op (.readBuffer 1) 0, .op .readI8 0])
  | .readI16 => some (2, [.op (.readBuffer 2) 0, .op .readI16 0])
  | .readI32 => some (4, [.op (.readBuffer 4) 0, .op .readI32 0])
  | .handshakeAttempt => some (1, [.op .handshakeAttempt 0])
  | .serveConnected => some (1, [.op .serveConnected 0])
  | .serve => some (1, match f with
    | .disconnected => [.op .handshakeAttempt 0, .op .serve 0]
    | .connected => [.op .serveConnected 0, .op .serve 1])
  | _ => none

/-- An operation with a result, or one that CTRL has not returned from. -/
theorem finish_noWait {α : Type} {t : State} {x : Flow α} {k : α → State → State} (h : NoWait x.state.seq)
    (hk : ∀ a u, (k a u).seq = u.seq) (e : x.finish k = .next t) : NoWait t.seq :=
  finish_elim (P := fun t => NoWait t.seq) h (fun a u hu => by rw [hk]; exact hu) e

/-- An operation closed to handlers: refused, or what it does elsewhere. -/
theorem unlessHandler_noWait {i : Instr} {s t : State} {k : Host.Outcome State Fault Refusal}
    (hk : k = .next t → NoWait t.seq) (e : unlessHandler i s k = .next t) : NoWait t.seq :=
  unlessHandler_elim (P := fun t => NoWait t.seq) (fun _ => noWait_first _ _) hk e

/-- An operation that does not wait ends in no wait. -/
theorem exec_noWait {i : Instr} {s t : State} (hi : notACall i = false) (hw : waitOf s.fsm i = none)
    (h : NoWait s.seq) (e : exec i s = .next t) : NoWait t.seq := by
  cases i with
  | push8 b => exact unlessHandler_noWait (finish_noWait (push8_noWait b h) fun _ _ => rfl) e
  | latch => exact unlessHandler_noWait (finish_noWait (latch_noWait h) fun _ _ => rfl) e
  | dataDir p d =>
    refine unlessHandler_noWait (fun e => ?_) e
    split at e <;> cases e
    · rw [dataDir_eq]; exact h
    · exact noWait_first _ _
  | dataOut p x =>
    refine unlessHandler_noWait (fun e => ?_) e
    split at e <;> cases e
    · exact h
    · exact noWait_first _ _
  | dataIn p =>
    refine unlessHandler_noWait (fun e => ?_) e
    split at e
    · rename_i l _
      have hp := dataIn_place l s
      generalize dataIn l s = x at e hp
      cases e
      simp only [hp]; exact h
    · cases e; exact noWait_first _ _
  | wePulse => exact unlessHandler_noWait (finish_noWait (wePulse_noWait h) fun _ _ => rfl) e
  | delay d =>
    refine unlessHandler_noWait (fun e => ?_) e
    split at e
    · exact finish_noWait (settle_noWait h s) (fun _ _ => rfl) e
    · cases e; exact h
    · cases e; exact noWait_first _ _
  | init => exact unlessHandler_noWait (finish_noWait (initBus_noWait h s) fun _ _ => rfl) e
  | setAddress a oe =>
    refine unlessHandler_noWait (fun e => ?_) e
    exact busGuard_elim (P := fun t => NoWait t.seq) (fun _ => noWait_first _ _)
      (finish_noWait (presentAddress_noWait a oe h s) fun _ _ => rfl) e
  | read a =>
    exact busGuard_elim (P := fun t => NoWait t.seq) (fun _ => noWait_first _ _)
      (finish_noWait (readCell_noWait a h s) (k := fun r u => { u with ret := .u8 r }) fun _ _ => rfl) e
  | write a v =>
    exact busGuard_elim (P := fun t => NoWait t.seq) (fun _ => noWait_first _ _)
      (finish_noWait (writeCell_noWait a v h s) fun _ _ => rfl) e
  | isConnected | setRxTimeout _ | available => cases e; exact h
  | writeBuffer _ | writeI8 _ | writeI16 _ | writeI32 _ => cases e; exact h
  | print _ | println _ => cases e; exact printText_noWait _ _ h
  | registerHandler op g =>
    refine unlessHandler_noWait (fun e => ?_) e
    split at e
    · cases e; exact noWait_first _ _
    · split at e <;> cases e
      · exact h
      · exact noWait_first _ _
  | syn | bye | request _ =>
    exact unlessHandler_noWait (finish_noWait (serverByte_noWait _ h s) fun _ _ => rfl) e
  | ack | err | rst => exact unlessHandler_noWait (fun e => by cases e; rw [txPush_place]; exact h) e
  | waitForBytes _ _ | readBuffer _ | readI8 | readI16 | readI32 => cases hw
  | serve | handshakeAttempt | serveConnected => cases hw
  | fin | hostSend _ | hostLinkUp | hostLinkDown | eeComplete => cases hi

/-! ### Where an operation is held -/

/-- An operation that begins with a wait, ends in one, and past its wait ends in none, is held where it began. -/
theorem held_of_finish {α : Type} {n m : Nat} {d c : Duration} {base rest : List Frame} {s t : State}
    {k : Bool → State → Flow α} {f : α → State → State} (e : ((waitBytes m c base s).bind k).finish f = .next t)
    (ht : t.seq = waitFrame n d :: rest) (hk : ∀ r, (k true (s.back base)).finish f = .next r → NoWait r.seq) :
    m = n ∧ t = { s with seq := waitFrame n d :: base } := by
  by_cases h : m ≤ s.rx.length
  · rw [waitBytes_now c base h] at e
    exact absurd ht (hk _ e n d rest)
  · rw [waitBytes_held c base (by omega)] at e
    cases e
    cases ht
    exact ⟨rfl, rfl⟩

/-- An operation closed to handlers that is held has been called at TOP. -/
theorem unlessHandler_held {i : Instr} {s t : State} {k : Host.Outcome State Fault Refusal} {n : Nat} {d : Duration}
    {rest : List Frame} (e : unlessHandler i s k = .next t) (ht : t.seq = waitFrame n d :: rest) :
    s.inHandler = false ∧ k = .next t := by
  unfold unlessHandler at e
  split at e
  · cases e; exact absurd ht (noWait_first _ _ n d rest)
  · rename_i h
    exact ⟨by simpa using h, e⟩

theorem readBytes_eq (n : Nat) (base : List Frame) (s : State) :
    readBytes n base s = (waitBytes n s.rxTimeout (.op (.readBuffer n) 0 :: base) s).bind fun ok t =>
      .ok (readAfterWait n ok base t).1 (readAfterWait n ok base t).2 := rfl

theorem serveAgain_noWait {base : List Frame} (h : NoWait base) (s : State) :
    NoWait (serveAgain base s).state.seq := by
  unfold serveAgain
  split
  · exact h
  · exact noWait_first _ _

theorem connectedRest_noWait (ok : Bool) {base : List Frame} (h : NoWait base) (s : State) :
    NoWait (connectedRest ok base s).state.seq := by
  unfold connectedRest
  split
  · split
    · exact connectedByte_noWait _ h _
    · exact h
  · exact h

/-- The integer reads, held. -/
theorem readInt_held {i : Instr} {m n : Nat} {d : Duration} {rest : List Frame} {s t : State} (h : NoWait s.seq)
    (e : readInt i m s = .next t) (ht : t.seq = waitFrame n d :: rest) :
    m = n ∧ t = { s with seq := waitFrame n d :: .op (.readBuffer m) 0 :: .op i 0 :: s.seq } := by
  rw [readInt, readBytes_eq] at e
  exact held_of_finish e ht fun r e => by cases e; exact h

/-- SERVE held, by the session: in its handshake attempt, or in its server call. -/
theorem serve_held {n : Nat} {d : Duration} {base rest : List Frame} {s t : State} (h : NoWait base)
    (e : (serve base s).finish (fun _ t => t) = .next t) (ht : t.seq = waitFrame n d :: rest) :
    ∃ l, waitOf s.fsm .serve = some (n, l) ∧ t = { s with seq := waitFrame n d :: (l ++ base) } := by
  unfold serve at e
  rcases fsm_cases s.fsm with hf | hf
  · simp only [hf] at e
    rw [handshakeAttempt, Flow.bind_assoc] at e
    obtain ⟨rfl, et⟩ := held_of_finish e ht fun r e => finish_noWait (serveAgain_noWait h _) (fun _ _ => rfl) e
    exact ⟨[.op .handshakeAttempt 0, .op .serve 0], by rw [hf]; rfl, et⟩
  · simp only [hf] at e
    rw [serveConnected, Flow.bind_assoc] at e
    obtain ⟨rfl, et⟩ := held_of_finish e ht fun r e =>
      finish_noWait (bind_noWait (k := fun _ t => .ok () (t.back base))
        (connectedRest_noWait true (noWait_op (by nofun) _ _) _) fun _ _ => h) (fun _ _ => rfl) e
    exact ⟨[.op .serveConnected 0, .op .serve 1], by rw [hf]; rfl, et⟩

/-- An operation that is held in a wait is one of those that wait, and it is held where `waitOf` says: nothing but its place
has changed. In a running handler it is one a handler may issue. -/
theorem exec_held {i : Instr} {s t : State} {n : Nat} {d : Duration} {rest : List Frame} (hi : notACall i = false)
    (hs : s.seq = [] ∨ s.inHandler = true) (e : exec i s = .next t) (ht : t.seq = waitFrame n d :: rest) :
    ∃ l, waitOf s.fsm i = some (n, l) ∧ (s.inHandler = true → handlerMayIssue i = true) ∧
      t = { s with seq := waitFrame n d :: (l ++ s.seq) } := by
  have h := noWait_of_callable hs
  rcases Option.eq_none_or_eq_some (waitOf s.fsm i) with hw | ⟨p, hw⟩
  · exact absurd ht (exec_noWait hi hw h e n d rest)
  · cases i with
    | waitForBytes m c =>
      change (waitBytes m c s.seq s).finish _ = _ at e
      rw [← Flow.bind_ok (waitBytes m c s.seq s)] at e
      obtain ⟨rfl, et⟩ := held_of_finish e ht fun r e => by cases e; exact h
      exact ⟨_, rfl, fun _ => rfl, et⟩
    | readBuffer m =>
      change (readBytes m s.seq s).finish _ = _ at e
      rw [readBytes_eq] at e
      obtain ⟨rfl, et⟩ := held_of_finish e ht fun r e => by cases e; simp only [readAfterWait_place]; exact h
      exact ⟨_, rfl, fun _ => rfl, et⟩
    | readI8 | readI16 | readI32 =>
      obtain ⟨rfl, et⟩ := readInt_held h e ht
      exact ⟨_, rfl, fun _ => rfl, et⟩
    | handshakeAttempt =>
      obtain ⟨hh, e⟩ := unlessHandler_held e ht
      obtain ⟨rfl, et⟩ := held_of_finish e ht fun r e => by cases e; rw [handshakeRest_place]; exact h
      exact ⟨_, rfl, by simp [hh], et⟩
    | serveConnected =>
      obtain ⟨hh, e⟩ := unlessHandler_held e ht
      obtain ⟨rfl, et⟩ := held_of_finish e ht fun r e =>
        finish_noWait (connectedRest_noWait true h _) (fun _ _ => rfl) e
      exact ⟨_, rfl, by simp [hh], et⟩
    | serve =>
      obtain ⟨hh, e⟩ := unlessHandler_held e ht
      obtain ⟨l, hl, et⟩ := serve_held h e ht
      exact ⟨l, hl, by simp [hh], et⟩
    | _ => cases hw

/-! ### How it goes on once the bytes are there -/

/-- CTRL's turn in a wait whose bytes are there: the wait returns true (R92). -/
theorem step_wait_met {s : State} {n : Nat} {d : Duration} {base : List Frame} (hr : s.Running) (hc : CtrlTurn s)
    (hs : s.seq = waitFrame n d :: base) (hn : n ≤ s.rx.length) :
    step s = .next (returnTo base (.bool true) (s.turnTaken.back base)) := by
  have hm : waitMet n s.turnTaken = true := decide_eq_true hn
  rw [step_wait hr hc hs, waitAgain, hm, if_pos rfl, afterLook]

/-- At TOP nothing goes on. -/
theorem afterRun_top {t : State} (h : t.ret = .none) : afterRun [] t = t := by
  unfold afterRun
  simp only [ret_eta h]
  split
  · rename_i hc
    exact back_eta (by simpa using (Bool.and_eq_true_iff.1 hc).2)
  · rfl

/-- READ_BUFFER goes on after its wait (R93). -/
theorem returnTo_readBuffer (n k : Nat) (ok : Bool) (base : List Frame) (s : State) :
    returnTo (.op (.readBuffer n) k :: base) (.bool ok) s =
      returnTo base (.bytes (readAfterWait n ok base s).1) (readAfterWait n ok base s).2 := rfl

/-- HANDSHAKE_ATTEMPT goes on after its wait (R111). -/
theorem returnTo_handshakeAttempt (k : Nat) (ok : Bool) (base : List Frame) (s : State) :
    returnTo (.op .handshakeAttempt k :: base) (.bool ok) s = returnTo base .none (handshakeRest ok base s) := rfl

/-- SERVE_CONNECTED goes on after its wait (R112). -/
theorem returnTo_serveConnected (k : Nat) (ok : Bool) (base : List Frame) (s : State) :
    returnTo (.op .serveConnected k :: base) (.bool ok) s =
      afterLook base (connectedRest ok base s) fun _ => .none := by
  simp only [returnTo, goOn]
  cases connectedRest ok base s <;> rfl

/-- SERVE goes on after a handshake attempt (R110). -/
theorem returnTo_serve_attempt (v : Value) (base : List Frame) (s : State) :
    returnTo (.op .serve 0 :: base) v s = afterLook base (serveAgain base s) fun _ => .none := by
  simp only [returnTo, goOn, if_true]
  cases serveAgain base s <;> rfl

/-- Going on at TOP is returning. -/
theorem afterLook_top {x : Flow Unit} (h : ∀ t, x = .ok () t → t.seq = []) :
    afterLook [] x (fun _ => .none) = x.state := by
  cases x with
  | ok _ t => exact back_eta (h t rfl)
  | stop t => rfl

/-- An operation that has returned the value `v`. -/
theorem afterRun_answered {t : State} {base : List Frame} (hr : t.Running) (hv : t.ret = .none) (hs : t.seq = base)
    (v : Value) : afterRun base { t with ret := v } = returnTo base v t := by
  rw [afterRun_returned (t := { t with ret := v }) hr hs]
  exact congrArg _ (ret_eta hv)

/-- READ_BUFFER called with the bytes there (R93). -/
theorem readBytes_now {n : Nat} (base : List Frame) {s : State} (h : n ≤ s.rx.length) :
    readBytes n base s = .ok (readAfterWait n true base (s.back (.op (.readBuffer n) 0 :: base))).1
      (readAfterWait n true base (s.back (.op (.readBuffer n) 0 :: base))).2 := by
  rw [readBytes_eq, waitBytes_now _ _ h]; rfl

/-- What READ_BUFFER does once its bytes are there leaves CTRL running and the answer register as it was. -/
theorem readAfterWait_run {n : Nat} (base l : List Frame) {s : State} (h : n ≤ s.rx.length) :
    RunOnly s (readAfterWait n true base (s.back l)).2 := by
  obtain ⟨t, _, e, -, hr, -⟩ := readAfterWait_full base (s := s.back l) h
  rw [e]
  exact (back_run l s).trans hr

section reads

variable {s : State} {n : Nat} (hn : n ≤ s.rx.length) (hr : s.Running) (hv : s.ret = .none)
include hn hr hv

theorem waitForBytes_goesOn (d : Duration) : ∃ w, exec (.waitForBytes n d) s = .next w ∧
    returnTo s.seq (.bool true) (s.back s.seq) = afterRun s.seq w := by
  refine ⟨{ s.back s.seq with ret := .bool true }, ?_, (afterRun_answered (t := s.back s.seq) hr hv rfl _).symm⟩
  change (waitBytes n d s.seq s).finish _ = _
  rw [waitBytes_now d s.seq hn]; rfl

theorem readBuffer_goesOn : ∃ w, exec (.readBuffer n) s = .next w ∧
    returnTo (.op (.readBuffer n) 0 :: s.seq) (.bool true) (s.back (.op (.readBuffer n) 0 :: s.seq)) =
      afterRun s.seq w := by
  have h := readAfterWait_run s.seq (.op (.readBuffer n) 0 :: s.seq) hn
  refine ⟨_, ?_, (afterRun_answered (h.running hr) (h.answer.trans hv) (readAfterWait_place _ _ _ _) _).symm⟩
  change (readBytes n s.seq s).finish _ = _
  rw [readBytes_now s.seq hn]; rfl

theorem readInt_goesOn (i : Instr)
    (hi : ∀ bs base u, goOn i 0 (.bytes bs) base u = .ok (.int (leiDecode n bs)) (u.back base)) :
    ∃ w, readInt i n s = .next w ∧
      returnTo (.op (.readBuffer n) 0 :: .op i 0 :: s.seq) (.bool true)
        (s.back (.op (.readBuffer n) 0 :: .op i 0 :: s.seq)) = afterRun s.seq w := by
  have h := (readAfterWait_run (.op i 0 :: s.seq) (.op (.readBuffer n) 0 :: .op i 0 :: s.seq) hn).trans
    (back_run s.seq _)
  rw [returnTo_readBuffer, returnTo, hi]
  refine ⟨_, ?_, (afterRun_answered (h.running hr) (h.answer.trans hv) rfl _).symm⟩
  rw [readInt, readBytes_now _ hn]; rfl

end reads

/-! The server's calls run at TOP alone, where nothing goes on after them. -/

section calls

variable {s : State} (hn : 1 ≤ s.rx.length) (hs : s.seq = []) (hv : s.ret = .none)
include hn hs hv

theorem handshakeAttempt_goesOn : ∃ w, exec .handshakeAttempt s = .next w ∧
    returnTo [.op .handshakeAttempt 0] (.bool true) (s.back [.op .handshakeAttempt 0]) = afterRun [] w := by
  have hh : s.inHandler = false := by rw [State.inHandler, hs]
  have h := (back_server [.op .handshakeAttempt 0] s).trans (handshakeRest_keeps true [] _)
  refine ⟨handshakeRest true [] (s.back [.op .handshakeAttempt 0]), ?_, ?_⟩
  · refine (unlessHandler_top hh _ _).trans ?_
    rw [hs, handshakeAttempt, waitBytes_now _ _ hn]; rfl
  · rw [afterRun_top (h.answer.trans hv), returnTo_handshakeAttempt]
    exact back_eta (handshakeRest_place _ _ _)

theorem serveConnected_goesOn : ∃ w, exec .serveConnected s = .next w ∧
    returnTo [.op .serveConnected 0] (.bool true) (s.back [.op .serveConnected 0]) = afterRun [] w := by
  have hh : s.inHandler = false := by rw [State.inHandler, hs]
  have h := (back_server [.op .serveConnected 0] s).trans (connectedRest_keeps true [] _)
  refine ⟨(connectedRest true [] (s.back [.op .serveConnected 0])).state, ?_, ?_⟩
  · refine (unlessHandler_top hh _ _).trans ?_
    rw [hs, serveConnected, waitBytes_now _ _ hn, finish_state]; rfl
  · rw [afterRun_top (h.answer.trans hv), returnTo_serveConnected, afterLook_top fun _ => connectedRest_returned]

theorem serve_goesOn : ∃ l w, waitOf s.fsm .serve = some (1, l) ∧ exec .serve s = .next w ∧
    returnTo l (.bool true) (s.back l) = afterRun [] w := by
  have hh : s.inHandler = false := by rw [State.inHandler, hs]
  have hw : (serve [] s).state.ret = .none := (serve_keeps [] s).answer.trans hv
  refine ⟨_, (serve [] s).state, rfl, ?_, ?_⟩
  · refine (unlessHandler_top hh _ _).trans ?_
    rw [hs, finish_state]
  · rw [afterRun_top hw, serve]
    rcases fsm_cases s.fsm with hf | hf <;> simp only [hf]
    · rw [handshakeAttempt, waitBytes_now _ _ hn, returnTo_handshakeAttempt, returnTo_serve_attempt,
        afterLook_top fun _ => serveAgain_returned]
      rfl
    · rw [serveConnected, waitBytes_now _ _ hn, returnTo_serveConnected]
      simp only [Flow.bind]
      cases connectedRest true [.op .serve 1] (s.back (.op .serveConnected 0 :: [.op .serve 1])) <;> rfl

end calls

/-- An operation called with its bytes there answers what it would have gone on to had it been held. -/
theorem exec_goesOn {i : Instr} {s : State} {n : Nat} {l : List Frame} (hw : waitOf s.fsm i = some (n, l))
    (hs : s.seq = [] ∨ s.inHandler = true) (hm : s.inHandler = true → handlerMayIssue i = true)
    (hn : n ≤ s.rx.length) (hr : s.Running) (hv : s.ret = .none) :
    ∃ w, exec i s = .next w ∧ returnTo (l ++ s.seq) (.bool true) (s.back (l ++ s.seq)) = afterRun s.seq w := by
  have top : handlerMayIssue i = false → s.seq = [] := fun h =>
    hs.resolve_right fun hh => by rw [hm hh] at h; cases h
  cases i with
  | waitForBytes m d => cases hw; exact waitForBytes_goesOn hn hr hv d
  | readBuffer m => cases hw; exact readBuffer_goesOn hn hr hv
  | readI8 => cases hw; exact readInt_goesOn hn hr hv .readI8 fun _ _ _ => rfl
  | readI16 => cases hw; exact readInt_goesOn hn hr hv .readI16 fun _ _ _ => rfl
  | readI32 => cases hw; exact readInt_goesOn hn hr hv .readI32 fun _ _ _ => rfl
  | handshakeAttempt => cases hw; rw [top rfl]; exact handshakeAttempt_goesOn hn (top rfl) hv
  | serveConnected => cases hw; rw [top rfl]; exact serveConnected_goesOn hn (top rfl) hv
  | serve =>
    cases hw
    rw [top rfl, List.append_nil]
    obtain ⟨l, w, hl, e⟩ := serve_goesOn hn (top rfl) hv
    cases hl
    exact ⟨w, e⟩
  | _ => cases hw

/-- Settles O60: an operation is held only where `waitOf` says, before anything but its place has changed; the wait that
returns true goes on there as the operation called with its bytes there does past its first look. -/
theorem heldOperationGoesOn : Obligations.HeldOperationGoesOn := by
  intro i s t u n d rest hi hs e ht ho hr hv hc hn
  obtain ⟨l, hw, hm, rfl⟩ := exec_held hi hs e ht
  have hu : u.seq = waitFrame n d :: (l ++ s.seq) := by rw [ho.2]
  have hf : u.fsm = s.fsm := by rw [ho.2]
  obtain ⟨w, ew, hg⟩ := exec_goesOn (s := { u.turnTaken with seq := s.seq }) (hf ▸ hw) hs hm hn hr hv
  exact ⟨w, ew, by rw [step_wait_met hr hc hu hn, ← hg]; rfl⟩

end Sys2Proof.Machine
end

section
/-! What a step can do, said once (`step_cases`), and the invariants every step keeps (spec/10_state.md R19 to R33). -/

namespace Sys2Proof.Machine

/-! ### Going on after a call returns: what the sequencer writes, the server may write -/

/-- CTRL goes to a statement of a handler. -/
theorem handlerAt_server (op : Byte) (body : Handler) (base : List Frame) (pc : Nat) (vars : List (Nat × Value))
    (s : State) : ServerKeeps s (handlerAt op body base pc vars s) := session_server s s.fsm _

/-- Only the mark `refused` is set: a refusal that leaves CTRL where it was, so of whichever operation. -/
theorem mark_server (r : Refusal) (s : State) : ServerKeeps s { s with refused := some (s.refused.getD r) } :=
  (refuse_server .fin r s).trans (back_server s.seq _)

theorem goOn_server (i : Instr) (k : Nat) (v : Value) (base : List Frame) (s : State) :
    ServerKeeps s (goOn i k v base s).state := by
  unfold goOn
  split
  case h_1 n ok => exact readAfterWait_server n ok base s
  case h_5 ok => exact handshakeRest_keeps ok base s
  case h_6 ok => exact bind_server (connectedRest_keeps ok base s) fun _ t => ServerKeeps.refl t
  case h_7 =>
    split
    · exact bind_server (serveAgain_keeps base s) fun _ t => ServerKeeps.refl t
    · exact back_server base s
  all_goals exact back_server base s

theorem returnTo_server (l : List Frame) (v : Value) (s : State) : ServerKeeps s (returnTo l v s) := by
  induction l generalizing v s with
  | nil => exact back_server [] s
  | cons f base ih =>
    cases f with
    | handler op body pc vars => exact handlerAt_server _ _ _ _ _ s
    | op i k =>
      have h := goOn_server i k v base s
      simp only [returnTo]
      generalize goOn i k v base s = x at *
      cases x with
      | ok w t => exact ServerKeeps.trans h (ih w t)
      | stop t => exact h

theorem afterLook_server {α : Type} {base : List Frame} {s : State} {x : Flow α} (v : α → Value)
    (h : ServerKeeps s x.state) : ServerKeeps s (afterLook base x v) := by
  cases x with
  | ok a t => exact ServerKeeps.trans h (returnTo_server base (v a) t)
  | stop t => exact h

theorem settleAgain_server (base : List Frame) (s : State) : ServerKeeps s (settleAgain base s).state := by
  unfold settleAgain
  split
  · exact ServerKeeps.refl s
  · exact back_server base s

/-- Once an operation has answered nothing keeps its result (R32). -/
theorem afterRun_ret (base : List Frame) (t : State) : (afterRun base t).ret = .none := by
  unfold afterRun
  simp only []
  split
  · exact (returnTo_server base t.ret _).answer
  · rfl

/-! ### The turns of CTRL's that run no operation -/

theorem handlerTurn_own {op : Byte} {body : Handler} {pc : Nat} {vars : List (Nat × Value)} {base : List Frame}
    {s t : State} (h : handlerTurn op body pc vars base s = .own t) : ServerKeeps s t := by
  unfold handlerTurn at h
  split at h
  case h_3 =>
    split at h <;> cases h
    exact mark_server _ s
  all_goals cases h
  all_goals exact handlerAt_server _ _ _ _ _ s

theorem ctrlTurn_own {late : Bool} {s t : State} (h : ctrlTurn late s = .own t) : ServerKeeps s t := by
  unfold ctrlTurn at h
  split at h
  case h_1 => split at h <;> cases h
  case h_2 => exact handlerTurn_own h
  case h_3 => cases h; exact afterLook_server _ (waitAgain_server _ _ _ s)
  case h_4 => cases h; exact afterLook_server _ (settleAgain_server _ s)
  case h_5 => cases h

theorem ctrlOrStop_own {late : Bool} {s t : State} (h : ctrlOrStop late s = .own t) : ServerKeeps s t := by
  unfold ctrlOrStop at h
  split at h
  · cases h
  · split at h
    · cases h
    · exact ctrlTurn_own h

/-! ### A step -/

/-- The head of the schedule, once it is used up, gives the turn to HOST or EE or to CTRL (R6). -/
theorem nextTurn_cases (s : State) :
    ∃ u, Others s u ∧ ((∃ e, nextTurn s = .env (envInstr e) u) ∨ ∃ late, nextTurn s = ctrlOrStop late u) := by
  unfold nextTurn
  cases hs : s.sched with
  | nil =>
    refine ⟨s, Others.refl s, ?_⟩
    cases hb : s.busy.isSome with
    | true => exact .inl ⟨.eeComplete, by simp [envInstr]⟩
    | false => exact .inr ⟨true, by simp⟩
  | cons x r =>
    refine ⟨{ s with sched := r }, Others.used (hs ▸ List.suffix_cons x r), ?_⟩
    cases x with
    | ctrl => exact .inr ⟨false, rfl⟩
    | timeout => exact .inr ⟨true, rfl⟩
    | env e => exact .inl ⟨e, rfl⟩

/-- The instruction of a HOST or EE step does that step. -/
theorem exec_envInstr (e : Env) (s : State) : exec (envInstr e) s = .next (applyEnv e s) := by
  cases e <;> rfl

/-- What a step can do: HOST or EE moves; CTRL runs an operation, and what called it goes on; or CTRL goes on inside an
operation. -/
theorem step_cases {s t : State} (h : step s = .next t) :
    Others s t ∨
    (∃ i base u w, Keeps s u ∧ exec i { u with ret := .none } = .next w ∧ t = afterRun base w) ∨
    ServerKeeps s t := by
  obtain ⟨u, ho, ⟨e, hn⟩ | ⟨late, hn⟩⟩ := nextTurn_cases s
  · rw [step, hn] at h
    simp only [exec_envInstr, Host.Outcome.next.injEq] at h
    exact .inl (h ▸ ho.trans (applyEnv_others e u))
  · have hs : ServerKeeps s u := ho.only.run.server ho.fwd
    rw [step, hn] at h
    cases hc : ctrlOrStop late u with
    | env i v => exact absurd hc (ctrlOrStop_noEnv late u i v)
    | run i base v =>
      obtain ⟨w, e, -⟩ := exec_keeps i { v with ret := .none }
      simp only [hc, e, afterOutcome, Host.Outcome.next.injEq] at h
      exact .inr (.inl ⟨i, base, v, w, hs.keeps.trans ((ctrlOrStop_keeps late u).1 i base v hc), e, h.symm⟩)
    | own v =>
      simp only [hc, Host.Outcome.next.injEq] at h
      exact .inr (.inr (h ▸ hs.trans (ctrlOrStop_own hc)))
    | fault f => simp only [hc] at h; cases h
    | refused r => simp only [hc] at h; cases h

/-- Every step goes forward and keeps the invariant's parts. -/
theorem step_keeps {s t : State} (h : step s = .next t) : Keeps s t := by
  rcases step_cases h with h | ⟨i, base, u, w, hu, e, rfl⟩ | h
  · exact (h.only.run.server h.fwd).keeps
  · obtain ⟨w', e', hw⟩ := exec_keeps i { u with ret := .none }
    cases e.symm.trans e'
    exact ((hu.trans (ret_keeps u .none)).trans hw).trans (afterRun_keeps base w)
  · exact h.keeps

/-- No step leaves a result behind (R32). -/
theorem step_ret {s t : State} (h : step s = .next t) (hs : s.ret = .none) : t.ret = .none := by
  rcases step_cases h with h | ⟨_, base, _, w, -, -, rfl⟩ | h
  · exact h.ret.trans hs
  · exact afterRun_ret base w
  · exact h.answer.trans hs

/-- Settles O52: a step goes forward in a run (`Fwd`), whoever moves. -/
theorem stepsOnlyAdd : Obligations.StepsOnlyAdd := by
  intro s t h
  obtain ⟨hc, hf, hr, ⟨l, hl, -⟩, hb, -⟩ := (step_keeps h).fwd
  exact ⟨hc, hf, hr, ⟨l, hl.symm⟩, hb⟩

/-- Settles O53: each part of the invariant is kept by what a step can do; that no result
is kept is the sequencer's doing. -/
theorem stepKeepsInv : Obligations.StepKeepsInv := by
  rintro s t ⟨hcfg, hcells, htable, hpins, hrx, hret⟩ h
  have k := step_keeps h
  have hc : t.cfg = s.cfg := k.fwd.cfg
  exact ⟨by rwa [hc], k.cells hcells, k.table htable, k.pins hpins, by rw [hc]; exact k.fwd.bounded hrx, step_ret h hret⟩

end Sys2Proof.Machine
end

section
/-! Who writes what (spec/10_state.md R34): the fields with an owner, over every operation, and the EEPROM (R28, R29), which
only EE writes and in which only WE_PULSE and WRITE start a cycle. -/

namespace Sys2Proof.Machine

/-! ### EE's part in the bus controller's operations -/

theorem push8_ee (b : Byte) (s : State) : EeMeanwhile s (push8 b s).state := by
  cases h : s.ctlReady with
  | true => rw [push8_ok b h]; exact EeMeanwhile.refl s
  | false => rw [push8, h]; exact EeMeanwhile.refl s

theorem latch_ee (s : State) : EeMeanwhile s (latch s).state := by
  cases h : s.ctlReady with
  | true => rw [latch_ok h]; exact EeMeanwhile.refl s
  | false => rw [latch, h]; exact EeMeanwhile.refl s

theorem dataDir_ee (p : Line) (d : Dir) (s : State) : EeMeanwhile s (dataDir p d s) := by
  rw [dataDir_eq]; exact EeMeanwhile.refl s

/-- SET_ADDRESS past its checks: it stops at its first push where the control pins are no outputs, or it completes. -/
theorem presentAddress_cases (a : Nat) (oe : Bool) (base : List Frame) (s : State) :
    (∃ t, presentAddress a oe base s = .stop t ∧ EeMeanwhile s t) ∨
      ∃ t, presentAddress a oe base s = .ok () t ∧ Presented (srwWord a oe) base s t := by
  cases h : s.ctlReady with
  | true => exact .inr (presentAddress_spec a oe base h)
  | false =>
    have hm := (micro_kept (.setAddress a oe) 0 base s).ctlReady.trans h
    have he : EeMeanwhile s (s.micro (.setAddress a oe) 0 base) := (micro_busRun _ 0 base s).ee
    refine .inl ⟨(s.micro (.setAddress a oe) 0 base).raise (.push8 (hiByte (srwWord a oe)))
      (.notInitialised (.push8 (hiByte (srwWord a oe)))), ?_, he⟩
    simp only [presentAddress, push8, hm]; rfl

theorem presentAddress_ee (a : Nat) (oe : Bool) (base : List Frame) (s : State) :
    EeMeanwhile s (presentAddress a oe base s).state := by
  rcases presentAddress_cases a oe base s with ⟨t, e, h⟩ | ⟨t, e, h⟩ <;> rw [e]
  · exact h
  · exact h.run.ee

theorem readCell_ee (a : Nat) (base : List Frame) (s : State) : EeMeanwhile s (readCell a base s).state := by
  unfold readCell
  have h : BusRun s ((setDirs (.read a) base .inp 0 linesUp s).micro (.read a) 8 base) :=
    (setDirs_spec _ _ _ _ _ s).run.trans (micro_busRun _ _ _ _)
  refine Flow.bind_keeps (R := EeMeanwhile) EeMeanwhile.trans
    (EeMeanwhile.trans h.ee (presentAddress_ee _ _ _ _)) fun _ t => ?_
  have hx := (sampleByte_spec (.read a) base linesDown 9 0 t).run.ee
  generalize sampleByte (.read a) base 9 linesDown 0 t = x at hx ⊢
  exact hx

theorem settle_ee (base : List Frame) (s : State) : EeMeanwhile s (settle base s).state := by
  rcases settle_spec base s with ⟨e, -⟩ | ⟨e, -⟩ <;> rw [e] <;> exact EeMeanwhile.refl s

theorem initBus_ee (base : List Frame) (s : State) : EeMeanwhile s (initBus base s).state := by
  obtain ⟨t, e, h⟩ := initBus_spec base s
  rw [e]; exact h.run.ee

/-! ### The fields with an owner -/

/-- Of the fields with an owner (R34), and of the EEPROM beyond what EE does, `t` has what `s` has, but for a field whose
clause says that the operation may write it: the handler table, the receive timeout, the session, the bus, the EEPROM. -/
def OwnersKeep (table timeout session bus eeprom : Prop) (s t : State) : Prop :=
  (t.table = s.table ∨ table) ∧ (t.rxTimeout = s.rxTimeout ∨ timeout) ∧ (t.fsm = s.fsm ∨ session) ∧
    (SameBus s t ∨ bus) ∧ (EeMeanwhile s t ∨ eeprom)

section owners

variable {table timeout session bus eeprom : Prop} {s t : State}

/-- The transport writes none of them. -/
theorem WireOnly.owners (h : WireOnly s t) (he : EeMeanwhile s t) :
    OwnersKeep table timeout session bus eeprom s t :=
  ⟨.inl h.table, .inl h.rxTimeout, .inl h.fsm, .inl h.bus, .inl he⟩

theorem OwnersKeep.refl (s : State) : OwnersKeep table timeout session bus eeprom s s :=
  (WireOnly.refl s).owners (EeMeanwhile.refl s)

theorem RunOnly.owners (h : RunOnly s t) : OwnersKeep table timeout session bus eeprom s t := h.wireOnly.owners h.1

/-- The server writes the session. -/
theorem ServerKeeps.owners (h : ServerKeeps s t) (hs : session) :
    OwnersKeep table timeout session bus eeprom s t :=
  ⟨.inl (by rw [h.only.2]), .inl (by rw [h.only.2]), .inr hs, .inl h.sameBus, .inl h.only.1⟩

/-- The bus controller writes the bus. -/
theorem BusOnly.owners (h : BusOnly s t) (hb : bus) (he : EeMeanwhile s t ∨ eeprom) :
    OwnersKeep table timeout session bus eeprom s t :=
  ⟨.inl h.table, .inl h.rxTimeout, .inl h.fsm, .inr hb, he⟩

theorem raise_owners (i : Instr) (f : Fault) (s : State) :
    OwnersKeep table timeout session bus eeprom s (s.raise i f) := OwnersKeep.refl s

theorem refuse_owners (i : Instr) (r : Refusal) (s : State) :
    OwnersKeep table timeout session bus eeprom s (s.refuse i r) := OwnersKeep.refl s

theorem unlessHandler_owners {i : Instr} {k : Host.Outcome State Fault Refusal}
    (hk : k = .next t → OwnersKeep table timeout session bus eeprom s t) (e : unlessHandler i s k = .next t) :
    OwnersKeep table timeout session bus eeprom s t :=
  unlessHandler_elim (P := OwnersKeep table timeout session bus eeprom s) (fun r => refuse_owners i r s) hk e

theorem busGuard_owners {i : Instr} {a : Nat} {o : Host.Outcome State Fault Refusal}
    (hk : o = .next t → OwnersKeep table timeout session bus eeprom s t)
    (e : (match busGuard i a s with
      | some f => Host.Outcome.next (s.raise i f)
      | none => o) = .next t) : OwnersKeep table timeout session bus eeprom s t :=
  busGuard_elim (P := OwnersKeep table timeout session bus eeprom s) (fun f => raise_owners i f s) hk e

/-- An operation that answers a value, back at the place of its caller. -/
theorem finish_owners {α : Type} {x : Flow α} {k : α → State → State}
    (h : OwnersKeep table timeout session bus eeprom s x.state)
    (hk : ∀ a u, ∃ l v, k a u = { u with seq := l, ret := v })
    (e : x.finish k = .next t) : OwnersKeep table timeout session bus eeprom s t :=
  finish_elim (P := OwnersKeep table timeout session bus eeprom s) h
    (fun a u hu => by obtain ⟨l, v, e⟩ := hk a u; rw [e]; exact hu) e

/-- An operation that answers no value. -/
theorem finish_state_owners {α : Type} {x : Flow α} (h : OwnersKeep table timeout session bus eeprom s x.state)
    (e : (x.finish fun _ t => t) = .next t) : OwnersKeep table timeout session bus eeprom s t := by
  rw [finish_state] at e
  cases e
  exact h

theorem sendAll_owners (i : Instr) (l : List Byte) (s : State) :
    OwnersKeep table timeout session bus eeprom s (sendAll i l s) :=
  (sendAll_wireOnly i l s).owners (sendAll_server i l s).only.1

theorem txPush_owners (b : Byte) (s : State) : OwnersKeep table timeout session bus eeprom s (txPush b s) :=
  (txPush_wireOnly b s).owners (txPush_server b s).only.1

theorem printText_owners (i : Instr) (text : List Byte) (s : State) :
    OwnersKeep table timeout session bus eeprom s (printText i text s) := by
  unfold printText
  split
  · exact raise_owners _ _ s
  · exact sendAll_owners _ _ s

theorem readBytes_owners (n : Nat) (base : List Frame) (s : State) :
    OwnersKeep table timeout session bus eeprom s (readBytes n base s).state :=
  (readBytes_wireOnly n base s).owners (readBytes_server n base s).only.1

theorem waitBytes_owners (n : Nat) (d : Duration) (base : List Frame) (s : State) :
    OwnersKeep table timeout session bus eeprom s (waitBytes n d base s).state := by
  obtain ⟨l, e⟩ := waitBytes_seq n d base s
  rw [e]; exact (seq_run s l).owners

theorem settle_owners (base : List Frame) (s : State) :
    OwnersKeep table timeout session bus eeprom s (settle base s).state := by
  rcases settle_spec base s with ⟨e, -⟩ | ⟨e, -⟩ <;> rw [e] <;> exact (seq_run s _).owners

theorem sendFin_owners (s : State) : OwnersKeep table timeout session bus eeprom s (sendFin s) := by
  obtain ⟨k, hf⟩ := sendFin_keeps s
  exact ⟨.inl (by rw [k.only.2]), .inl (by rw [k.only.2]), .inl hf, .inl k.sameBus, .inl k.only.1⟩

theorem applyEnv_owners (e : Env) (s : State) : OwnersKeep table timeout session bus eeprom s (applyEnv e s) :=
  (applyEnv_others e s).only.run.owners

end owners

/-- Every operation writes what its unit owns and nothing of another's: one clause per owner. -/
theorem exec_owners {i : Instr} {s t : State} (e : exec i s = .next t) :
    OwnersKeep (∃ op h, i = .registerHandler op h) (∃ d, i = .setRxTimeout d)
      (i = .serve ∨ i = .handshakeAttempt ∨ i = .serveConnected ∨ i = .syn ∨ i = .bye ∨ ∃ op, i = .request op)
      ((∃ b, i = .push8 b) ∨ i = .latch ∨ (∃ p d, i = .dataDir p d) ∨ (∃ p x, i = .dataOut p x) ∨ i = .wePulse ∨
        i = .init ∨ (∃ a oe, i = .setAddress a oe) ∨ (∃ a, i = .read a) ∨ ∃ a v, i = .write a v)
      (i = .wePulse ∨ ∃ a v, i = .write a v) s t := by
  cases i with
  | push8 b =>
    exact unlessHandler_owners (finish_state_owners ((push8_busOnly b s).owners (by simp) (.inl (push8_ee b s)))) e
  | latch =>
    exact unlessHandler_owners (finish_state_owners ((latch_busOnly s).owners (by simp) (.inl (latch_ee s)))) e
  | dataDir p d =>
    refine unlessHandler_owners (fun e => ?_) e
    split at e <;> cases e
    · exact (dataDir_busOnly _ d s).owners (by simp) (.inl (dataDir_ee _ d s))
    · exact refuse_owners _ _ s
  | dataOut p x =>
    refine unlessHandler_owners (fun e => ?_) e
    split at e <;> cases e
    · exact (dataOut_busOnly _ x s).owners (by simp) (.inl (EeMeanwhile.refl s))
    · exact refuse_owners _ _ s
  | dataIn p =>
    refine unlessHandler_owners (fun e => ?_) e
    split at e
    case h_1 l _ =>
      obtain ⟨n, hn⟩ := dataIn_eq l s
      rw [show dataIn l s = ((dataIn l s).1, { s with draws := n }) from Prod.ext rfl hn] at e
      cases e
      exact OwnersKeep.refl s
    case h_2 => cases e; exact refuse_owners _ _ s
  | wePulse =>
    exact unlessHandler_owners (finish_state_owners ((wePulse_busOnly s).owners (by simp) (.inr (by simp)))) e
  | delay d =>
    refine unlessHandler_owners (fun e => ?_) e
    split at e
    · exact finish_state_owners (settle_owners s.seq s) e
    · cases e; exact OwnersKeep.refl s
    · cases e; exact refuse_owners _ _ s
  | init =>
    exact unlessHandler_owners (finish_state_owners ((initBus_busOnly s.seq s).owners (by simp)
      (.inl (initBus_ee s.seq s)))) e
  | setAddress a oe =>
    refine unlessHandler_owners (fun e => ?_) e
    exact busGuard_owners (finish_state_owners ((presentAddress_busOnly a oe s.seq s).owners (by simp)
      (.inl (presentAddress_ee a oe s.seq s)))) e
  | read a =>
    exact busGuard_owners (finish_owners ((readCell_busOnly a s.seq s).owners (by simp)
      (.inl (readCell_ee a s.seq s))) fun r u => ⟨u.seq, .u8 r, rfl⟩) e
  | write a v =>
    exact busGuard_owners (finish_state_owners ((writeCell_busOnly a v s.seq s).owners (by simp) (.inr (by simp)))) e
  | setRxTimeout d =>
    cases e
    exact ⟨.inl rfl, .inr ⟨d, rfl⟩, .inl rfl, .inl (SameBus.refl s), .inl (EeMeanwhile.refl s)⟩
  | isConnected | available => cases e; exact OwnersKeep.refl s
  | waitForBytes n d =>
    exact finish_owners (waitBytes_owners n d s.seq s) (fun ok u => ⟨u.seq, .bool ok, rfl⟩) e
  | readBuffer n => exact finish_owners (readBytes_owners n s.seq s) (fun bs u => ⟨u.seq, .bytes bs, rfl⟩) e
  | readI8 | readI16 | readI32 => exact finish_owners (readBytes_owners _ _ s) (fun _ _ => ⟨s.seq, _, rfl⟩) e
  | writeBuffer _ | writeI8 _ | writeI16 _ | writeI32 _ => cases e; exact sendAll_owners _ _ s
  | print _ | println _ => cases e; exact printText_owners _ _ s
  | registerHandler op h =>
    refine unlessHandler_owners (fun e => ?_) e
    split at e
    · cases e; exact raise_owners _ _ s
    · split at e <;> cases e
      · exact ⟨.inr ⟨op, h, rfl⟩, .inl rfl, .inl rfl, .inl (SameBus.refl s), .inl (EeMeanwhile.refl s)⟩
      · exact refuse_owners _ _ s
  | serve =>
    exact unlessHandler_owners (finish_state_owners ((serve_keeps s.seq s).owners (by simp))) e
  | handshakeAttempt =>
    exact unlessHandler_owners (finish_state_owners ((handshakeAttempt_keeps s.seq s).owners (by simp))) e
  | serveConnected =>
    exact unlessHandler_owners (finish_state_owners ((serveConnected_keeps s.seq s).owners (by simp))) e
  | syn | bye | request _ =>
    exact unlessHandler_owners (finish_state_owners ((serverByte_keeps _ s.seq s).owners (by simp))) e
  | ack | err | rst => exact unlessHandler_owners (fun e => by cases e; exact txPush_owners _ s) e
  | fin => cases e; exact sendFin_owners s
  | hostSend b => cases e; exact applyEnv_owners (.hostSend b) s
  | hostLinkUp => cases e; exact applyEnv_owners .linkUp s
  | hostLinkDown => cases e; exact applyEnv_owners .linkDown s
  | eeComplete => cases e; exact applyEnv_owners .eeComplete s

/-- Settles O56: the first four clauses of `exec_owners`. -/
theorem ownersWrite : Obligations.OwnersWrite := by
  intro i s t e
  obtain ⟨htable, htimeout, hsession, hbus, -⟩ := exec_owners e
  exact ⟨htable, htimeout, hsession, hbus⟩

end Sys2Proof.Machine
end

section
/-! Which cells an operation changes (spec/10_state.md R28, R29, spec/20_memory.md R44), and what a reset of the controller
leaves (spec/70_reset_and_hazards.md R129). -/

namespace Sys2Proof.Machine

/-! ### Reading the array -/

theorem sameCells_of_cell {s t : State} (h : t.cell = s.cell) : SameCells s t := fun x => by
  simp only [State.cellByte, h]

/-- A write changes its own cell only. -/
theorem cellByte_write_other {s t : State} {a x : Nat} {d : Byte} (h : t.cell = Memory.write s.cell a d) (hx : x ≠ a) :
    t.cellByte x = s.cellByte x := by
  simp only [State.cellByte, h, Memory.read_write_other s.cell d hx]

/-! ### WE_PULSE and WRITE -/

/-- WE_PULSE leaves the array, which EE alone writes, and starts a write cycle of the address on the bus at most
(R78, R80). -/
theorem wePulse_cells (s : State) :
    (wePulse s).state.cell = s.cell ∧
      ((wePulse s).state.busy = s.busy ∨ ∃ d, (wePulse s).state.busy = some (s.busAddress, d)) := by
  unfold wePulse
  split
  · exact ⟨rfl, .inl rfl⟩
  · split
    · exact ⟨rfl, .inl rfl⟩
    · split
      · exact ⟨rfl, .inl rfl⟩
      · obtain ⟨n, e, -⟩ := drivenByte_eq linesUp 0 s
        obtain ⟨b, m, e', hb, -⟩ := strobe_eq s.busAddress (drivenByte linesUp 0 s).1 { s with draws := n }
        simp only [Flow.state, e, e', true_and]
        exact hb.imp_right fun h => ⟨_, h⟩

/-- Between `s` and `t` no cell but `a` has changed, and a write cycle in progress is one of `a`. -/
def OnlyCell (a : Nat) (s t : State) : Prop :=
  (∀ e ∈ t.busy, e.1 = a) ∧ ∀ x, x ≠ a → t.cellByte x = s.cellByte x

theorem OnlyCell.refl (a : Nat) {s : State} (hb : s.busy = none) : OnlyCell a s s := ⟨by simp [hb], fun _ _ => rfl⟩

/-- EE completes no write cycle but one of `a`. -/
theorem OnlyCell.ee {a : Nat} {s t u : State} (h : OnlyCell a s t) (hu : EeMeanwhile t u) : OnlyCell a s u := by
  obtain ⟨hb, hc⟩ := h
  rcases hu with ⟨hub, huc⟩ | ⟨hub, a', d, htb, huc⟩
  · exact ⟨by rwa [hub], fun x hx => (sameCells_of_cell huc x).trans (hc x hx)⟩
  · obtain rfl : a' = a := hb (a', d) htb
    exact ⟨by simp [hub], fun x hx => (cellByte_write_other huc hx).trans (hc x hx)⟩

/-- A pulse at `a`. -/
theorem OnlyCell.pulse {a : Nat} {s t : State} (h : OnlyCell a s t) (ha : t.busAddress = a) :
    OnlyCell a s (wePulse t).state := by
  obtain ⟨hb, hc⟩ := h
  obtain ⟨hcell, hbusy⟩ := wePulse_cells t
  refine ⟨?_, fun x hx => (sameCells_of_cell hcell x).trans (hc x hx)⟩
  rcases hbusy with h | ⟨d, h⟩
  · rwa [h]
  · simp [h, ha]

/-- A piece followed by another keeps what holds of the first piece's end and the second keeps. -/
theorem bind_elim {α β : Type} {x : Flow α} {k : α → State → Flow β} {P : State → Prop} (h : P x.state)
    (hk : ∀ a t, P t → P (k a t).state) : P (x.bind k).state := by
  cases x with
  | ok a t => exact hk a t h
  | stop t => exact h

/-- The write phase pulses write enable, if it gets there, at its own address (R85). -/
theorem writePhase_onlyCell {a : Nat} {s t : State} (h : OnlyCell a s t) (hw : t.cfg.addrWidth ≤ 15)
    (ha : addressInRange t.cfg a = true) (v : Byte) (base : List Frame) :
    OnlyCell a s (writePhase a v base t).state := by
  simp only [writePhase]
  generalize Instr.write a v = i
  have r1 := (setDirs_spec i base .out linesUp 1 t).run.trans (micro_busRun i 9 base _)
  generalize (setDirs i base .out 1 linesUp t).micro i 9 base = m at *
  rcases presentAddress_cases a false (.op i 9 :: base) m with ⟨u, e, hu⟩ | ⟨u, e, p⟩ <;> rw [e]
  · exact (h.ee r1.ee).ee hu
  · have f := driveByte_spec i base v linesUp 10 u
    have k := micro_kept i 18 base (driveByte i base v 10 linesUp u)
    have r := ((r1.trans p.run).trans f.run).trans (micro_busRun i 18 base _)
    simp only [Flow.bind]
    generalize (driveByte i base v 10 linesUp u).micro i 18 base = n at *
    have hq : n.q = srwWord a false := by rw [k.q, f.q, p.q]
    have hn : n.busAddress = a := busAddress_of_word false (by rwa [r.fwd.cfg]) (by rwa [r.fwd.cfg]) hq
    refine bind_elim (P := OnlyCell a s) ((h.ee r.ee).pulse hn) fun _ w hw => ?_
    refine bind_elim (P := OnlyCell a s) ((hw.ee (micro_busRun i 19 base w).ee).ee (settle_ee _ _)) fun _ _ h => h

/-- WRITE past its checks: its READ writes nothing, and it ends there or with the write phase (R85). -/
theorem writeCell_onlyCell {a : Nat} {s : State} (hb : s.busy = none) (hw : s.cfg.addrWidth ≤ 15)
    (ha : addressInRange s.cfg a = true) (v : Byte) (base : List Frame) :
    OnlyCell a s (writeCell a v base s).state := by
  have hc := (readCell_busOnly a (.op (.write a v) 0 :: base) s).fwd.cfg
  have he := (OnlyCell.refl a hb).ee (readCell_ee a (.op (.write a v) 0 :: base) s)
  unfold writeCell
  generalize readCell a (.op (.write a v) 0 :: base) s = x at hc he ⊢
  cases x with
  | stop t => exact he
  | ok cur t =>
    simp only [Flow.bind]
    split
    · exact he
    · exact writePhase_onlyCell he (hc ▸ hw) (hc ▸ ha) v base

theorem exec_wePulse_cell {s t : State} (e : exec .wePulse s = .next t) : t.cell = s.cell :=
  unlessHandler_elim (P := fun t => t.cell = s.cell) (fun _ => rfl)
    (finish_elim (P := fun t => t.cell = s.cell) (wePulse_cells s).1 fun _ _ h => h) e

/-- Past the checks of a bus operation its address is one of the EEPROM's (R118). -/
theorem busGuard_inRange {i : Instr} {a : Nat} {s : State} (h : busGuard i a s = none) :
    addressInRange s.cfg a = true := by
  unfold busGuard at h
  split at h
  · cases h
  · split at h
    · assumption
    · cases h

theorem exec_write_onlyCell {a : Nat} {v : Byte} {s t : State} (hb : s.busy = none) (hw : s.cfg.addrWidth ≤ 15)
    (e : exec (.write a v) s = .next t) : OnlyCell a s t := by
  change execWrite a v s = _ at e
  unfold execWrite at e
  split at e
  case h_1 => cases e; exact OnlyCell.refl a hb
  case h_2 hg =>
    rw [finish_state] at e
    cases e
    exact writeCell_onlyCell hb hw (busGuard_inRange hg) v s.seq

/-- Settles O57: what is not EE's is WE_PULSE's, which leaves the array, or WRITE's, which pulses at its own address. -/
theorem onlyWriteChangesCells : Obligations.OnlyWriteChangesCells := by
  intro i s t hw hb e
  obtain ⟨-, -, -, -, h⟩ := exec_owners e
  rcases h with h | rfl | ⟨a, v, rfl⟩
  · obtain ⟨hbusy, hcell⟩ := h.idle hb
    exact ⟨.inl (sameCells_of_cell hcell), .inl hbusy⟩
  · exact ⟨.inl (sameCells_of_cell (exec_wePulse_cell e)), .inr (.inl rfl)⟩
  · exact ⟨.inr ⟨a, v, rfl, (exec_write_onlyCell hb hw e).2⟩, .inr (.inr ⟨a, v, rfl⟩)⟩

/-! ### A reset of the controller -/

theorem cutOff_idle {s : State} (h : s.busy = none) : (cutOff s).1 = s.cell := by
  simp only [cutOff, h]

/-- The cell of a write cycle that is cut off holds a free byte (assumption log 28). -/
theorem cutOff_busy {s : State} {a : Nat} {d : Byte} (h : s.busy = some (a, d)) :
    (cutOff s).1 = Memory.write s.cell a (drawByte linesUp 0 s).1 := by
  simp only [cutOff, h]

theorem controllerReset_cells {s : State} (h : CellsOk s) : CellsOk s.controllerReset := by
  obtain ⟨hwf, hcell, hbusy⟩ := h
  cases hb : s.busy with
  | none =>
    have hc : s.controllerReset.cell = s.cell := cutOff_idle hb
    exact ⟨by rwa [hc], by rwa [hc], by nofun⟩
  | some e =>
    obtain ⟨a, d⟩ := e
    have ha : a ≤ maxAddress s.cfg := hbusy (a, d) hb
    exact cells_write (s := { s with busy := some (a, (drawByte linesUp 0 s).1) })
      ⟨hwf, hcell, by simpa using ha⟩ rfl rfl rfl (cutOff_busy hb)

/-- Settles O59: the array is what `cutOff` leaves, every other field is `State.powerOn`'s. -/
theorem controllerReset : Obligations.ControllerReset := by
  intro s t
  refine ⟨fun hb => sameCells_of_cell (cutOff_idle hb),
    fun a d hb x hx => cellByte_write_other (cutOff_busy hb) hx, rfl, fun ⟨hcfg, hcells, _⟩ => ?_⟩
  exact ⟨hcfg, controllerReset_cells hcells, ⟨rfl, by nofun⟩, ⟨by nofun, by nofun⟩, Nat.zero_le _, rfl⟩

end Sys2Proof.Machine
end

section
/-! A step runs the operation placed for it (spec/10_state.md R27; assumption logs 9 and 11). -/

namespace Sys2Proof.Machine

/-- With no caller to go on, what follows an operation is that its result is dropped (R32). -/
theorem afterRun_dropsResult (t : State) : afterRun [] t = { t with ret := .none } :=
  afterRun_top (t := { t with ret := .none }) rfl

/-- The operation placed is what CTRL's next turn runs. -/
theorem step_placeCall {s : State} (h : s.Running) (i : Instr) :
    ∃ t, exec i { s with seq := [], ret := .none } = .next t ∧ step (placeCall i s) = .next { t with ret := .none } := by
  have hc : CtrlTurn (placeCall i s) := ⟨by nofun, by nofun⟩
  obtain ⟨t, e, hs⟩ := step_runs (s := placeCall i s) h hc (ctrlTurn_call (s := (placeCall i s).turnTaken) rfl rfl _)
  exact ⟨t, e, by rw [hs, afterRun_dropsResult]⟩

/-- Settles O49: the image that decodes to `i` places `i`. -/
theorem stepRunsDecoded : Obligations.StepRunsDecoded := by
  intro s nbits w i hr hd
  obtain ⟨t, e, hs⟩ := step_placeCall hr i
  have hw : s.withFetchWord nbits w = placeCall i s := by simp only [State.withFetchWord, hd]
  exact ⟨t, e, by rw [hw, hs], hs⟩

end Sys2Proof.Machine
end

section
/-! The wire and the EEPROM as memories (spec/20_memory.md R45, R48, R49): the FIFO of both wire directions, and what a READ
and a second WRITE find once a WRITE's cycle is over. -/

namespace Sys2Proof.Machine

/-! ### The wire -/

/-- What comes later in a run only takes bytes off the head of `rx` and joins what arrives at its end, and only joins some of
what is written, in order, to what was delivered: both directions stay FIFOs. -/
theorem Fwd.wireFifo {s t : State} (h : Fwd s t) (hs : WireFifo s) : WireFifo t := by
  obtain ⟨hrx, hto⟩ := hs
  obtain ⟨l, hl, ⟨taken, htaken⟩, d, hd, hdl⟩ := h.wire
  refine ⟨?_, ?_⟩
  · have hjoin : t.rx <:+ s.rx ++ received l := ⟨taken, htaken⟩
    rw [hl, received_append]
    exact hjoin.trans (List.suffix_append_self_iff.2 hrx)
  · rw [hl, hd, written_append]
    exact hto.append hdl

/-- Settles O54: a step goes forward in a run (`step_keeps`), which keeps both directions FIFOs. -/
theorem stepKeepsWireFifo : Obligations.StepKeepsWireFifo := fun _ _ hs h => (step_keeps h).fwd.wireFifo hs

/-! ### The array once a WRITE's cycle is over -/

theorem cellByte_write_same {s t : State} {a : Nat} {d : Byte} (h : t.cell = Memory.write s.cell a d) :
    t.cellByte a = d := by
  simp only [State.cellByte, h, Memory.read_write_same, Option.getD_some]

/-- EE alone ends a write cycle, and by completing it (R80). -/
theorem EeMeanwhile.settled {t u : State} (h : EeMeanwhile t u) (hu : u.busy = none) :
    u.cell = (eeComplete t).cell := by
  rcases h with ⟨hb, hc⟩ | ⟨-, a, d, hb, hc⟩
  · rw [hc, eeComplete_idle (hb.symm.trans hu) rfl]
  · rw [hc, eeComplete_busy hb]

/-- The array a WRITE leaves, elided or performed: its own cell holds the byte, every other cell is as before (R85). -/
theorem cells_of_writeEffect {a : Nat} {v : Byte} {s u : State} (h : u.cell = (writeEffect a v s).cell) :
    u.cellByte a = v ∧ ∀ x, x ≠ a → u.cellByte x = s.cellByte x := by
  unfold writeEffect at h
  split at h
  case isTrue hv => exact ⟨(sameCells_of_cell h a).trans hv, fun x _ => sameCells_of_cell h x⟩
  case isFalse => exact ⟨cellByte_write_same h, fun _ hx => cellByte_write_other h hx⟩

theorem writeEffect_pulses (a : Nat) (v : Byte) (s : State) :
    (writeEffect a v s).pulses = if s.cellByte a = v then 0 else 1 := by
  unfold writeEffect
  split <;> rfl

/-! ### The bus once an operation has used it -/

theorem OthersOnly.cfg {t u : State} (h : OthersOnly t u) : u.cfg = t.cfg := by rw [h.2]

theorem OthersOnly.busIs {w : Srw} {d : Vector Dir 8} {v : Byte} {t u : State} (h : OthersOnly t u)
    (hb : BusIs w d v t) : BusIs w d v u := by
  rw [h.2]; exact hb

/-- A bus as an operation leaves it is ready for the next one, at every valid address. -/
theorem BusIs.ready {w : Srw} {d : Vector Dir 8} {v : Byte} {a : Nat} {t : State} (h : BusIs w d v t)
    (hw : t.cfg.addrWidth ≤ 15) (ha : addressInRange t.cfg a = true) : BusReady a t := by
  obtain ⟨-, -, -, -, hdata, hclk, hlatch, hwe, hctl, hinit⟩ := h
  exact ⟨hinit, ⟨fun _ => hctl, fun _ => ⟨by rw [hdata], hclk, hlatch, hwe⟩⟩, hw, ha⟩

/-- A WRITE on an idle chip: its pulses, and what it has come to in every state HOST and EE leave once its cycle is over,
elided or performed. -/
theorem exec_write_settled {a : Nat} {s : State} (hr : BusReady a s) (hb : s.busy = none) (hsw : SwitchesOn s.cfg)
    (v : Byte) :
    ∃ t, exec (.write a v) s = .next t ∧ t.wePulses = s.wePulses + (if s.cellByte a = v then 0 else 1) ∧
      ∀ u, OthersOnly t u → u.busy = none →
        BusReady a u ∧ u.cfg = s.cfg ∧ u.cellByte a = v ∧ ∀ x, x ≠ a → u.cellByte x = s.cellByte x := by
  obtain ⟨t, e, hbus, ⟨-, -, hp⟩, hcell, -⟩ := exec_write_leads hr hb hsw v
  obtain ⟨t', e', k⟩ := exec_keeps (.write a v) s
  cases e.symm.trans e'
  have ⟨_, _, hw, ha⟩ := hr
  refine ⟨t, e, by rw [hp, writeEffect_pulses], fun u ho hu => ?_⟩
  have hc : u.cfg = s.cfg := ho.cfg.trans k.fwd.cfg
  exact ⟨(ho.busIs hbus).ready (by rwa [hc]) (by rwa [hc]), hc, cells_of_writeEffect ((ho.1.settled hu).trans hcell)⟩

/-! ### READ and the second WRITE -/

/-- READ on an idle chip answers the cell, and every address reads as before (R84, R44). -/
theorem exec_read_cell {a : Nat} {s : State} (hr : BusReady a s) (hb : s.busy = none)
    (hm : s.cfg.accessTimeMet = true) :
    ∃ t, exec (.read a) s = .next t ∧ t.ret = .u8 (s.cellByte a) ∧ SameCells s t := by
  obtain ⟨t, e, -, -, -, hret⟩ := exec_read_leads hr hb hm
  have ⟨_, _, hw, _⟩ := hr
  exact ⟨t, e, hret, (onlyWriteChangesCells (.read a) s t hw hb e).1.resolve_right (by nofun)⟩

/-- WRITE of the byte an idle chip's cell holds returns with no pulse, and every address reads as before (R85). -/
theorem exec_write_elided {a : Nat} {v : Byte} {s : State} (hr : BusReady a s) (hb : s.busy = none)
    (hm : s.cfg.accessTimeMet = true) (hv : s.cellByte a = v) :
    ∃ t, exec (.write a v) s = .next t ∧ t.seq = s.seq ∧ t.wePulses = s.wePulses ∧ SameCells s t := by
  have ⟨_, _, hw, ha⟩ := hr
  obtain ⟨hc, -, -, -, hwe⟩ := hr.pins
  obtain ⟨u, k, -, e⟩ := writeCell_elides a v s.seq hc hb hm (by rw [hwe]) hw ha hv
  obtain ⟨-, -, hp⟩ := counters_append (s := u) (t := u.emit (.elided a)) [.elided a] rfl
  exact ⟨(u.emit (.elided a)).back s.seq, by rw [exec_write_ready hr, e]; rfl, rfl, hp.trans k.wePulses,
    sameCells_of_cell (k.run.idle hb).2⟩

/-- Settles O25: once the WRITE's cycle is over the cell holds the byte, and the READ answers the cell. -/
theorem readAfterWrite : Obligations.ReadAfterWrite := by
  intro a v s hr hb hsw
  obtain ⟨t, e, -, h⟩ := exec_write_settled hr hb hsw v
  refine ⟨t, e, fun u l ho hu => ?_⟩
  obtain ⟨hru, hc, hv, hx⟩ := h u ho hu
  obtain ⟨w, ew, hret, hcells⟩ := exec_read_cell (s := { u with seq := l }) hru hu (hc ▸ hsw.1)
  exact ⟨w, ew, hret.trans (congrArg Value.u8 hv), fun x hn => (hcells x).trans (hx x hn)⟩

/-- Settles O26: once the first WRITE's cycle is over the cell holds the byte, so the second is elided. -/
theorem secondWriteIsElided : Obligations.SecondWriteIsElided := by
  intro a v s hr hb hsw
  obtain ⟨t, e, hp, h⟩ := exec_write_settled hr hb hsw v
  refine ⟨t, e, hp, fun u l ho hu => ?_⟩
  obtain ⟨hru, hc, hv, -⟩ := h u ho hu
  obtain ⟨w, ew, hseq, hpulses, hcells⟩ := exec_write_elided (s := { u with seq := l }) hru hu (hc ▸ hsw.1) hv
  exact ⟨w, ew, hseq, hpulses, (hcells a).trans hv⟩

end Sys2Proof.Machine
end

section
/-! The operation records (spec/30_encoding.md R54 to R64, R70; assumption log 12): each operand reader reads what the encoder
writes, and what it accepts is what the encoder writes; so does the decoder. -/

namespace Sys2Proof

/-! ### The operand readers on what the encoder writes -/

theorem withLine_encode {p : Nat} (h : lineOk p = true) (r : List Byte) (k : Nat → List Byte → Decoded) :
    withLine (BitVec.ofNat 8 p :: r) k = k p r := by
  have hp : p ≤ 7 := of_decide_eq_true h
  have e : (BitVec.ofNat 8 p).toNat = p := by rw [BitVec.toNat_ofNat]; omega
  rw [withLine, withByte_cons, e, if_pos h]

theorem withBool_encode (b : Bool) (r : List Byte) (k : Bool → List Byte → Decoded) :
    withBool (encodeBool b :: r) k = k b r := by
  cases b <;> rfl

/-- A wire integer of the signed range of `m` bytes is read back (R63). -/
theorem withBytes_leiEncode {m : Nat} (hm : 0 < m) {x : Int} (h : signedOk (8 * m) x = true) (r : List Byte)
    (k : Int → List Byte → Decoded) :
    withBytes m (leiEncode m x ++ r) (fun bs r' => k (leiDecode m bs) r') = k x r := by
  have hr := withBytes_append (leiEncode m x) r fun bs r' => k (leiDecode m bs) r'
  rwa [leiEncode_length, leiDecode_leiEncode hm h] at hr

theorem dir_of_isOut (d : Dir) : (if d == .out then Dir.out else .inp) = d := by
  cases d <;> rfl

/-- DELAY's durations fit the operand field (R79). -/
theorem durationOk_of_delayOk {t : Duration} (h : delayOk t = true) : durationOk t = true := by
  cases t with
  | micros n => cases h
  | _ => rfl

/-- Settles O1: row by row, each operand reader reads back what the encoder wrote. -/
theorem recordRoundTrip : Obligations.RecordRoundTrip := by
  intro i rest h
  cases i with
  | push8 _ | request _ | hostSend _ => rfl
  | latch | wePulse | init | syn | ack | err | rst | fin | bye => rfl
  | isConnected | available | readI8 | readI16 | readI32 | serve | handshakeAttempt | serveConnected | hostLinkUp
  | hostLinkDown | eeComplete => rfl
  | dataDir p d =>
    change decodeRow 2 (BitVec.ofNat 8 p :: encodeBool (d == .out) :: rest) = _
    rw [decodeRow, withLine_encode h, withBool_encode, dir_of_isOut]
  | dataOut p x =>
    change decodeRow 3 (BitVec.ofNat 8 p :: encodeBool x :: rest) = _
    rw [decodeRow, withLine_encode h, withBool_encode]
  | dataIn p =>
    change decodeRow 4 (BitVec.ofNat 8 p :: rest) = _
    rw [decodeRow, withLine_encode h]
  | delay t =>
    have ht : delayOk t = true := h
    change decodeRow 6 (encodeDuration t ++ rest) = _
    rw [decodeRow, withDuration_encode (durationOk_of_delayOk ht), if_pos ht]
  | setAddress a oe =>
    have ha : a < 2 ^ 15 := of_decide_eq_true h
    change decodeRow 8 (encodeWord (srwWord a oe) ++ rest) = _
    rw [decodeRow, withWord_encode, srwAddress_word oe ha, srwEnabled_word oe ha]
  | read a =>
    have ha : a < 2 ^ 15 := of_decide_eq_true h
    change decodeRow 9 (encodeWord (srwWord a true) ++ rest) = _
    rw [decodeRow, withWord_encode, srwAddress_word true ha, if_pos (srwEnabled_word true ha)]
  | write a v =>
    have ha : a < 2 ^ 15 := of_decide_eq_true h
    change decodeRow 10 (encodeWord (srwWord a false) ++ v :: rest) = _
    rw [decodeRow, withWord_encode, withByte_cons, srwAddress_word false ha, srwEnabled_word false ha,
      if_neg Bool.false_ne_true]
  | setRxTimeout t =>
    change decodeRow 12 (encodeDuration t ++ rest) = _
    rw [decodeRow, withDuration_encode h]
  | waitForBytes n t =>
    obtain ⟨hn, ht⟩ := Bool.and_eq_true_iff.1 h
    change decodeRow 14 ((leiEncode 4 n ++ encodeDuration t) ++ rest) = _
    rw [decodeRow, List.append_assoc, withCount_encode (of_decide_eq_true hn), withDuration_encode ht]
  | readBuffer n =>
    change decodeRow 15 (leiEncode 4 n ++ rest) = _
    rw [decodeRow, withCount_encode (of_decide_eq_true h)]
  | writeBuffer buf =>
    change decodeRow 19 ((leiEncode 4 buf.length ++ buf) ++ rest) = _
    rw [decodeRow, List.append_assoc, withCount_encode (of_decide_eq_true h), withBytes_append]
  | writeI8 x => exact withBytes_leiEncode (m := 1) (by decide) h rest fun x r => .ok (.writeI8 x, r)
  | writeI16 x => exact withBytes_leiEncode (m := 2) (by decide) h rest fun x r => .ok (.writeI16 x, r)
  | writeI32 x => exact withBytes_leiEncode (m := 4) (by decide) h rest fun x r => .ok (.writeI32 x, r)
  | print s =>
    change decodeRow 23 (strz s ++ rest) = _
    rw [decodeRow, withText_encode h]
  | println s =>
    change decodeRow 24 (strz s ++ rest) = _
    rw [decodeRow, withText_encode h]
  | registerHandler op n =>
    change decodeRow 25 (op :: (encodeWord n ++ rest)) = _
    rw [decodeRow, withByte_cons, withWord_encode]

/-! ### What the operand readers accept -/

section accepted

variable {l : List Byte} {x : Instr × List Byte}

theorem withByte_accepts {k : Byte → List Byte → Decoded} (h : withByte l k = .ok x) :
    ∃ b r, l = b :: r ∧ k b r = .ok x := by
  cases l with
  | nil => cases h
  | cons b r => exact ⟨b, r, rfl, h⟩

theorem withWord_accepts {k : Srw → List Byte → Decoded} (h : withWord l k = .ok x) :
    ∃ w r, l = encodeWord w ++ r ∧ k w r = .ok x := by
  match l, h with
  | hi :: lo :: r, h => exact ⟨wordOf hi lo, r, by rw [encodeWord_wordOf]; rfl, h⟩

theorem withBytes_accepts {m : Nat} {k : List Byte → List Byte → Decoded} (h : withBytes m l k = .ok x) :
    ∃ bs r, l = bs ++ r ∧ bs.length = m ∧ k bs r = .ok x := by
  unfold withBytes at h
  split at h
  case isTrue hm => exact ⟨l.take m, l.drop m, (List.take_append_drop m l).symm, List.length_take_of_le hm, h⟩
  case isFalse => cases h

theorem withCount_accepts {k : Nat → List Byte → Decoded} (h : withCount l k = .ok x) :
    ∃ (n : Nat) (r : List Byte), l = leiEncode 4 n ++ r ∧ countOk n = true ∧ k n r = .ok x := by
  obtain ⟨bs, r, rfl, hm, hk⟩ := withBytes_accepts h
  have hlt := leNat_lt bs
  have he := leiEncode_leNat bs
  rw [hm] at hlt he
  exact ⟨leNat bs, r, by rw [he], decide_eq_true hlt, hk⟩

/-- The integer read from `m` bytes is of their signed range (R63). -/
theorem signedOk_leiDecode (m : Nat) (bs : List Byte) : signedOk (8 * m) (leiDecode m bs) = true :=
  decide_eq_true ⟨BitVec.le_toInt _, BitVec.toInt_lt⟩

theorem leiEncode_leiDecode_of_length {m : Nat} {bs : List Byte} (h : bs.length = m) :
    leiEncode m (leiDecode m bs) = bs := by
  rw [← h, leiEncode_leiDecode]

theorem withLine_accepts {k : Nat → List Byte → Decoded} (h : withLine l k = .ok x) :
    ∃ p r, l = BitVec.ofNat 8 p :: r ∧ lineOk p = true ∧ k p r = .ok x := by
  obtain ⟨b, r, rfl, hk⟩ := withByte_accepts h
  split at hk
  case isTrue hp => exact ⟨b.toNat, r, by rw [BitVec.ofNat_toNat, BitVec.setWidth_eq], hp, hk⟩
  case isFalse => cases hk

theorem withBool_accepts {k : Bool → List Byte → Decoded} (h : withBool l k = .ok x) :
    ∃ b r, l = encodeBool b :: r ∧ k b r = .ok x := by
  obtain ⟨b, r, rfl, hk⟩ := withByte_accepts h
  split at hk
  case isTrue hb => exact ⟨false, r, by rw [hb]; rfl, hk⟩
  case isFalse =>
    split at hk
    case isTrue hb => exact ⟨true, r, by rw [hb]; rfl, hk⟩
    case isFalse => cases hk

theorem withDuration_accepts {k : Duration → List Byte → Decoded} (h : withDuration l k = .ok x) :
    ∃ t r, l = encodeDuration t ++ r ∧ durationOk t = true ∧ k t r = .ok x := by
  obtain ⟨b, r, rfl, hk⟩ := withByte_accepts h
  iterate 5
    split at hk
    · subst b; exact ⟨_, r, rfl, rfl, hk⟩
  split at hk
  case isTrue hb =>
    obtain ⟨n, r', rfl, hn, hk'⟩ := withCount_accepts hk
    exact ⟨.micros n, r', by rw [hb]; rfl, hn, hk'⟩
  case isFalse => cases hk

theorem withText_accepts {k : List Byte → List Byte → Decoded} (h : withText l k = .ok x) :
    ∃ s r, l = strz s ++ r ∧ textOk s = true ∧ k s r = .ok x := by
  unfold withText at h
  split at h
  case h_1 s r ht => exact ⟨s, r, (takeText_inv ht).2, (takeText_inv ht).1, h⟩
  case h_2 => cases h

theorem withFixed_accepts {img : Byte} {i : Instr} (h : withFixed img l i = .ok x) :
    ∃ r, l = img :: r ∧ x = (i, r) := by
  obtain ⟨b, r, rfl, hk⟩ := withByte_accepts h
  split at hk
  case isTrue hb => exact ⟨r, by rw [hb], by cases hk; rfl⟩
  case isFalse => cases hk

end accepted

/-! ### What the decoder accepts -/

/-- The image and operands that row `row` accepts are those of the record of a well-formed operation. -/
theorem decodeRow_accepts {row : Nat} {l rest : List Byte} {i : Instr} (h : decodeRow row l = .ok (i, rest)) :
    WellFormed i ∧ BitVec.ofNat 8 row :: l = encode i ++ rest := by
  unfold decodeRow at h
  split at h
  case h_1 | h_36 | h_37 =>
    obtain ⟨b, r, rfl, hk⟩ := withByte_accepts h
    cases hk; exact ⟨rfl, rfl⟩
  case h_2 | h_6 | h_30 | h_31 | h_32 | h_33 | h_34 | h_35 =>
    obtain ⟨r, rfl, hk⟩ := withFixed_accepts h
    cases hk; exact ⟨rfl, rfl⟩
  case h_3 =>
    obtain ⟨p, r, rfl, hp, hk⟩ := withLine_accepts h
    obtain ⟨d, r', rfl, hk'⟩ := withBool_accepts hk
    cases hk'
    refine ⟨hp, ?_⟩
    cases d <;> rfl
  case h_4 =>
    obtain ⟨p, r, rfl, hp, hk⟩ := withLine_accepts h
    obtain ⟨b, r', rfl, hk'⟩ := withBool_accepts hk
    cases hk'; exact ⟨hp, rfl⟩
  case h_5 =>
    obtain ⟨p, r, rfl, hp, hk⟩ := withLine_accepts h
    cases hk; exact ⟨hp, rfl⟩
  case h_7 =>
    obtain ⟨t, r, rfl, -, hk⟩ := withDuration_accepts h
    split at hk
    case isTrue ht => cases hk; exact ⟨ht, rfl⟩
    case isFalse => cases hk
  case h_8 =>
    obtain ⟨w, r, rfl, hk⟩ := withWord_accepts h
    split at hk
    case isTrue hw => cases hk; rw [hw]; exact ⟨rfl, rfl⟩
    case isFalse => cases hk
  case h_9 =>
    obtain ⟨w, r, rfl, hk⟩ := withWord_accepts h
    cases hk
    exact ⟨decide_eq_true (srwAddress_lt w), by rw [encode, srwWord_fields]; rfl⟩
  case h_10 =>
    obtain ⟨w, r, rfl, hk⟩ := withWord_accepts h
    split at hk
    case isTrue hw =>
      cases hk
      exact ⟨decide_eq_true (srwAddress_lt w), by rw [encode, ← hw, srwWord_fields]; rfl⟩
    case isFalse => cases hk
  case h_11 =>
    obtain ⟨w, r, rfl, hk⟩ := withWord_accepts h
    obtain ⟨v, r', rfl, hk'⟩ := withByte_accepts hk
    split at hk'
    case isTrue => cases hk'
    case isFalse hw =>
      cases hk'
      exact ⟨decide_eq_true (srwAddress_lt w), by rw [encode, ← Bool.eq_false_of_not_eq_true hw, srwWord_fields]; rfl⟩
  case h_13 =>
    obtain ⟨t, r, rfl, ht, hk⟩ := withDuration_accepts h
    cases hk; exact ⟨ht, rfl⟩
  case h_15 =>
    obtain ⟨n, r, rfl, hn, hk⟩ := withCount_accepts h
    obtain ⟨t, r', rfl, ht, hk'⟩ := withDuration_accepts hk
    cases hk'
    exact ⟨Bool.and_eq_true_iff.2 ⟨hn, ht⟩, by rw [encode, List.cons_append, List.append_assoc]; rfl⟩
  case h_16 =>
    obtain ⟨n, r, rfl, hn, hk⟩ := withCount_accepts h
    cases hk; exact ⟨hn, rfl⟩
  case h_20 =>
    obtain ⟨n, r, rfl, hn, hk⟩ := withCount_accepts h
    obtain ⟨buf, r', rfl, rfl, hk'⟩ := withBytes_accepts hk
    cases hk'
    exact ⟨hn, by rw [encode, List.cons_append, List.append_assoc]; rfl⟩
  case h_21 | h_22 | h_23 =>
    obtain ⟨bs, r, rfl, hm, hk⟩ := withBytes_accepts h
    cases hk
    exact ⟨signedOk_leiDecode _ bs, by rw [encode, leiEncode_leiDecode_of_length hm]; rfl⟩
  case h_24 | h_25 =>
    obtain ⟨s, r, rfl, hs, hk⟩ := withText_accepts h
    cases hk; exact ⟨hs, rfl⟩
  case h_26 =>
    obtain ⟨op, r, rfl, hk⟩ := withByte_accepts h
    obtain ⟨n, r', rfl, hk'⟩ := withWord_accepts hk
    cases hk'; exact ⟨rfl, rfl⟩
  case h_12 | h_14 | h_17 | h_18 | h_19 | h_27 | h_28 | h_29 | h_38 | h_39 | h_40 => cases h; exact ⟨rfl, rfl⟩
  case h_41 => cases h

/-- Settles O2: the row number is the record's first byte, and what its row accepts is the rest of the record. -/
theorem recordIsCanonical : Obligations.RecordIsCanonical := by
  intro l rest i h
  obtain ⟨row, r, rfl, hk⟩ := withByte_accepts h
  have hr := decodeRow_accepts hk
  rwa [BitVec.ofNat_toNat, BitVec.setWidth_eq] at hr

end Sys2Proof
end

section
/-! The fields of the shift-register word (spec/30_encoding.md R54, R55, R16) and sample images (R56, R58, R63, R64). -/

namespace Sys2Proof

theorem hiByte_toNat (w : Srw) : (hiByte w).toNat = w.toNat / 256 := by
  have := w.isLt
  simp only [hiByte, BitVec.extractLsb'_toNat, Nat.shiftRight_eq_div_pow]
  omega

theorem loByte_toNat (w : Srw) : (loByte w).toNat = w.toNat % 256 := by
  simp [loByte, BitVec.extractLsb'_toNat]

/-- Below the enable bit the word has the bits of the address (R54). -/
theorem getLsbD_srwWord {a k : Nat} (oe : Bool) (h : a < 2 ^ 15) (hk : k < 15) :
    (srwWord a oe).getLsbD k = a.testBit k := by
  have ha : (srwWord a oe).toNat % 2 ^ 15 = a := srwAddress_word oe h
  rw [BitVec.getLsbD, ← ha, Nat.testBit_mod_two_pow, decide_eq_true hk, Bool.true_and, ha]

/-- Settles O3: a valid address lies below its width, so the word's bits between it and the enable bit are zero. -/
theorem addressWordFields : Obligations.AddressWordFields := by
  intro c a oe hw ha
  obtain ⟨hlt, h15⟩ := Machine.maxAddress_lt hw ha
  refine ⟨Machine.srwWord_noe oe h15, fun k hwk hk => ?_, ?_, hiByte_toNat _, loByte_toNat _⟩
  · rw [getLsbD_srwWord oe h15 hk]
    exact Nat.testBit_lt_two_pow (hlt.trans_le (Nat.pow_le_pow_right (by decide) hwk))
  · have h : (srwWord a oe).toNat % 2 ^ 15 = a := srwAddress_word oe h15
    calc (srwWord a oe).toNat % 2 ^ c.addrWidth
        = (srwWord a oe).toNat % 2 ^ 15 % 2 ^ c.addrWidth := (Nat.mod_mod_of_dvd _ (Nat.pow_dvd_pow 2 hw)).symm
      _ = a % 2 ^ c.addrWidth := by rw [h]
      _ = a := Nat.mod_eq_of_lt hlt

/-- Settles O4: each image is a literal, and so is what it decodes to. -/
theorem sampleImages : Obligations.SampleImages := by
  unfold Obligations.SampleImages
  decide

end Sys2Proof
end

section
/-! SET_ADDRESS event by event (spec/30_encoding.md R55, spec/41_bus_controller.md R82), where no HOST or EE step falls into
it. -/

namespace Sys2Proof.Machine

/-- SET_ADDRESS past its checks under a quiet schedule: the high byte, the low byte, one latch, and the state it leaves. -/
theorem presentAddress_quiet (a : Nat) (oe : Bool) (base : List Frame) {s : State} (hr : s.ctlReady = true)
    (hq : s.Quiet) :
    presentAddress a oe base s = .ok () { s with
      stage := srwWord a oe
      q := srwWord a oe
      pinSdata := { s.pinSdata with level := (srwWord a oe).getLsbD 0 }
      pinSclk := { s.pinSclk with level := false }
      pinLatch := { s.pinLatch with level := false }
      seq := base
      hist := s.hist ++
        [.push (hiByte (srwWord a oe)), .push (loByte (srwWord a oe)), .latch (srwWord a oe)] ++
        contentionEvent s { s with q := srwWord a oe } } := by
  have hsd : bitOf (loByte (srwWord a oe)) 0 = (srwWord a oe).getLsbD 0 := by simp [bitOf, loByte]
  simp only [presentAddress, Flow.bind]
  rw [micro_quiet hq, push8_ok _ (by exact hr)]
  simp only
  rw [micro_quiet (by exact hq), push8_ok _ (by exact hr)]
  simp only
  rw [micro_quiet (by exact hq), latch_ok (by exact hr)]
  simp only [wordOf_hi_lo, hsd, List.append_assoc]
  rfl

/-- Settles O17: on a ready bus SCLK and LATCH are low already. -/
theorem setAddressTrace : Obligations.SetAddressTrace := by
  intro a oe s ht hb hq
  obtain ⟨hc, -, hclk, hlatch, -⟩ := hb.pins
  rw [exec_setAddress_ready ht hb, presentAddress_quiet a oe s.seq hc hq, Flow.state, hclk, hlatch]

end Sys2Proof.Machine
end

section
/-! The wire codes as instructions (spec/30_encoding.md R58, R65, R66, spec/43_command_server.md R112; assumption log 14): what
the server answers to a host's byte over a link that is up, and the sending of a device's. -/

namespace Sys2Proof.Machine

/-! ### The handler table -/

theorem mem_of_sparseGet {α : Type} {m : List (Nat × α)} {k : Nat} {v : α} (h : sparseGet m k = some v) :
    (k, v) ∈ m := by
  induction m with
  | nil => cases h
  | cons e r ih =>
    obtain ⟨k', v'⟩ := e
    simp only [sparseGet] at h
    split at h
    case isTrue hk => cases h; rw [hk]; exact List.mem_cons_self
    case isFalse => exact List.mem_cons_of_mem _ (ih h)

/-- A filled slot of the table is no reserved opcode's, and its handler has a program (R67, R109). -/
theorem TableOk.slot {s : State} (h : TableOk s) {op : Byte} {n : HandlerName} (ht : s.tableAt op = some n) :
    reservedOpcode s.cfg op = false ∧ ∃ body, bodyOf s.cfg n = some body := by
  obtain ⟨-, hr, hb⟩ := h.2 _ (mem_of_sparseGet ht)
  rw [BitVec.ofNat_toNat, BitVec.setWidth_eq] at hr
  exact ⟨hr, Option.isSome_iff_exists.1 hb⟩

/-- SYN is reserved, so its slot is empty (R67). -/
theorem TableOk.syn {s : State} (h : TableOk s) : s.tableAt codeSyn = none := by
  cases ht : s.tableAt codeSyn with
  | none => rfl
  | some n => cases (h.slot ht).1

/-! ### The answer to a byte in CONNECTED -/

section answers

variable {s : State} (hl : s.link = true) (base : List Frame)
include hl

theorem connectedByte_bye_up :
    connectedByte codeBye base s = .ok () (sent [0x62] { s with fsm := .disconnected, seq := base }) := by
  have h : decodeConnected codeBye = .bye := rfl
  rw [connectedByte, h]
  simp only [txPush_up _ hl]
  rfl

variable {op : Byte} (hop : op ≠ 0x62)
include hop

theorem connectedByte_unknown_up (ht : s.tableAt op = none) :
    connectedByte op base s = .ok () (sent [0x65] { s with fsm := .disconnected, seq := base }) := by
  have h : decodeConnected op = .opcode op := if_neg hop
  rw [connectedByte, h]
  simp only [dispatchOpcode, ht, txPush_up _ hl]
  rfl

theorem connectedByte_registered_up {n : HandlerName} {body : Handler} (ht : s.tableAt op = some n)
    (hb : bodyOf s.cfg n = some body) :
    connectedByte op base s =
      .stop (sent [0x61] { s with seq := .handler op body 0 [] :: .op .serveConnected 3 :: base }) := by
  have h : decodeConnected op = .opcode op := if_neg hop
  rw [connectedByte, h]
  simp only [dispatchOpcode, ht, hb, txPush_up _ hl]
  rfl

end answers

/-! ### The codes -/

/-- A host code in DISCONNECTED is a byte of the handshake. -/
theorem serverByte_disconnected_up (b : Byte) {s : State} (hl : s.link = true) (hf : s.fsm = .disconnected) :
    serverByte b s.seq s = .ok () (sent [if b = 0x73 then 0x61 else 0x72]
      { s with fsm := if b = 0x73 then .connected else .disconnected }) := by
  rw [serverByte, hf]
  simp only [handshakeByte_up b hl hf]
  rfl

/-- A host code in CONNECTED is a byte SERVE_CONNECTED has taken. -/
theorem serverByte_connected (b : Byte) (base : List Frame) {s : State} (hf : s.fsm = .connected) :
    serverByte b base s = connectedByte b base s := by
  rw [serverByte, hf]

/-- A host code as an instruction is the server's answer to it (assumption log 14). -/
theorem exec_hostCode {s : State} (h : s.inHandler = false) :
    exec .syn s = .next (serverByte codeSyn s.seq s).state ∧
    exec .bye s = .next (serverByte codeBye s.seq s).state ∧
    ∀ op, exec (.request op) s = .next (serverByte op s.seq s).state :=
  ⟨(unlessHandler_top h _ _).trans (finish_state _), (unlessHandler_top h _ _).trans (finish_state _),
    fun _ => (unlessHandler_top h _ _).trans (finish_state _)⟩

theorem fsm_eta {s : State} {f : Fsm} (h : s.fsm = f) : ({ s with fsm := f } : State) = s := by
  rw [← h]

/-- Settles O42: the code's byte is the handshake's in DISCONNECTED and SERVE_CONNECTED's in CONNECTED. -/
theorem hostCodes : Obligations.HostCodes := by
  intro s h hl
  obtain ⟨hsyn, hbye, hreq⟩ := exec_hostCode h
  refine ⟨fun hf => ?_, fun hf => ?_⟩
  · have hrst : ∀ b : Byte, b ≠ 0x73 → serverByte b s.seq s = .ok () (sent [0x72] s) := fun b hb => by
      rw [serverByte_disconnected_up b hl hf, if_neg hb, if_neg hb, fsm_eta hf]
    refine ⟨?_, ?_, fun op hop => ?_⟩
    · rw [hsyn, serverByte_disconnected_up _ hl hf]; rfl
    · rw [hbye, hrst _ (by decide)]; rfl
    · rw [hreq, hrst op hop]; rfl
  · refine ⟨?_, fun ht => ?_, fun op hop => ⟨fun ht => ?_, fun n body ht hb => ?_⟩⟩
    · rw [hbye, serverByte_connected _ _ hf, connectedByte_bye_up hl]; rfl
    · rw [hsyn, serverByte_connected _ _ hf, connectedByte_unknown_up hl _ (by decide) ht.syn]; rfl
    · rw [hreq, serverByte_connected _ _ hf, connectedByte_unknown_up hl _ hop ht]; rfl
    · rw [hreq, serverByte_connected _ _ hf, connectedByte_registered_up hl _ hop ht hb]; rfl

/-- FIN where no handler runs: the byte alone is sent. -/
theorem sendFin_noHandler {s : State} (h : s.inHandler = false) (hl : s.link = true) :
    sendFin s = sent [0x66] s := by
  simp only [sendFin, txPush_up _ hl]
  split
  case h_1 hs => rw [State.inHandler, show s.seq = _ from hs] at h; cases h
  case h_2 => rfl

/-- A device code as an instruction is the sending of its byte (assumption log 14). -/
theorem exec_deviceCode {s : State} (h : s.inHandler = false) :
    exec .ack s = .next (txPush codeAck s) ∧ exec .err s = .next (txPush codeErr s) ∧
    exec .rst s = .next (txPush codeRst s) :=
  ⟨unlessHandler_top h _ _, unlessHandler_top h _ _, unlessHandler_top h _ _⟩

/-- Settles O43: over a link that is up the sending of a byte is its event and its delivery. -/
theorem deviceCodes : Obligations.DeviceCodes := by
  intro s hl
  refine ⟨fun h => ?_, fun op body pc vars base hs => congrArg _ (sendFin_up hl hs)⟩
  obtain ⟨hack, herr, hrst⟩ := exec_deviceCode h
  simp only [txPush_up _ hl] at hack herr hrst
  exact ⟨hack, herr, hrst, congrArg _ (sendFin_noHandler h hl)⟩

end Sys2Proof.Machine
end

section
/-! HANDSHAKE_ATTEMPT and SERVE_CONNECTED over a byte there or come while they wait, and over none (spec/30_encoding.md R62,
R65, R66, spec/43_command_server.md R111, R112), under every schedule and exactly under a quiet one. -/

namespace Sys2Proof.Machine

/-! ### A wait that times out -/

/-- CTRL's turn in a wait with fewer bytes there, where this turn lets it time out: the wait returns false (R92, R118). -/
theorem step_wait_late {s : State} {n : Nat} {d : Duration} {base : List Frame} (hr : s.Running) (hc : CtrlTurn s)
    (hs : s.seq = waitFrame n d :: base) (hn : s.rx.length < n) (hl : s.mayTimeOut = true) :
    step s = .next (returnTo base (.bool false) ((s.turnTaken.emit (.timeout .waitForBytes)).back base)) := by
  have hm : waitMet n s.turnTaken = false := decide_eq_false (Nat.not_le.2 hn)
  rw [step_wait hr hc hs, waitAgain, hm, hl]
  rfl

/-! ### The calls up to their wait -/

theorem length_pos_of_rx {s : State} {b : Byte} {r : List Byte} (h : s.rx = b :: r) : 1 ≤ s.rx.length := by
  rw [h, List.length_cons]
  exact Nat.le_add_left _ _

theorem length_lt_of_rx {s : State} (h : s.rx = []) : s.rx.length < 1 := by
  rw [h]
  exact Nat.one_pos

theorem exec_handshakeAttempt_held {s : State} (h : s.inHandler = false) (hx : s.rx = []) :
    exec .handshakeAttempt s =
      .next { s with seq := waitFrame 1 .tHandshake :: .op .handshakeAttempt 0 :: s.seq } := by
  refine (unlessHandler_top h _ _).trans ?_
  rw [handshakeAttempt, waitBytes_held _ _ (length_lt_of_rx hx)]; rfl

theorem exec_handshakeAttempt_now {s : State} {b : Byte} {r : List Byte} (h : s.inHandler = false)
    (hx : s.rx = b :: r) :
    exec .handshakeAttempt s = .next (handshakeRest true s.seq (s.back (.op .handshakeAttempt 0 :: s.seq))) := by
  refine (unlessHandler_top h _ _).trans ?_
  rw [handshakeAttempt, waitBytes_now _ _ (length_pos_of_rx hx)]; rfl

theorem exec_serveConnected_held {s : State} (h : s.inHandler = false) (hx : s.rx = []) :
    exec .serveConnected s = .next { s with seq := waitFrame 1 .tServe :: .op .serveConnected 0 :: s.seq } := by
  refine (unlessHandler_top h _ _).trans ?_
  rw [serveConnected, waitBytes_held _ _ (length_lt_of_rx hx)]; rfl

theorem exec_serveConnected_now {s : State} {b : Byte} {r : List Byte} (h : s.inHandler = false)
    (hx : s.rx = b :: r) :
    exec .serveConnected s =
      .next (connectedRest true s.seq (s.back (.op .serveConnected 0 :: s.seq))).state := by
  refine (unlessHandler_top h _ _).trans ?_
  rw [serveConnected, waitBytes_now _ _ (length_pos_of_rx hx)]
  exact finish_state _

/-! ### The byte taken under a quiet schedule -/

theorem handshakeRest_quiet (base : List Frame) {s : State} {b : Byte} {r : List Byte} (hq : s.Quiet)
    (h : s.rx = b :: r) :
    handshakeRest true base s =
      (handshakeByte b { s with rx := r, seq := .op .handshakeAttempt 2 :: base }).back base := by
  obtain ⟨t, e, hm⟩ := takeByte_quiet .handshakeAttempt base hq h
  simp only [handshakeRest, if_true, e, hm]

theorem connectedRest_quiet (base : List Frame) {s : State} {b : Byte} {r : List Byte} (hq : s.Quiet)
    (h : s.rx = b :: r) :
    connectedRest true base s = connectedByte b base { s with rx := r, seq := .op .serveConnected 2 :: base } := by
  obtain ⟨t, e, hm⟩ := takeByte_quiet .serveConnected base hq h
  simp only [connectedRest, if_true, e, hm]

/-! ### HANDSHAKE_ATTEMPT -/

/-- Held in its wait, HANDSHAKE_ATTEMPT goes on when the wait ends: with the oldest byte, or, on a timeout, with none. -/
theorem step_handshakeAttempt {s : State} {base : List Frame} (hr : s.Running) (hc : CtrlTurn s)
    (hs : s.seq = waitFrame 1 .tHandshake :: .op .handshakeAttempt 0 :: base) :
    (1 ≤ s.rx.length → step s = .next (returnTo base .none
      (handshakeRest true base (s.turnTaken.back (.op .handshakeAttempt 0 :: base))))) ∧
    (s.rx = [] → s.mayTimeOut = true →
      step s = .next (returnTo base .none { s.turnTaken.emit (.timeout .waitForBytes) with seq := base })) :=
  ⟨fun hn => step_wait_met hr hc hs hn, fun hx hl => step_wait_late hr hc hs (length_lt_of_rx hx) hl⟩

/-- Settles O39: called or held, HANDSHAKE_ATTEMPT takes the oldest byte and answers it (`handshakeRest_answers`). -/
theorem handshakeReplies : Obligations.HandshakeReplies := by
  intro s hf
  refine ⟨fun b => rfl, fun ht => ⟨fun hx => ?_, fun b r hx => ⟨?_, fun hq hl => ?_⟩⟩, fun base hr hc hs => ?_⟩
  · exact exec_handshakeAttempt_held ht hx
  · exact ⟨_, exec_handshakeAttempt_now ht hx,
      handshakeRest_answers (s := s.back (.op .handshakeAttempt 0 :: s.seq)) hx hf s.seq⟩
  · rw [exec_handshakeAttempt_now ht hx, handshakeRest_quiet s.seq (by exact hq) (by exact hx),
      handshakeByte_up b (by exact hl) (by exact hf)]
    rfl
  · obtain ⟨hmet, hlate⟩ := step_handshakeAttempt hr hc hs
    refine ⟨hlate, fun b r hx => ⟨_, hmet (length_pos_of_rx hx), ?_⟩⟩
    exact handshakeRest_answers (s := s.turnTaken.back (.op .handshakeAttempt 0 :: base)) hx hf base

/-! ### SERVE_CONNECTED -/

/-- Held in its wait, SERVE_CONNECTED on a timeout takes nothing and returns; HOST and EE may step meanwhile (R112). -/
theorem step_serveConnected_late {s : State} {base : List Frame} (hr : s.Running) (hc : CtrlTurn s)
    (hs : s.seq = waitFrame 1 .tServe :: .op .serveConnected 0 :: base) (hx : s.rx = []) (hl : s.mayTimeOut = true) :
    step s = .next (returnTo base .none
      (((s.turnTaken.emit (.timeout .waitForBytes)).micro .serveConnected 1 base).back base)) := by
  rw [step_wait_late hr hc hs (length_lt_of_rx hx) hl, returnTo_serveConnected, State.back, connectedRest,
    if_neg Bool.false_ne_true, micro_from]
  rfl

/-- SERVE_CONNECTED called with a byte there, whatever HOST does and whatever becomes of the link (R66, R112). -/
theorem exec_serveConnected_answers {s : State} {b : Byte} {r : List Byte} (h : s.inHandler = false)
    (hx : s.rx = b :: r) :
    (b = 0x62 → ∃ t, exec .serveConnected s = .next t ∧ Answered 0x62 r .disconnected s.seq s t) ∧
    (b ≠ 0x62 → s.tableAt b = none →
      ∃ t, exec .serveConnected s = .next t ∧ Answered 0x65 r .disconnected s.seq s t) ∧
    (∀ n body, b ≠ 0x62 → s.tableAt b = some n → bodyOf s.cfg n = some body →
      ∃ t, exec .serveConnected s = .next t ∧
        Answered 0x61 r s.fsm (.handler b body 0 [] :: .op .serveConnected 3 :: s.seq) s t) := by
  rw [exec_serveConnected_now h hx]
  obtain ⟨hbye, hunknown, hregistered⟩ :=
    connectedRest_answers (s := s.back (.op .serveConnected 0 :: s.seq)) hx s.seq
  refine ⟨fun hb => ?_, fun hb ht => ?_, fun n body hb ht hbody => ?_⟩
  · obtain ⟨t, e, ha⟩ := hbye hb
    exact ⟨t, by rw [e]; rfl, ha⟩
  · obtain ⟨t, e, ha⟩ := hunknown hb ht
    exact ⟨t, by rw [e]; rfl, ha⟩
  · obtain ⟨t, e, ha⟩ := hregistered n body hb ht hbody
    exact ⟨t, by rw [e]; rfl, ha⟩

/-- SERVE_CONNECTED called with a byte there and no HOST or EE step due: the answer to that byte. -/
theorem exec_serveConnected_quiet {s : State} {b : Byte} {r : List Byte} (h : s.inHandler = false) (hq : s.Quiet)
    (hx : s.rx = b :: r) :
    exec .serveConnected s =
      .next (connectedByte b s.seq { s with rx := r, seq := .op .serveConnected 2 :: s.seq }).state := by
  rw [exec_serveConnected_now h hx, connectedRest_quiet s.seq (by exact hq) (by exact hx)]
  rfl

/-- Settles O41: SERVE_CONNECTED takes the oldest byte and answers it (`connectedRest_answers`), and every filled slot of the
table has its program. -/
theorem serveConnectedOutcomes : Obligations.ServeConnectedOutcomes := by
  intro s hf htab
  refine ⟨fun ht => ⟨fun hx => ?_, fun r hx => ?_, fun op r n hx hop hn => ?_, fun op r hx hop hn => ?_,
    fun hq hl => ⟨fun r hx => ?_, fun op r n hx hop hn => ?_, fun op r hx hop hn => ?_⟩⟩,
    fun base hr hc hl hx hs => ?_⟩
  · exact exec_serveConnected_held ht hx
  · exact (exec_serveConnected_answers ht hx).1 rfl
  · obtain ⟨-, body, hb⟩ := htab.slot hn
    obtain ⟨-, -, hregistered⟩ := exec_serveConnected_answers ht hx
    obtain ⟨t, e, ha⟩ := hregistered n body hop hn hb
    exact ⟨body, t, hb, e, by rwa [hf] at ha⟩
  · obtain ⟨-, hunknown, -⟩ := exec_serveConnected_answers ht hx
    exact hunknown hop hn
  · rw [exec_serveConnected_quiet ht hq hx]
    exact congrArg _ (congrArg Flow.state (connectedByte_bye_up (by exact hl) s.seq))
  · obtain ⟨-, body, hb⟩ := htab.slot hn
    refine ⟨body, hb, ?_⟩
    rw [exec_serveConnected_quiet ht hq hx, connectedByte_registered_up (by exact hl) _ hop (by exact hn) (by exact hb)]
    rfl
  · rw [exec_serveConnected_quiet ht hq hx, connectedByte_unknown_up (by exact hl) _ hop (by exact hn)]
    rfl
  · have o := yield_others (s.turnTaken.emit (.timeout .waitForBytes))
    obtain ⟨h, hh, hhost, hrx⟩ := o.grows
    refine ⟨_, h, step_serveConnected_late hr hc hs hx hl, hhost, ?_, ?_, ?_⟩
    · exact hh.trans (List.append_assoc _ _ _)
    · exact hrx.trans (congrArg (· ++ received h) hx)
    · exact ⟨o.ee, congrArg (State.back base) o.frame⟩

end Sys2Proof.Machine
end

section
/-! The bus primitives as calls (spec/40_bus_primitives.md R71 to R79, spec/60_exceptions.md R116, R118): what each does
outside a handler, its faults, and what a data line then shows. -/

namespace Sys2Proof.Machine

/-! ### The calls outside a handler -/

section calls

variable {s : State} (h : s.inHandler = false)
include h

theorem exec_push8_top (b : Byte) : exec (.push8 b) s = .next (push8 b s).state :=
  (unlessHandler_top h _ _).trans (finish_state _)

theorem exec_latch_top : exec .latch s = .next (latch s).state :=
  (unlessHandler_top h _ _).trans (finish_state _)

theorem exec_wePulse_top : exec .wePulse s = .next (wePulse s).state :=
  (unlessHandler_top h _ _).trans (finish_state _)

theorem exec_settle_top : exec (.delay .tSettle) s = .next (settle s.seq s).state :=
  (unlessHandler_top h _ _).trans (finish_state _)

theorem exec_dataDir_top (p : Line) (d : Dir) : exec (.dataDir p.val d) s = .next (dataDir p d s) := by
  change unlessHandler _ _ _ = _
  rw [unlessHandler_top h, lineOf, dif_pos p.isLt]

theorem exec_dataOut_top (p : Line) (x : Bool) : exec (.dataOut p.val x) s = .next (dataOut p x s) := by
  change unlessHandler _ _ _ = _
  rw [unlessHandler_top h, lineOf, dif_pos p.isLt]

theorem exec_dataIn_top (p : Line) :
    exec (.dataIn p.val) s = .next { (dataIn p s).2 with ret := .bit (dataIn p s).1 } := by
  change unlessHandler _ _ _ = _
  rw [unlessHandler_top h, lineOf, dif_pos p.isLt]

end calls

/-! ### The chain -/

/-- Settles O5: outside a handler the call is `push8`, which shifts in eight bits (`push8_ok`). -/
theorem pushEightBits : Obligations.PushEightBits := by
  intro b s h hr
  rw [exec_push8_top h, push8_ok b hr]
  rfl

/-- Settles O6: outside a handler the call is `latch`, which takes all 16 bits at once (`latch_ok`). -/
theorem latchCommits : Obligations.LatchCommits := by
  intro s h hr
  rw [exec_latch_top h, latch_ok hr, List.append_assoc]
  rfl

/-! ### What a data line shows (R71) -/

section levels

variable {s : State} {p : Line}

/-- The chip leaves the lines alone where its output is disabled or write enable is low. -/
theorem eeDrives_false_iff : s.eeDrives = false ↔ s.q.getLsbD 15 = true ∨ s.pinWe.level = false := by
  rw [State.eeDrives, Bool.and_eq_false_iff, Bool.not_eq_false']

/-- An output line shows the latch, or both sides drive it. -/
theorem lineLevel_out (hd : s.dir[p] = .out) :
    lineLevel s p = if s.eeDrives = true then none else some (bitOf s.dout p) := by
  cases he : s.eeDrives <;> simp only [lineLevel, hd, he] <;> rfl

/-- An input line follows the chip, or floats. -/
theorem lineLevel_inp (hd : s.dir[p] = .inp) : lineLevel s p = if s.eeDrives = true then chipBit s p else none := by
  cases he : s.eeDrives <;> simp only [lineLevel, hd, he] <;> rfl

theorem lineLevel_latch (hd : s.dir[p] = .out) (he : s.eeDrives = false) : lineLevel s p = some (bitOf s.dout p) := by
  rw [lineLevel_out hd, he, if_neg Bool.false_ne_true]

theorem lineLevel_chip (hd : s.dir[p] = .inp) (he : s.eeDrives = true) : lineLevel s p = chipBit s p := by
  rw [lineLevel_inp hd, if_pos he]

theorem lineLevel_floating (hd : s.dir[p] = .inp) (he : s.eeDrives = false) : lineLevel s p = none := by
  rw [lineLevel_inp hd, he, if_neg Bool.false_ne_true]

theorem chipBit_free (h : s.busy ≠ none ∨ s.cfg.accessTimeMet = false) : chipBit s p = none := by
  rcases h with h | h <;> simp [chipBit, h, Option.isSome_iff_ne_none]

/-- One line that is an output is enough for contention with a driving chip. -/
theorem contention_of_out (hd : s.dir[p] = .out) (he : s.eeDrives = true) : s.contention = true := by
  have hm : Dir.out ∈ s.dir.toList := hd ▸ Vector.mem_toList_iff.2 (Vector.getElem_mem p.isLt)
  rw [State.contention, he, Bool.true_and]
  exact List.any_eq_true.2 ⟨.out, hm, rfl⟩

end levels

/-- Contention does not begin where nothing changes. -/
theorem contentionEvent_self (s : State) : contentionEvent s s = [] := by
  rw [contentionEvent, Bool.not_and_self, if_neg Bool.false_ne_true]

/-! ### The data lines -/

theorem dir_set_self (v : Vector Dir 8) (p : Line) (d : Dir) : (v.set p.val d)[p] = d := Vector.getElem_set_self _

theorem dir_set_eta {v : Vector Dir 8} {p : Line} {d : Dir} (h : v[p] = d) : v.set p.val d = v :=
  h ▸ Vector.set_getElem_self _

/-- Settles O7: `dataDir_eq`, and the line's level in its new direction. -/
theorem dataDirection : Obligations.DataDirection := by
  intro p d s h t
  have hd : t.dir[p] = d := dir_set_self s.dir p d
  refine ⟨?_, fun ho he => ?_, fun hi he => ?_, fun hi he => ?_, fun ho he => ?_, fun hs => ?_⟩
  · rw [exec_dataDir_top h, dataDir_eq]; rfl
  · exact contention_of_out (hd.trans ho) he
  · exact lineLevel_chip (hd.trans hi) he
  · exact lineLevel_floating (hd.trans hi) he
  · exact lineLevel_latch (hd.trans ho) he
  · simp only [t, dir_set_eta hs, contentionEvent_self, List.append_nil]

/-- The output latch of an input line is on no line (R76). -/
theorem lineLevel_dataOut {s : State} {p : Line} (h : s.dir[p] = .inp) (x : Bool) (r : Line) :
    lineLevel (dataOut p x s) r = lineLevel s r := by
  cases hr : s.dir[r] with
  | inp => exact (lineLevel_inp (s := dataOut p x s) hr).trans (lineLevel_inp hr).symm
  | out =>
    have hne : r ≠ p := fun e => by rw [e, h] at hr; cases hr
    have hb : bitOf (dataOut p x s).dout r = bitOf s.dout r := (bitOf_setBit s.dout p r x).trans (if_neg hne)
    rw [lineLevel_out (s := dataOut p x s) hr, lineLevel_out hr, hb]
    rfl

/-- Settles O8: the latch changes in one bit, and the line shows it once it is an output. -/
theorem dataOutputLatch : Obligations.DataOutputLatch := by
  intro p x s h
  have hbit : ∀ r : Line, bitOf (setBit s.dout p x) r = if r = p then x else bitOf s.dout r :=
    fun r => bitOf_setBit s.dout p r x
  have hown : bitOf (setBit s.dout p x) p = x := (hbit p).trans (if_pos rfl)
  refine ⟨setBit s.dout p x, exec_dataOut_top h p x, hbit, fun hd he => ?_,
    fun hd => ⟨lineLevel_dataOut hd x, fun he => ?_⟩⟩
  · exact (lineLevel_latch (by exact hd) (by exact he)).trans (congrArg some hown)
  · refine ⟨_, exec_dataDir_top (by exact h) p .out, ?_⟩
    rw [dataDir_eq, lineLevel_latch (dir_set_self s.dir p .out) (by exact he), hown]

/-! ### Sampling a line -/

/-- An input line that the idle chip drives in time gives the addressed cell's bit (R77). -/
theorem dataIn_chip {p : Line} {s : State} (hd : s.dir[p] = .inp) (he : s.eeDrives = true) (hb : s.busy = none)
    (ha : s.cfg.accessTimeMet = true) : dataIn p s = (bitOf (s.cellByte s.busAddress) p, s) := by
  have hl : lineLevel s p = some (bitOf (s.cellByte s.busAddress) p) := by
    rw [lineLevel_chip hd he]; simp [chipBit, hb, ha]
  simp [dataIn, hd, hl]

/-- Every other line gives a free bit (R77; assumption log 5). -/
theorem dataIn_free {p : Line} {s : State}
    (h : s.dir[p] = .out ∨ s.eeDrives = false ∨ s.busy ≠ none ∨ s.cfg.accessTimeMet = false) :
    dataIn p s = (s.drawn, s.drew) := by
  cases hd : s.dir[p] with
  | out => simp only [dataIn, hd, if_true]
  | inp =>
    have hl : lineLevel s p = none := by
      cases he : s.eeDrives with
      | false => exact lineLevel_floating hd he
      | true =>
        rw [lineLevel_chip hd he]
        exact chipBit_free (by simpa [hd, he] using h)
    simp [dataIn, hd, hl]

/-- Settles O9: a line is the chip's (`dataIn_chip`) or its level is free (`dataIn_free`). -/
theorem dataSample : Obligations.DataSample := by
  intro p s h
  refine ⟨fun ⟨hd, hq, hw, hb, ha⟩ => ?_, fun hf => ?_⟩
  · have he : s.eeDrives = true := by rw [State.eeDrives, hq, hw]; rfl
    rw [exec_dataIn_top h, dataIn_chip hd he hb ha]
    rfl
  · rw [exec_dataIn_top h, dataIn_free (by rwa [eeDrives_false_iff, or_assoc])]
    rfl

/-! ### The strobe -/

/-- Settles O10: past its checks WE_PULSE is the strobe of the byte on the lines (`wePulse_ok`). -/
theorem writePulse : Obligations.WritePulse := by
  intro s h hr hq hb
  obtain ⟨d, b, n, e, hfacts⟩ := wePulse_ok hr hq hb
  exact ⟨d, b, n, by rw [exec_wePulse_top h, e]; rfl, hfacts⟩

/-! ### The faults (R116, R118) -/

section faults

variable {s : State}

theorem push8_notReady (hr : s.ctlReady = false) (b : Byte) :
    push8 b s = .stop (stoppedAt (.push8 b) (.notInitialised (.push8 b)) s) := by
  rw [push8, hr]; rfl

theorem latch_notReady (hr : s.ctlReady = false) : latch s = .stop (stoppedAt .latch (.notInitialised .latch) s) := by
  rw [latch, hr]; rfl

theorem wePulse_notReady (hr : s.ctlReady = false) :
    wePulse s = .stop (stoppedAt .wePulse (.notInitialised .wePulse) s) := by
  rw [wePulse, hr]; rfl

theorem wePulse_enabled (hr : s.ctlReady = true) (hq : s.q.getLsbD 15 = false) :
    wePulse s = .stop (stoppedAt .wePulse (.weWithOeAsserted s.q) s) := by
  rw [wePulse, hr, hq]; rfl

theorem wePulse_busy (hr : s.ctlReady = true) (hq : s.q.getLsbD 15 = true) {a : Nat} {d : Byte}
    (hb : s.busy = some (a, d)) : wePulse s = .stop (stoppedAt .wePulse (.writeWhileBusy a d s.q) s) := by
  rw [wePulse, hr, hq, hb]; rfl

end faults

/-- Settles O11: each check, with those before it passed. -/
theorem primitiveFaults : Obligations.PrimitiveFaults := by
  intro s h
  refine ⟨fun hr => ⟨fun b => ?_, ?_, ?_⟩, fun hr hq => ?_, fun hr hq a d hb => ?_⟩
  · rw [exec_push8_top h, push8_notReady hr]; rfl
  · rw [exec_latch_top h, latch_notReady hr]; rfl
  · rw [exec_wePulse_top h, wePulse_notReady hr]; rfl
  · rw [exec_wePulse_top h, wePulse_enabled hr hq]; rfl
  · rw [exec_wePulse_top h, wePulse_busy hr hq hb]; rfl

/-! ### The settle delay -/

section delay

variable {s : State} (base : List Frame)

theorem settle_passes (h : s.busy = none ∨ s.cfg.settleSufficient = false) : settle base s = .ok () (s.back base) := by
  obtain ⟨e, -⟩ | ⟨-, hs, x, hb⟩ := settle_spec base s
  · exact e
  · simp [hs, hb] at h

theorem settle_holds (hb : s.busy ≠ none) (hs : s.cfg.settleSufficient = true) :
    settle base s = .stop { s with seq := .op (.delay .tSettle) 1 :: base } := by
  obtain ⟨-, h⟩ | ⟨e, -⟩ := settle_spec base s
  · exact absurd (h hs) hb
  · exact e

theorem settleAgain_busy (hb : s.busy ≠ none) : settleAgain base s = .stop s :=
  if_pos (Option.isSome_iff_ne_none.2 hb)

theorem settleAgain_idle (hb : s.busy = none) : settleAgain base s = .ok () (s.back base) := by
  rw [settleAgain, hb]; rfl

/-- Inside DELAY T_SETTLE CTRL is held while the write cycle is in progress (R7). -/
theorem held_settle (hr : s.Running) (hb : s.busy ≠ none) (hs : s.seq = .op (.delay .tSettle) 1 :: base) :
    s.held = true := by
  obtain ⟨hf, hx⟩ := hr
  simp [State.held, State.heldForEe, State.stopped, hf, hx, hs, Option.isSome_iff_ne_none, hb]

end delay

/-- Settles O12: the first look is `settle`, each later turn of CTRL's is `settleAgain`, and the schedule's end is EE's. -/
theorem delayHolds : Obligations.DelayHolds := by
  intro s
  refine ⟨fun h => ⟨unlessHandler_top h _ _, fun hp => ?_, fun hb hs => ⟨?_, fun hr => ?_⟩⟩,
    fun base hr hs => ⟨fun hb hc => ?_, fun hb he => step_eeLast he hb, fun hb hc => ?_⟩⟩
  · rw [exec_settle_top h, settle_passes s.seq hp]; rfl
  · rw [exec_settle_top h, settle_holds s.seq hb hs]; rfl
  · exact held_settle s.seq (by exact hr) (by exact hb) rfl
  · rw [step_settle hr hc hs, settleAgain_busy base (by exact hb)]; rfl
  · rw [step_settle hr hc hs, settleAgain_idle base (by exact hb)]; rfl

end Sys2Proof.Machine
end

section
/-! The EEPROM's own step (spec/40_bus_primitives.md R80), and that a busy chip completes under every schedule (assumption
log 4). -/

namespace Sys2Proof.Machine

/-! ### EE_COMPLETE -/

theorem eeComplete_ends {s : State} {a : Nat} {d : Byte} (hb : s.busy = some (a, d)) :
    eeComplete s = { s with cell := Memory.write s.cell a d, busy := none } := by
  simp only [eeComplete, hb]

theorem eeComplete_notEnabled {s : State} (hb : s.busy = none) : eeComplete s = s := by
  simp only [eeComplete, hb]

theorem eeComplete_notBusy (s : State) : (eeComplete s).busy = none := by
  cases hb : s.busy with
  | none => rw [eeComplete_notEnabled hb, hb]
  | some e => rw [eeComplete_ends hb]

/-! ### A running machine steps -/

/-- CTRL's turn runs an operation or is CTRL's own. -/
theorem ctrlTurn_cases (late : Bool) (s : State) :
    (∃ i l u, ctrlTurn late s = .run i l u) ∨ ∃ t, ctrlTurn late s = .own t := by
  unfold ctrlTurn
  split
  case h_1 => split <;> exact .inl ⟨_, _, _, rfl⟩
  case h_2 op body pc vars base _ =>
    rcases handlerTurn_cases op body pc vars base s with ⟨i, l, e⟩ | ⟨t, e, -⟩
    · exact .inl ⟨i, l, s, e⟩
    · exact .inr ⟨t, e⟩
  case h_3 => exact .inr ⟨_, rfl⟩
  case h_4 => exact .inr ⟨_, rfl⟩
  case h_5 => exact .inl ⟨_, _, _, rfl⟩

/-- While no fault is recorded and nothing is refused a step answers a next state. -/
theorem step_running {s : State} (hr : s.Running) : ∃ t, step s = .next t := by
  obtain ⟨u, ho, ⟨e, hn⟩ | ⟨late, hn⟩⟩ := nextTurn_cases s
  · exact ⟨_, by rw [step, hn]; exact exec_envInstr e u⟩
  · have hu : u.Running := ⟨ho.faults.trans hr.1, ho.refused.trans hr.2⟩
    rw [step, hn, ctrlOrStop_running hu]
    obtain ⟨i, l, v, hc⟩ | ⟨t, hc⟩ := ctrlTurn_cases late u
    · obtain ⟨w, hw, -⟩ := exec_keeps i { v with ret := .none }
      exact ⟨afterRun l w, by simp only [hc, hw, afterOutcome]⟩
    · exact ⟨t, by rw [hc]⟩

/-! ### The write cycle's end -/

/-- A run goes on after its first step. -/
theorem run_succ (M : Host.Core) {s t : M.State} (h : M.step s = .next t) (k : Nat) : M.run (k + 1) s = M.run k t := by
  rw [Host.Core.run, h]

/-- Every step uses up the head of the schedule, and at its end EE moves: the write cycle is over by then, or CTRL has
stopped. -/
theorem run_completes (n : Nat) (s : State) (hn : s.sched.length ≤ n) :
    ∃ k u, k ≤ n + 1 ∧ Host.Core.run core k s = .next u ∧ (u.busy = none ∨ ¬ u.Running) := by
  induction n generalizing s with
  | zero =>
    have hs : s.sched = [] := List.length_eq_zero_iff.1 (Nat.le_zero.1 hn)
    by_cases hb : s.busy = none
    · exact ⟨0, s, Nat.zero_le _, rfl, .inl hb⟩
    · exact ⟨1, eeComplete s, Nat.le_refl _, run_succ core (step_eeLast hs hb) 0, .inl (eeComplete_notBusy s)⟩
  | succ n ih =>
    by_cases hr : s.Running
    · obtain ⟨t, ht⟩ := step_running hr
      have hlen : t.sched.length ≤ n := by
        have h := (step_sched ht).length_le
        rw [List.length_tail] at h
        omega
      obtain ⟨k, u, hk, hu, hend⟩ := ih t hlen
      exact ⟨k + 1, u, Nat.succ_le_succ hk, (run_succ core ht k).trans hu, hend⟩
    · exact ⟨0, s, Nat.zero_le _, rfl, .inr hr⟩

/-- Settles O14: `eeComplete_ends`, and `run_completes` along the schedule. -/
theorem eepromCompletes : Obligations.EepromCompletes := by
  intro s
  refine ⟨fun a d hb => ?_, fun hb => congrArg _ (eeComplete_notEnabled hb), fun _ => run_completes _ s (Nat.le_refl _)⟩
  have e := eeComplete_ends hb
  refine ⟨eeComplete s, rfl, by rw [e], cellByte_write_same (eeComplete_busy hb), fun x hx => ?_⟩
  exact cellByte_write_other (eeComplete_busy hb) hx

end Sys2Proof.Machine
end

section
/-! The bus-controller operations as calls (spec/41_bus_controller.md R81 to R85): their checks, and the state each leaves
under every schedule. -/

namespace Sys2Proof.Machine

/-! ### The checks (R116, R118) -/

section checks

variable {i : Instr} {a : Nat} {f : Fault} {s : State}

theorem busGuard_early (h : s.initDone = false) : busGuard i a s = some (.notInitialised i) := by
  rw [busGuard, h]; rfl

theorem busGuard_above (h : s.initDone = true) (ha : 2 ^ s.cfg.addrWidth ≤ a) :
    busGuard i a s = some (.addressRange i a) := by
  have hpos := Nat.two_pow_pos s.cfg.addrWidth
  have hout : addressInRange s.cfg a = false := decide_eq_false (by rw [maxAddress]; omega)
  rw [busGuard, h, hout]; rfl

theorem exec_setAddress_faults {oe : Bool} (h : s.inHandler = false) (hg : busGuard (.setAddress a oe) a s = some f) :
    exec (.setAddress a oe) s = .next (stoppedAt (.setAddress a oe) f s) := by
  change unlessHandler _ _ _ = _
  rw [unlessHandler_top h, hg]; rfl

theorem exec_read_faults (hg : busGuard (.read a) a s = some f) :
    exec (.read a) s = .next (stoppedAt (.read a) f s) := by
  change execRead a s = _
  rw [execRead, hg]; rfl

theorem exec_write_faults {v : Byte} (hg : busGuard (.write a v) a s = some f) :
    exec (.write a v) s = .next (stoppedAt (.write a v) f s) := by
  change execWrite a v s = _
  rw [execWrite, hg]; rfl

end checks

/-- Settles O18: the three operations share their checks, which look at `initDone` before the address. -/
theorem busGuardFaults : Obligations.BusGuardFaults := by
  intro a oe v s
  refine ⟨fun hi => ⟨fun ht => ?_, ?_, ?_⟩, fun hi ha => ⟨fun ht => ?_, ?_, ?_⟩⟩
  · exact exec_setAddress_faults ht (busGuard_early hi)
  · exact exec_read_faults (busGuard_early hi)
  · exact exec_write_faults (busGuard_early hi)
  · exact exec_setAddress_faults ht (busGuard_above hi ha)
  · exact exec_read_faults (busGuard_above hi ha)
  · exact exec_write_faults (busGuard_above hi ha)

/-! ### INIT, SET_ADDRESS and READ -/

/-- A piece of a bus operation that returns to where it was called from leaves the server alone. -/
theorem BusRun.sameServer {s t : State} (h : BusRun s t) (hs : t.seq = s.seq) : SameServer s t :=
  ⟨h.fwd.cfg, h.toHost, h.rxTimeout, h.fsm, h.table, hs, h.calls, h.faults, h.refused⟩

/-- Settles O15: `initBus_spec`, from every state. -/
theorem initEndState : Obligations.InitEndState := by
  intro s h
  obtain ⟨t, e, r⟩ := initBus_spec s.seq s
  exact ⟨t, by rw [exec_init_top h, e]; rfl, r.busIs, ⟨r.pushes, r.latches, r.wePulses⟩, r.run.sameServer r.seq,
    r.run.ee, r.run.grows, r.run.ret, r.draws⟩

/-- Settles O16: on a ready bus `presentAddress_spec`. -/
theorem setAddressEndState : Obligations.SetAddressEndState := by
  intro a oe s h hr
  obtain ⟨t, e, r⟩ := presentAddress_spec a oe s.seq hr.pins.1
  exact ⟨t, by rw [exec_setAddress_ready h hr, e]; rfl, r.busIs hr, ⟨r.pushes, r.latches, r.wePulses⟩,
    r.run.sameServer r.seq, r.run.ee, r.run.grows, r.run.ret, r.draws⟩

/-- Settles O19: on a ready bus `readCell_spec`, whatever the byte. -/
theorem readEndState : Obligations.ReadEndState := by
  intro a s hr
  obtain ⟨r, t, e, k, -⟩ := readCell_spec a s.seq hr.pins.1
  exact ⟨r, { t with ret := .u8 r }, by rw [exec_read_ready hr, e]; rfl, rfl, k.busIs hr,
    ⟨k.pushes, k.latches, k.wePulses⟩, k.run.sameServer k.seq, k.run.ee, k.run.grows⟩

/-- Settles O20: with the chip idle and in time the byte sampled is the cell's (`readCell_spec`). -/
theorem readGivesCell : Obligations.ReadGivesCell := by
  intro a s hr hb hm
  have ⟨_, _, hw, ha⟩ := hr
  obtain ⟨hc, -, -, -, hwe⟩ := hr.pins
  obtain ⟨r, t, e, k, hv⟩ := readCell_spec a s.seq hc
  obtain ⟨hv, hd⟩ := hv hb hm (by rw [hwe]) hw ha
  obtain ⟨hbt, hct⟩ := k.run.idle hb
  exact ⟨{ t with ret := .u8 r }, by rw [exec_read_ready hr, e]; rfl, congrArg Value.u8 hv, hbt, sameCells_of_cell hct,
    hd⟩

/-! ### WRITE -/

/-- Settles O21: WRITE ends with its elision READ and the `Elided` event (`writeCell_elides`). -/
theorem writeElided : Obligations.WriteElided := by
  intro a v s hr hb hm hv
  have ⟨_, _, hw, ha⟩ := hr
  obtain ⟨hc, -, -, -, hwe⟩ := hr.pins
  obtain ⟨u, k, hd, e⟩ := writeCell_elides a v s.seq hc hb hm (by rw [hwe]) hw ha hv
  have r : BusRun s ((u.emit (.elided a)).back s.seq) := k.run.trans (BusRun.of_bus [.elided a] rfl rfl)
  obtain ⟨c1, c2, c3⟩ := counters_append (s := u) (t := u.emit (.elided a)) [.elided a] rfl
  obtain ⟨hbt, hct⟩ := r.idle hb
  exact ⟨(u.emit (.elided a)).back s.seq, by rw [exec_write_ready hr, e]; rfl, k.busIs hr,
    ⟨c1.trans k.pushes, c2.trans k.latches, c3.trans k.wePulses⟩, List.getLast?_concat, hbt, sameCells_of_cell hct,
    r.sameServer rfl, r.grows, r.ret, hd⟩

/-- The write phase of WRITE leaves the server alone, as its READ has. -/
theorem WriteEnd.sameServer {a : Nat} {v : Byte} {s u t : State} (h : WriteEnd a v u t) (hu : BusRun s u) :
    SameServer s { t with seq := s.seq } :=
  ⟨h.fwd.cfg.trans hu.fwd.cfg, h.toHost.trans hu.toHost, h.rxTimeout.trans hu.rxTimeout, h.fsm.trans hu.fsm,
    h.table.trans hu.table, rfl, h.calls.trans hu.calls, h.faults.trans hu.faults, h.refused.trans hu.refused⟩

theorem OthersOnly.place {t u : State} (h : OthersOnly t u) : u.seq = t.seq := by rw [h.2]

/-- A WRITE held in its settle delay returns at CTRL's first turn after the cycle is over (R79, R85). -/
theorem step_write_held {a : Nat} {v : Byte} {base : List Frame} {u : State}
    (hs : u.seq = .op (.delay .tSettle) 1 :: .op (.write a v) 19 :: base) (hb : u.busy = none) (hr : u.Running)
    (hc : CtrlTurn u) : step u = .next (returnTo base .none { u.turnTaken with seq := base }) := by
  rw [step_settle hr hc hs, settleAgain_idle _ (by exact hb)]; rfl

/-- Settles O22: WRITE is its READ and the write phase (`writeCell_performs`), and the array is what `exec_write_settled`
says once the cycle is over. -/
theorem writePerformed : Obligations.WritePerformed := by
  intro a v s hr hb hsw hv
  have ⟨_, _, hw, ha⟩ := hr
  obtain ⟨hc, -, -, -, hwe⟩ := hr.pins
  obtain ⟨u, t, k, hd, e, w, p⟩ := writeCell_performs a v s.seq hc hb hsw (by rw [hwe]) hw ha hv
  have ht : exec (.write a v) s = .next t := by rw [exec_write_ready hr, e]
  have grows : OnlyArrivals s t := e ▸ (writeCell_busOnly a v s.seq s).grows
  have settled : ∀ x, OthersOnly t x → x.busy = none →
      x.cellByte a = v ∧ ∀ y, y ≠ a → x.cellByte y = s.cellByte y := by
    obtain ⟨t', ht', -, h⟩ := exec_write_settled hr hb hsw v
    cases ht.symm.trans ht'
    exact fun x ho hx => (h x ho hx).2.2
  refine ⟨t, ht, w.busIs k hr, ⟨?_, ?_, ?_⟩, w.sameServer k.run, grows, w.ret.trans k.run.ret, w.draws.trans hd,
    settled, ?_⟩
  · rw [w.pushes, k.pushes]
  · rw [w.latches, k.latches]
  · rw [w.wePulses, k.wePulses]
  · rcases p with ⟨hs, hbt, -⟩ | ⟨hs, hbt, hct⟩
    · exact .inl ⟨hs, hbt⟩
    · exact .inr ⟨hs, hbt, sameCells_of_cell (hct.trans (k.run.idle hb).2), fun x ho hx hrun hturn =>
        step_write_held (ho.place.trans hs) hx hrun hturn⟩

end Sys2Proof.Machine
end

section
/-! The pieces of READ and WRITE event by event where no HOST or EE step falls into them (spec/41_bus_controller.md R84, R85):
where contention begins and ends (spec/70_reset_and_hazards.md R135), and the events of each. -/

namespace Sys2Proof.Machine

/-! ### Contention (R71) -/

section contention

variable {s t : State}

theorem contention_iff : s.contention = true ↔ s.eeDrives = true ∧ ∃ p : Line, s.dir[p] = .out := by
  refine ⟨fun h => ?_, fun ⟨he, p, hd⟩ => contention_of_out hd he⟩
  obtain ⟨he, ho⟩ := Bool.and_eq_true_iff.1 h
  obtain ⟨d, hd, hout⟩ := List.any_eq_true.1 ho
  obtain ⟨i, hi, hg⟩ := Vector.getElem_of_mem (Vector.mem_toList_iff.1 hd)
  exact ⟨he, ⟨i, hi⟩, hg.trans (eq_of_beq hout)⟩

theorem not_contention_of_silent_chip (h : s.eeDrives = false) : s.contention = false := by
  rw [State.contention, h, Bool.false_and]

theorem not_contention_of_inputs (h : s.dir = allLines .inp) : s.contention = false := by
  rw [Bool.eq_false_iff, Ne, contention_iff, h]
  rintro ⟨-, p, hp⟩
  simp [allLines] at hp

theorem contentionEvent_begins (hs : s.contention = false) (ht : t.contention = true) :
    contentionEvent s t = [.contention] := by
  rw [contentionEvent, hs, ht]; rfl

theorem contentionEvent_silent (h : t.contention = true → s.contention = true) : contentionEvent s t = [] := by
  cases ht : t.contention with
  | false => rw [contentionEvent, ht, Bool.and_false, if_neg Bool.false_ne_true]
  | true => rw [contentionEvent, h ht, Bool.not_true, Bool.false_and, if_neg Bool.false_ne_true]

theorem contentionEvent_of_not (h : t.contention = false) : contentionEvent s t = [] :=
  contentionEvent_silent fun ht => absurd ht (by rw [h]; exact Bool.false_ne_true)

/-- The output enable bit of the latched word decides whether the chip drives (R54, R71). -/
theorem eeDrives_of_word {a : Nat} {oe : Bool} (h : a < 2 ^ 15) (hq : s.q = srwWord a oe) :
    s.eeDrives = (oe && s.pinWe.level) := by
  rw [State.eeDrives, hq, srwWord_noe oe h, Bool.not_not]

theorem BusKept.eeDrives (h : BusKept s t) : t.eeDrives = s.eeDrives := by
  rw [State.eeDrives, h.q, h.pinWe, ← State.eeDrives]

theorem BusKept.contention (h : BusKept s t) : t.contention = s.contention := by
  rw [State.contention, h.eeDrives, h.dir, ← State.contention]

end contention

/-! ### The data lines -/

section lines

variable {p : Line} {s : State}

/-- The event of DATA_DIR is that of its change (R75). -/
theorem dataDir_hist (p : Line) (d : Dir) (s : State) :
    (dataDir p d s).hist = s.hist ++ contentionEvent s (dataDir p d s) := by
  rw [dataDir_eq]; rfl

/-- A line made an output while the chip drives is contention, whatever the others are. -/
theorem dataDir_out_contention (h : s.eeDrives = true) : (dataDir p .out s).contention = true := by
  rw [dataDir_eq]
  exact contention_of_out (p := p) (dir_set_self s.dir p .out) h

/-- A line made an input begins no contention. -/
theorem contention_of_dataDir_inp (h : (dataDir p .inp s).contention = true) : s.contention = true := by
  rw [dataDir_eq] at h
  obtain ⟨he, r, hr⟩ := contention_iff.1 h
  refine contention_iff.2 ⟨he, r, ?_⟩
  rcases eq_or_ne p r with rfl | hne
  · cases (dir_set_self s.dir p .inp).symm.trans hr
  · exact (Vector.getElem_set_ne p.isLt r.isLt (Fin.val_ne_of_ne hne)).symm.trans hr

end lines

/-! ### The pieces under a quiet schedule -/

theorem BusRun.quiet {s t : State} (h : BusRun s t) (hq : s.Quiet) : t.Quiet :=
  List.suffix_nil.1 (hq ▸ h.fwd.sched)

section quiet

variable (i : Instr) (base : List Frame) {s : State}

theorem micro_hist (k : Nat) (hq : s.Quiet) : (s.micro i k base).hist = s.hist := by
  rw [micro_quiet hq]

/-- Lines made inputs, or made outputs while there is contention already, cause no event. -/
theorem setDirs_silent {d : Dir} (l : List Line) (k : Nat) (hq : s.Quiet) (h : d = .inp ∨ s.contention = true) :
    (setDirs i base d k l s).hist = s.hist := by
  induction l generalizing k s with
  | nil => rfl
  | cons p ps ih =>
    have hm := micro_hist i base k hq
    have kept := micro_kept i k base s
    have hset := setDirs_spec i base d [p] k s
    simp only [setDirs] at hset ⊢
    have next : d = .inp ∨ (dataDir p d (s.micro i k base)).contention = true := by
      cases d with
      | inp => exact .inl rfl
      | out =>
        have hs := h.resolve_left (by nofun)
        exact .inr (dataDir_out_contention (kept.eeDrives.trans (contention_iff.1 hs).1))
    have silent : contentionEvent (s.micro i k base) (dataDir p d (s.micro i k base)) = [] := by
      rcases h with rfl | h
      · exact contentionEvent_silent contention_of_dataDir_inp
      · exact contentionEvent_silent fun _ => kept.contention.trans h
    rw [ih (k + 1) (hset.run.quiet hq) next, dataDir_hist, silent, List.append_nil, hm]

/-- Where the chip drives and all lines are inputs, contention begins with the first line made an output (R135). -/
theorem setDirs_out_hist (k : Nat) (hq : s.Quiet) (hd : s.dir = allLines .inp) (he : s.eeDrives = true) :
    (setDirs i base .out k linesUp s).hist = s.hist ++ [.contention] := by
  have kept := micro_kept i k base s
  have first := dataDir_out_contention (p := 0) (kept.eeDrives.trans he)
  have hset := setDirs_spec i base .out [0] k s
  rw [show linesUp = 0 :: linesUp.tail from rfl]
  simp only [setDirs] at hset ⊢
  rw [setDirs_silent i base _ _ (hset.run.quiet hq) (.inr first), dataDir_hist,
    contentionEvent_begins (not_contention_of_inputs (kept.dir.trans hd)) first, micro_hist i base k hq]

theorem driveByte_hist (v : Byte) (l : List Line) (k : Nat) (hq : s.Quiet) :
    (driveByte i base v k l s).hist = s.hist := by
  induction l generalizing k s with
  | nil => rfl
  | cons p ps ih =>
    have hm : (dataOut p (bitOf v p) (s.micro i k base)).Quiet := (micro_busRun i k base s).quiet hq
    exact (ih (k + 1) hm).trans (micro_hist i base k hq)

theorem sampleByte_hist (l : List Line) (k : Nat) (r : Byte) (hq : s.Quiet) :
    (sampleByte i base k l r s).2.hist = s.hist := by
  induction l generalizing k r s with
  | nil => rfl
  | cons p ps ih =>
    obtain ⟨n, e⟩ := dataIn_eq p (s.micro i k base)
    have hm : (dataIn p (s.micro i k base)).2.Quiet := by rw [e]; exact (micro_busRun i k base s).quiet hq
    exact (ih (k + 1) _ hm).trans (by rw [e]; exact micro_hist i base k hq)

/-- SET_ADDRESS with no contention afterwards: two pushes and one latch. -/
theorem presentAddress_hist (a : Nat) (oe : Bool) {t : State} (hq : s.Quiet) (hr : s.ctlReady = true)
    (e : presentAddress a oe base s = .ok () t)
    (hn : ({ s with q := srwWord a oe } : State).contention = false) :
    t.hist = s.hist ++ [.push (hiByte (srwWord a oe)), .push (loByte (srwWord a oe)), .latch (srwWord a oe)] := by
  rw [presentAddress_quiet a oe base hr hq, contentionEvent_of_not hn, List.append_nil] at e
  cases e; rfl

end quiet

/-! ### The operations under a quiet schedule -/

/-- READ makes all lines inputs before its latch, so it causes no contention (R84). -/
theorem readCell_hist (a : Nat) (base : List Frame) {s : State} (hq : s.Quiet) (hr : s.ctlReady = true) :
    (readCell a base s).state.hist = s.hist ++
      [.push (hiByte (srwWord a true)), .push (loByte (srwWord a true)), .latch (srwWord a true)] := by
  simp only [readCell]
  generalize Instr.read a = i
  have d := setDirs_spec i base .inp linesUp 0 s
  have hd := setDirs_silent i base linesUp 0 hq (.inl rfl)
  generalize setDirs i base .inp 0 linesUp s = s1 at *
  have k := micro_kept i 8 base s1
  have r := d.run.trans (micro_busRun i 8 base s1)
  have hm := micro_hist i base 8 (d.run.quiet hq)
  generalize s1.micro i 8 base = m at *
  have hc : m.ctlReady = true := k.ctlReady.trans (d.ctlReady.trans hr)
  obtain ⟨u, e, p⟩ := presentAddress_spec a true (.op i 8 :: base) hc
  have hp := presentAddress_hist _ a true (r.quiet hq) hc e
    (not_contention_of_inputs ((k.dir.trans d.dir).trans (setAll_dir s.dir .inp)))
  have hs := sampleByte_hist i base linesDown 9 0 ((r.trans p.run).quiet hq)
  rw [e]
  simp only [Flow.bind]
  generalize sampleByte i base 9 linesDown 0 u = x at *
  exact hs.trans (by rw [hp, hm, hd])

end Sys2Proof.Machine
end

section
/-! WRITE up to its pulse and after it (spec/41_bus_controller.md R85): its one fault (spec/60_exceptions.md R116), and the
events of a performed WRITE (spec/70_reset_and_hazards.md R135). -/

namespace Sys2Proof.Machine

/-! ### The write phase at its pulse -/

/-- `n` is where the write phase of WRITE a, v that began in `s` pulses write enable (R85). -/
structure AtPulse (a : Nat) (v : Byte) (s n : State) : Prop where
  run : BusRun s n
  ctlReady : n.ctlReady = true
  q : n.q = srwWord a false
  dir : n.dir = allLines .out
  dout : n.dout = v
  events : s.Quiet → s.dir = allLines .inp → s.eeDrives = true → a < 2 ^ 15 → n.hist = s.hist ++
    [.contention, .push (hiByte (srwWord a false)), .push (loByte (srwWord a false)), .latch (srwWord a false)]

/-- What follows the pulse is the settle delay, which records no fault and causes no event. -/
theorem afterPulse (i : Instr) (base : List Frame) (x : Flow Unit) :
    let t := (x.bind fun _ w => (settle (.op i 19 :: base) (w.micro i 19 base)).bind fun _ u =>
      .ok () (u.back base)).state
    t.faults = x.state.faults ∧ (x.state.Quiet → t.hist = x.state.hist) := by
  cases x with
  | stop w => exact ⟨rfl, fun _ => rfl⟩
  | ok _ w =>
    have hf := (micro_busRun i 19 base w).faults
    have hh : w.Quiet → _ := micro_hist i base 19
    simp only [Flow.bind]
    rcases settle_spec (.op i 19 :: base) (w.micro i 19 base) with ⟨e, -⟩ | ⟨e, -⟩ <;> rw [e]
    · exact ⟨hf, hh⟩
    · exact ⟨hf, hh⟩

/-- The write phase gets to its pulse, whatever HOST and EE do, and adds nothing of its own afterwards. -/
theorem writePhase_pulses (a : Nat) (v : Byte) (base : List Frame) {s : State} (hr : s.ctlReady = true) :
    ∃ n, AtPulse a v s n ∧ (writePhase a v base s).state.faults = (wePulse n).state.faults ∧
      ((wePulse n).state.Quiet → (writePhase a v base s).state.hist = (wePulse n).state.hist) := by
  simp only [writePhase]
  generalize Instr.write a v = i
  have d := setDirs_spec i base .out linesUp 1 s
  have hd := setDirs_out_hist i base (s := s) 1
  generalize setDirs i base .out 1 linesUp s = s1 at *
  have k := micro_kept i 9 base s1
  have r := d.run.trans (micro_busRun i 9 base s1)
  have hm := fun hq => micro_hist i base 9 (d.run.quiet hq)
  generalize s1.micro i 9 base = m at *
  have hc : m.ctlReady = true := k.ctlReady.trans (d.ctlReady.trans hr)
  obtain ⟨u, e, p⟩ := presentAddress_spec a false (.op i 9 :: base) hc
  have hp := fun hq => presentAddress_hist _ a false (r.quiet hq) hc e
  rw [e]
  simp only [Flow.bind]
  have f := driveByte_spec i base v linesUp 10 u
  have hf := fun hq => driveByte_hist i base v linesUp 10 ((r.trans p.run).quiet hq)
  generalize driveByte i base v 10 linesUp u = s2 at *
  have k2 := micro_kept i 18 base s2
  have r2 := (r.trans p.run).trans f.run
  have hm2 := fun hq => micro_hist i base 18 (r2.quiet hq)
  refine ⟨s2.micro i 18 base, ?_, afterPulse i base _⟩
  exact {
    run := r2.trans (micro_busRun i 18 base s2)
    ctlReady := k2.ctlReady.trans (f.ctlReady.trans p.ctlReady)
    q := k2.q.trans (f.q.trans p.q)
    dir := by rw [k2.dir, f.dir, p.dir, k.dir, d.dir, setAll_dir]; rfl
    dout := by rw [k2.dout, f.dout, setAll_up]
    events := fun hq hdir he ha => by
      have hoff := not_contention_of_silent_chip (s := { m with q := srwWord a false })
        (eeDrives_of_word (oe := false) ha rfl)
      rw [hm2 hq, hf hq, hp hq hoff, hm hq, hd hq hdir he, List.append_assoc]; rfl }

/-! ### The faults of WRITE -/

/-- Between `s` and `t` no fault but WRITE_WHILE_BUSY was recorded, and none where no write cycle was in progress (R116). -/
def FaultsOnlyBusy (s t : State) : Prop :=
  (∀ f ∈ t.faults, f ∈ s.faults ∨ ∃ a d q, f = .writeWhileBusy a d q) ∧ (s.busy = none → t.faults = s.faults)

theorem faultsOnlyBusy_of_same {s t : State} (h : t.faults = s.faults) : FaultsOnlyBusy s t :=
  ⟨fun _ hf => .inl (h ▸ hf), fun _ => h⟩

/-- Pieces of a bus operation before it record no fault and start no write cycle. -/
theorem FaultsOnlyBusy.after {s m t : State} (h : FaultsOnlyBusy m t) (hm : BusRun s m) : FaultsOnlyBusy s t := by
  obtain ⟨hf, hn⟩ := h
  exact ⟨by rwa [hm.faults] at hf, fun hb => (hn (hm.idle hb).1).trans hm.faults⟩

/-- Past its other checks WE_PULSE faults only while a write cycle is in progress (R78, R118). -/
theorem wePulse_faultsOnlyBusy {s : State} (hr : s.ctlReady = true) (hq : s.q.getLsbD 15 = true) :
    FaultsOnlyBusy s (wePulse s).state := by
  cases hb : s.busy with
  | none =>
    obtain ⟨d, b, n, e, -⟩ := wePulse_ok hr hq hb
    rw [e]; exact faultsOnlyBusy_of_same rfl
  | some e =>
    obtain ⟨a, d⟩ := e
    rw [wePulse_busy hr hq hb]
    refine ⟨fun f hf => ?_, fun h => by rw [hb] at h; cases h⟩
    simp only [Flow.state, stoppedAt, addFault] at hf
    split at hf
    · exact .inl hf
    · exact (List.mem_append.1 hf).imp_right fun h => ⟨a, d, s.q, List.mem_singleton.1 h⟩

/-- Output enable is off at the pulse, and nothing else in the write phase can fault (R85). -/
theorem writePhase_faultsOnlyBusy {a : Nat} (v : Byte) (base : List Frame) {s : State} (hr : s.ctlReady = true)
    (ha : a < 2 ^ 15) : FaultsOnlyBusy s (writePhase a v base s).state := by
  obtain ⟨n, h, hf, -⟩ := writePhase_pulses a v base hr
  have pulse := wePulse_faultsOnlyBusy h.ctlReady (by rw [h.q, srwWord_noe false ha]; rfl)
  rw [FaultsOnlyBusy, hf]
  exact pulse.after h.run

/-- Settles O24: the READ of WRITE records no fault, and then the `Elided` event ends it or the write phase does. -/
theorem writeFaultsOnlyBusy : Obligations.WriteFaultsOnlyBusy := by
  intro a v s hr
  have ⟨_, _, hw, ha⟩ := hr
  refine ⟨(writeCell a v s.seq s).state, exec_write_ready hr v, (writeCell_busOnly a v s.seq s).refused, ?_⟩
  change FaultsOnlyBusy s _
  obtain ⟨cur, u, e, k, -⟩ := readCell_spec a (.op (.write a v) 0 :: s.seq) hr.pins.1
  rw [writeCell, e]
  simp only [Flow.bind]
  split
  case isTrue => exact (faultsOnlyBusy_of_same (s := u) rfl).after k.run
  case isFalse => exact (writePhase_faultsOnlyBusy v s.seq k.ctlReady (maxAddress_lt hw ha).2).after k.run

/-! ### The events of a performed WRITE -/

/-- The write phase after a READ: contention from the first line made an output to the latch that disables the chip's
output. -/
theorem writePhase_hist {a : Nat} {d : Byte} (v : Byte) (base : List Frame) {s : State} (hq : s.Quiet)
    (h : BusIs (srwWord a true) (allLines .inp) d s) (hb : s.busy = none) (hw : s.cfg.addrWidth ≤ 15)
    (ha : addressInRange s.cfg a = true) :
    (writePhase a v base s).state.hist = s.hist ++
      [.contention, .push (hiByte (srwWord a false)), .push (loByte (srwWord a false)), .latch (srwWord a false),
        .wePulse a v] := by
  obtain ⟨-, hword, hdir, -, -, -, -, hwe, hr, -⟩ := h
  have hlt := (maxAddress_lt hw ha).2
  obtain ⟨n, h, -, hh⟩ := writePhase_pulses a v base hr
  have hba : n.busAddress = a := busAddress_of_word false (by rwa [h.run.fwd.cfg]) (by rwa [h.run.fwd.cfg]) h.q
  obtain ⟨x, b, m, e, -, -, -, hx⟩ := wePulse_ok h.ctlReady (by rw [h.q, srwWord_noe false hlt]; rfl) (h.run.idle hb).1
  obtain ⟨rfl, -⟩ := hx h.dir
  rw [e] at hh
  rw [hh (h.run.quiet hq)]
  simp only [Flow.state]
  rw [hba, h.dout, h.events hq hdir (by rw [eeDrives_of_word hlt hword, hwe]; rfl) hlt, List.append_assoc]
  rfl

/-- Settles O23: the events of the READ, then those of the write phase. -/
theorem writeTrace : Obligations.WriteTrace := by
  intro a v s hr hb hsw hv hq
  have ⟨_, _, hw, ha⟩ := hr
  obtain ⟨hc, -, -, -, hwe⟩ := hr.pins
  refine ⟨_, exec_write_ready hr v, ?_⟩
  have hread := readCell_hist a (.op (.write a v) 0 :: s.seq) hq hc
  obtain ⟨cur, u, e, k, hval⟩ := readCell_spec a (.op (.write a v) 0 :: s.seq) hc
  obtain ⟨rfl, -⟩ := hval hb hsw.1 (by rw [hwe]) hw ha
  have hcfg := k.run.fwd.cfg
  rw [e] at hread
  rw [writeCell, e]
  simp only [Flow.bind, elides, beq_eq_false_iff_ne.2 hv, Bool.false_eq_true, if_false]
  rw [writePhase_hist v s.seq (k.run.quiet hq) (k.busIs hr) (k.run.idle hb).1 (by rwa [hcfg]) (by rwa [hcfg])]
  simp only [Flow.state] at hread
  rw [hread, List.append_assoc]
  rfl

end Sys2Proof.Machine
end

section
/-! The host's steps and the calls of the transport that take no byte and send none or a text (spec/42_byte_transport.md R89 to
R91, R103 to R106, spec/60_exceptions.md R116). -/

namespace Sys2Proof.Machine

/-! ### HOST's steps -/

section host

variable {s : State} (b : Byte)

theorem hostSend_room (hl : s.link = true) (hx : s.rx.length < s.cfg.rxCapacity) :
    hostSend b s = { s with rx := s.rx ++ [b], hist := s.hist ++ [.rx b] } := by
  rw [hostSend, if_pos hl, if_pos hx]; rfl

theorem hostSend_full (hl : s.link = true) (hx : s.cfg.rxCapacity ≤ s.rx.length) :
    hostSend b s = { s with hist := s.hist ++ [.rxDropped b] } := by
  rw [hostSend, if_pos hl, if_neg (Nat.not_lt.2 hx)]; rfl

theorem hostSend_down (hl : s.link = false) : hostSend b s = s := by
  rw [hostSend, hl, if_neg Bool.false_ne_true]

end host

/-- Settles O47: the link, then the room in `rx`, decides what becomes of the byte. -/
theorem hostSends : Obligations.HostSends := fun b _ =>
  ⟨fun hl hx => congrArg _ (hostSend_room b hl hx), fun hl hx => congrArg _ (hostSend_full b hl hx),
    fun hl => congrArg _ (hostSend_down b hl)⟩

/-- Settles O48: each step is `setLink`. -/
theorem linkSteps : Obligations.LinkSteps := fun _ => ⟨rfl, rfl⟩

/-! ### The link, the wait bound and the number of bytes -/

/-- Settles O28: each call reads or writes its one field. -/
theorem linkStatusAndTimeout : Obligations.LinkStatusAndTimeout := fun _ _ => ⟨rfl, rfl⟩

/-- AVAILABLE counts the bytes in `rx` (R91). -/
theorem exec_available (s : State) : exec .available s = .next { s with ret := .count s.rx.length } := rfl

/-- Settles O29: the answer is the length of `rx`, which a HOST_SEND that finds room then makes one longer. -/
theorem availableCounts : Obligations.AvailableCounts := by
  intro s
  refine ⟨exec_available s, fun hcap n t e hn => ?_, fun hl hx b => ⟨_, _, exec_available s, rfl, ?_, ?_⟩⟩
  · cases e
    cases hn
    exact hcap
  · rw [hostSend_room b (by exact hl) (by exact hx)]
    exact List.length_append
  · rw [hostSend_room b (by exact hl) (by exact hx)]

/-! ### PRINT and PRINTLN -/

/-- Text without `0x00` is sent with its terminator, as any operation sends bytes (R64, R87). -/
theorem printText_sends (i j : Instr) {text : List Byte} (h : 0 ∉ text) (s : State) :
    printText i text s = sendAll j (text ++ [0]) s := by
  rw [printText, if_neg (by rwa [List.contains_iff_mem])]
  exact sendAll_eq i j _ s

theorem printText_faults (i : Instr) {text : List Byte} (h : 0 ∈ text) (s : State) :
    printText i text s = stoppedAt i (.textContainsNul i text) s := by
  rw [printText, if_pos (List.contains_iff_mem.2 h)]; rfl

/-- Settles O37: whether the text holds `0x00` decides between the sending and the fault. -/
theorem printsText : Obligations.PrintsText := fun text s =>
  ⟨fun h => ⟨sendAll (.writeBuffer (text ++ [0])) (text ++ [0]) s,
      congrArg Host.Outcome.next (printText_sends (.print text) _ h s),
      congrArg Host.Outcome.next (printText_sends (.println text) _ h s), rfl⟩,
    fun h => ⟨congrArg Host.Outcome.next (printText_faults (.print text) h s),
      congrArg Host.Outcome.next (printText_faults (.println text) h s)⟩⟩

end Sys2Proof.Machine
end

section
/-! The bytes of the wire integers (spec/30_encoding.md R63, R94 to R102): the digits the encoder writes and the signed value
the decoder reads. -/

namespace Sys2Proof

/-! ### The encoder's digits -/

/-- Taking an integer modulo 2^(8m) keeps its lower `m` digits in base 256. -/
theorem digit_emod {m k : Nat} (hk : k < m) (x : Int) :
    x % 2 ^ (8 * m) / 2 ^ (8 * k) % 256 = x / 2 ^ (8 * k) % 256 := by
  have hpow : (2 : Int) ^ (8 * m) = 2 ^ (8 * k) * (256 * 2 ^ (8 * (m - k - 1))) := by
    rw [show (256 : Int) = 2 ^ 8 from rfl, ← pow_add, ← pow_add]
    congr 1
    omega
  have hx : x = x % 2 ^ (8 * m) + 2 ^ (8 * k) * (256 * (2 ^ (8 * (m - k - 1)) * (x / 2 ^ (8 * m)))) := by
    conv_lhs => rw [← Int.emod_add_mul_ediv x (2 ^ (8 * m))]
    rw [hpow]
    ring
  conv_rhs => rw [hx]
  rw [Int.add_mul_ediv_left _ _ (by positivity), Int.add_mul_emod_self_left]

/-- Byte `k` of the encoder is floor(x / 256^k) mod 256 (R99). -/
theorem leiEncode_digits (m : Nat) (x : Int) :
    leiEncode m x = (List.range m).map fun k => BitVec.ofInt 8 (x / 2 ^ (8 * k)) := by
  rw [leiEncode_eq]
  refine List.map_congr_left fun k hk => ?_
  rw [← BitVec.ofInt_natCast]
  apply BitVec.eq_of_toNat_eq
  rw [BitVec.toNat_ofInt, BitVec.toNat_ofInt, BitVec.toNat_ofInt]
  have h := digit_emod (List.mem_range.1 hk) x
  have h0 : 0 ≤ x % 2 ^ (8 * m) := Int.emod_nonneg _ (by positivity)
  push_cast
  rw [Int.toNat_of_nonneg h0, h]

/-! ### The decoder's value -/

/-- The first byte is the lowest (R63). -/
theorem ofNat_leNat_cons (m : Nat) (b : Byte) (r : List Byte) :
    BitVec.ofNat (8 * m + 8) (leNat (b :: r)) = BitVec.ofNat (8 * m) (leNat r) ++ b := by
  have hb := b.isLt
  have hlow : (b.toNat + 256 * leNat r) % 2 ^ 8 = b.toNat := by omega
  have hhigh : (b.toNat + 256 * leNat r) / 2 ^ 8 = leNat r := by omega
  apply BitVec.eq_of_toNat_eq
  rw [BitVec.toNat_append, ← Nat.shiftLeft_add_eq_or_of_lt hb, Nat.shiftLeft_eq, BitVec.toNat_ofNat, BitVec.toNat_ofNat,
    leNat, Nat.pow_add, Nat.mul_comm (2 ^ (8 * m)), Nat.mod_mul, hlow, hhigh, Nat.add_comm, Nat.mul_comm]

theorem ofNat_leNat_singleton (b : Byte) : BitVec.ofNat 8 (leNat [b]) = b := by
  rw [leNat, leNat, Nat.mul_zero, Nat.add_zero, BitVec.ofNat_toNat, BitVec.setWidth_eq]

/-- The decoder reads one, two or four bytes as `signedOf` does (R94 to R97). -/
theorem leiDecode_eq_signedOf {m : Nat} (hm : m = 1 ∨ m = 2 ∨ m = 4) {l : List Byte} (hl : l.length = m) :
    leiDecode m l = Machine.signedOf l := by
  subst hl
  match l, hm with
  | [b0], _ => exact congrArg BitVec.toInt (ofNat_leNat_singleton b0)
  | [b0, b1], _ =>
    exact congrArg BitVec.toInt ((ofNat_leNat_cons 1 b0 [b1]).trans (congrArg (· ++ b0) (ofNat_leNat_singleton b1)))
  | [b0, b1, b2, b3], _ =>
    have h2 : BitVec.ofNat 16 (leNat [b2, b3]) = b3 ++ b2 :=
      (ofNat_leNat_cons 1 b2 [b3]).trans (congrArg (· ++ b2) (ofNat_leNat_singleton b3))
    have h3 : BitVec.ofNat 24 (leNat [b1, b2, b3]) = b3 ++ b2 ++ b1 :=
      (ofNat_leNat_cons 2 b1 [b2, b3]).trans (congrArg (· ++ b1) h2)
    exact congrArg BitVec.toInt ((ofNat_leNat_cons 3 b0 [b1, b2, b3]).trans (congrArg (· ++ b0) h3))

end Sys2Proof
end

section
/-! The transport's sends (spec/42_byte_transport.md R87, R98 to R102): WRITE_BUFFER, and the integer writes by it. -/

namespace Sys2Proof.Machine

/-- What a run of sends leaves, back where the operation was called from. -/
theorem SentRun.returned {d : List Byte} {s t : State} (h : SentRun d s t) :
    OthersOnly { s with toHost := s.toHost ++ d, draws := t.draws } (t.back s.seq) :=
  RunOnly.returned h

/-- Settles O35: WRITE_BUFFER's sends are `txAll`, under every schedule (`txAll_spec`) and a quiet one (`txAll_quiet`). -/
theorem writeBufferSends : Obligations.WriteBufferSends := by
  refine fun buf s => ⟨?_, fun hq hl => congrArg Host.Outcome.next ?_⟩
  · obtain ⟨d, h, hrun, hhist, hwritten, hrx, hsub, hup⟩ := txAll_spec (.writeBuffer buf) s.seq 0 buf s
    exact ⟨sendAll (.writeBuffer buf) buf s, h, d, rfl, hhist, hwritten, hrx, hsub, hrun.returned, hup⟩
  · exact txAll_quiet (.writeBuffer buf) s.seq 0 buf hq hl s.seq

/-- An integer write sends what WRITE_BUFFER of the encoder's bytes sends. -/
theorem sendInt_eq (i : Instr) {m : Nat} {x : Int} {l : List Byte} (hl : leiEncode m x = l) (s : State) :
    sendAll i (leiEncode m x) s = sendAll (.writeBuffer l) l s := by
  rw [hl, sendAll_eq i (.writeBuffer l)]

/-- Settles O36: the encoder's bytes are the integer's digits (`leiEncode_digits`). -/
theorem integerWrites : Obligations.IntegerWrites := fun x s =>
  ⟨⟨_, congrArg Host.Outcome.next (sendInt_eq (.writeI8 x) (by simp [leiEncode_digits]) s), rfl⟩,
    ⟨_, congrArg Host.Outcome.next (sendInt_eq (.writeI16 x) (by simp [leiEncode_digits, List.range_succ]) s), rfl⟩,
    ⟨_, congrArg Host.Outcome.next (sendInt_eq (.writeI32 x) (by simp [leiEncode_digits, List.range_succ]) s), rfl⟩⟩

end Sys2Proof.Machine
end

section
/-! WAIT_FOR_BYTES (spec/42_byte_transport.md R92, spec/60_exceptions.md R118): its first look, each later turn of CTRL's, and
that it ends under every schedule (assumption log 4). -/

namespace Sys2Proof.Machine

/-! ### Called -/

theorem exec_waitForBytes_now {n : Nat} (d : Duration) {s : State} (h : n ≤ s.rx.length) :
    exec (.waitForBytes n d) s = .next { s with ret := .bool true } := by
  change (waitBytes n d s.seq s).finish _ = _
  rw [waitBytes_now d s.seq h]; rfl

theorem exec_waitForBytes_held {n : Nat} (d : Duration) {s : State} (h : s.rx.length < n) :
    exec (.waitForBytes n d) s = .next { s with seq := waitFrame n d :: s.seq } := by
  change (waitBytes n d s.seq s).finish _ = _
  rw [waitBytes_held d s.seq h]; rfl

/-- Inside WAIT_FOR_BYTES CTRL is held while the bytes are not there (R7). -/
theorem held_wait {s : State} {n : Nat} {d : Duration} {base : List Frame} (hr : s.Running)
    (hs : s.seq = waitFrame n d :: base) (hn : s.rx.length < n) : s.held = true := by
  obtain ⟨hf, hx⟩ := hr
  simp [State.held, State.stopped, waitMet, hf, hx, hs, hn]

/-! ### Held -/

section held

variable {s : State} {n : Nat} {d : Duration} {base : List Frame} (hr : s.Running) (hs : s.seq = waitFrame n d :: base)
include hr hs

/-- A turn of CTRL's that may not time out passes while the bytes are not there (R7). -/
theorem step_wait_holds (hc : CtrlTurn s) (hn : s.rx.length < n) (hl : s.mayTimeOut = false) :
    step s = .next s.turnTaken := by
  have hm : waitMet n s.turnTaken = false := decide_eq_false (Nat.not_le.2 hn)
  rw [step_wait hr hc hs, waitAgain, hm, hl]
  rfl

/-- A turn of CTRL's that ends the wait: with the bytes there, or by timeout. -/
theorem step_wait_ends (hc : CtrlTurn s) (he : n ≤ s.rx.length ∨ s.mayTimeOut = true) :
    step s = .next
      (if n ≤ s.rx.length then returnTo base (.bool true) { s.turnTaken with seq := base }
      else returnTo base (.bool false) { s.turnTaken.emit (.timeout .waitForBytes) with seq := base }) := by
  split
  case isTrue hn => exact step_wait_met hr hc hs hn
  case isFalse hn => exact step_wait_late hr hc hs (Nat.lt_of_not_le hn) (he.resolve_left hn)

end held

/-- Settles O30: the first look is `waitBytes`, each later turn of CTRL's ends the wait or passes. -/
theorem waitAtOnceOrTimeout : Obligations.WaitAtOnceOrTimeout := by
  intro n d s
  refine ⟨exec_waitForBytes_now d, fun hn => ⟨exec_waitForBytes_held d hn, fun hr => held_wait hr rfl hn⟩,
    fun base hr hc hs => ?_⟩
  split
  case isTrue hn => exact step_wait_met hr hc hs hn
  case isFalse hn =>
    have hlt := Nat.lt_of_not_le hn
    split
    case isTrue hl => exact step_wait_late hr hc hs hlt hl
    case isFalse hl => exact step_wait_holds hr hs hc hlt (by simpa using hl)

/-! ### Under every schedule -/

theorem Others.running {s t : State} (h : Others s t) (hr : s.Running) : t.Running :=
  ⟨h.faults.trans hr.1, h.refused.trans hr.2⟩

/-- At the schedule's end, with the chip idle, the turn is CTRL's and a wait may time out (assumption log 4). -/
theorem lastTurn {s : State} (h : s.sched = []) (hb : s.busy = none) : CtrlTurn s ∧ s.mayTimeOut = true :=
  ⟨⟨fun _ _ h' => (nomatch h.symm.trans h'), fun _ => hb⟩, by rw [State.mayTimeOut, h]; rfl⟩

/-- An entry of the schedule that is no step of HOST's or EE's is CTRL's turn. -/
theorem ctrlTurn_of_head {s : State} {x : Slot} {r : List Slot} (h : s.sched = x :: r) (hx : ∀ e, x ≠ .env e) :
    CtrlTurn s :=
  ⟨fun e _ h' => hx e (List.cons.inj (h.symm.trans h')).1, fun h' => nomatch h.symm.trans h'⟩

/-- A step of HOST's or EE's that the schedule holds (R6). -/
theorem step_env {s : State} {e : Env} {r : List Slot} (h : s.sched = .env e :: r) :
    step s = .next (applyEnv e { s with sched := r }) := by
  rw [step, nextTurn, h]
  exact exec_envInstr e _

/-- Within `m` steps, in which HOST and EE alone act, a turn of CTRL's comes that ends a wait for `n` bytes. -/
def ReachesEnd (n m : Nat) (s : State) : Prop :=
  ∃ k u, k ≤ m ∧ Host.Core.run core k s = .next u ∧ Others s u ∧ CtrlTurn u ∧ (n ≤ u.rx.length ∨ u.mayTimeOut = true)

theorem reachesEnd_now {n : Nat} (m : Nat) {s : State} (hc : CtrlTurn s) (he : n ≤ s.rx.length ∨ s.mayTimeOut = true) :
    ReachesEnd n m s :=
  ⟨0, s, Nat.zero_le _, rfl, Others.refl s, hc, he⟩

theorem ReachesEnd.before {n m : Nat} {s t : State} (h : ReachesEnd n m t) (hs : step s = .next t) (ho : Others s t) :
    ReachesEnd n (m + 1) s := by
  obtain ⟨k, u, hk, hu, hou, hend⟩ := h
  exact ⟨k + 1, u, Nat.succ_le_succ hk, (run_succ core hs k).trans hu, ho.trans hou, hend⟩

/-- Along the schedule HOST and EE act and CTRL's turns pass, until one of them ends the wait; at the schedule's end one does
once EE is done. -/
theorem wait_reachesEnd (l : List Slot) {s : State} {n : Nat} {d : Duration} {base : List Frame} (hl : s.sched = l)
    (hr : s.Running) (hs : s.seq = waitFrame n d :: base) : ReachesEnd n (l.length + 1) s := by
  induction l generalizing s with
  | nil =>
    by_cases hb : s.busy = none
    · obtain ⟨hc, ht⟩ := lastTurn hl hb
      exact reachesEnd_now _ hc (.inr ht)
    · obtain ⟨hc, ht⟩ := lastTurn ((applyEnv_sched .eeComplete s).trans hl) (eeComplete_notBusy s)
      exact (reachesEnd_now 0 hc (.inr ht)).before (step_eeLast hl hb) (eeComplete_others s)
  | cons x r ih =>
    have used : Others s { s with sched := r } := Others.used (hl ▸ List.suffix_cons x r)
    have passes {t : State} (ht : step s = .next t) (ho : Others s t) (htr : t.sched = r) :
        ReachesEnd n ((x :: r).length + 1) s :=
      (ih htr (ho.running hr) (ho.seq.trans hs)).before ht ho
    cases x with
    | env e => exact passes (step_env hl) (used.trans (applyEnv_others e _)) (applyEnv_sched e _)
    | timeout =>
      have hm : s.mayTimeOut = true := by rw [State.mayTimeOut, hl]; rfl
      exact reachesEnd_now _ (ctrlTurn_of_head hl (by nofun)) (.inr hm)
    | ctrl =>
      have hc := ctrlTurn_of_head hl (by nofun)
      by_cases hn : n ≤ s.rx.length
      · exact reachesEnd_now _ hc (.inl hn)
      · have hm : s.mayTimeOut = false := by rw [State.mayTimeOut, hl]; rfl
        have ht : s.turnTaken = { s with sched := r } := by rw [State.turnTaken, hl]; rfl
        exact passes (ht ▸ step_wait_holds hr hs hc (Nat.lt_of_not_le hn) hm) used rfl

theorem Others.arrivals {s t : State} (h : Others s t) : OnlyArrivals s t := by
  obtain ⟨l, hl, -, hx⟩ := h.grows
  exact ⟨l, hl, hx⟩

/-- Settles O31: the turn that `wait_reachesEnd` gives ends the wait (`step_wait_ends`). -/
theorem waitEndsTruly : Obligations.WaitEndsTruly := by
  intro n d base s hr hs
  obtain ⟨k, u, hk, hu, ho, hc, he⟩ := wait_reachesEnd s.sched rfl hr hs
  exact ⟨k, u, hk, hu, ho.only, ho.arrivals, step_wait_ends (ho.running hr) (ho.seq.trans hs) hc he,
    fun hcap hn => Nat.lt_of_le_of_lt (ho.cfg ▸ ho.bounded hcap) hn⟩

end Sys2Proof.Machine
end

section
/-! READ_BUFFER and the integer reads by it (spec/42_byte_transport.md R93 to R97): with the bytes there, held, and where the wait
times out (assumption log 5). -/

namespace Sys2Proof.Machine

/-! ### READ_BUFFER -/

/-- READ_BUFFER with too few bytes there is held in its wait, before anything but its place has changed (R93). -/
theorem readBytes_held {n : Nat} (base : List Frame) {s : State} (h : s.rx.length < n) :
    readBytes n base s = .stop { s with seq := waitFrame n s.rxTimeout :: .op (.readBuffer n) 0 :: base } := by
  rw [readBytes_eq, waitBytes_held _ _ h]; rfl

/-- HOST's events are no `Timeout` and no `ShortRead`. -/
theorem hostEvents_noShort {h : List Event} (hh : ∀ e ∈ h, hostEvent e = true) :
    .timeout .waitForBytes ∉ h ∧ ∀ k n, .shortRead .readBuffer k n ∉ h :=
  ⟨fun hm => (nomatch hh _ hm), fun _ _ hm => nomatch hh _ hm⟩

/-- Settles O32: READ_BUFFER pops the n oldest bytes (`readAfterWait_full`), and meanwhile HOST's events alone join the
history. -/
theorem readBufferFull : Obligations.ReadBufferFull := by
  intro n s hn
  obtain ⟨-, t, h, e, hseq, hrun, -, hhist, hhost, hrx⟩ | ⟨hlt, -⟩ := readBytes_cases n s.seq s
  · obtain ⟨htimeout, hshort⟩ := hostEvents_noShort hhost
    refine ⟨{ t with ret := .bytes (s.rx.take n) }, h, ?_, rfl, hhist, hrx, ⟨htimeout, fun k => hshort k n⟩,
      (hrun.only hseq).ret _⟩
    change (readBytes n s.seq s).finish _ = _
    rw [e]; rfl
  · exact absurd hn (Nat.not_le.2 hlt)

/-- READ_BUFFER held, where this turn of CTRL's times its wait out: it goes on with the bytes there and free ones. -/
theorem step_readBuffer_late {s : State} {n : Nat} {d : Duration} {base : List Frame} (hr : s.Running) (hc : CtrlTurn s)
    (hl : s.mayTimeOut = true) (hn : s.rx.length < n) (hs : s.seq = waitFrame n d :: .op (.readBuffer n) 0 :: base) :
    ∃ bs t, step s = .next (returnTo base (.bytes bs) t) ∧ ShortBytes n s bs ∧ ShortEnd n base s t := by
  obtain ⟨bs, t, e, hbytes, hend⟩ := readAfterWait_answers base (.op (.readBuffer n) 0 :: base) hn
  exact ⟨bs, t, by rw [step_wait_late hr hc hs hn hl, returnTo_readBuffer, e], hbytes, hend⟩

/-- Settles O33: READ_BUFFER is held by its wait, and goes on after the timeout with a short read. -/
theorem readBufferShort : Obligations.ReadBufferShort := by
  refine fun n s hn => ⟨?_, fun d base hr hc hl hs => step_readBuffer_late hr hc hl hn hs⟩
  change (readBytes n s.seq s).finish _ = _
  rw [readBytes_held s.seq hn]; rfl

/-! ### The integer reads -/

/-- The integer reads and their widths (R95 to R97). -/
def IntRead (i : Instr) (m : Nat) : Prop := i = .readI8 ∧ m = 1 ∨ i = .readI16 ∧ m = 2 ∨ i = .readI32 ∧ m = 4

section ints

variable {i : Instr} {m : Nat} (h : IntRead i m)
include h

theorem IntRead.width : m = 1 ∨ m = 2 ∨ m = 4 :=
  h.imp And.right fun h => h.imp And.right And.right

theorem IntRead.exec_eq (s : State) : exec i s = readInt i m s := by
  obtain ⟨rfl, rfl⟩ | ⟨rfl, rfl⟩ | ⟨rfl, rfl⟩ := h <;> rfl

/-- An integer read goes on after READ_BUFFER with the bytes decoded (R94). -/
theorem IntRead.goesOn (bs : List Byte) (base : List Frame) (s : State) :
    returnTo (.op i 0 :: base) (.bytes bs) s = returnTo base (.int (leiDecode m bs)) (s.back base) := by
  obtain ⟨rfl, rfl⟩ | ⟨rfl, rfl⟩ | ⟨rfl, rfl⟩ := h <;> rfl

end ints

/-- READ_BUFFER once its bytes are there does the same from every place, but for the place. -/
theorem readAfterWait_base (n : Nat) (base base' l l' q : List Frame) (s : State) :
    (readAfterWait n true base (s.back l)).1 = (readAfterWait n true base' (s.back l')).1 ∧
      (readAfterWait n true base (s.back l)).2.back q = (readAfterWait n true base' (s.back l')).2.back q :=
  rxPop_base (.readBuffer n) (.readBuffer n) base' base 1 1 n (s.back l') l q

/-- With the bytes there an integer read is READ_BUFFER with the bytes decoded (R94). -/
theorem readInt_now (i : Instr) {m : Nat} {s : State} (hn : m ≤ s.rx.length) :
    ∃ t, exec (.readBuffer m) s = .next t ∧ t.ret = .bytes (s.rx.take m) ∧
      readInt i m s = .next { t with ret := .int (leiDecode m (s.rx.take m)) } := by
  obtain ⟨t, -, e, hseq, -⟩ := readAfterWait_full s.seq (s := s.back (.op (.readBuffer m) 0 :: s.seq)) hn
  obtain ⟨hb, ht⟩ := readAfterWait_base m (.op i 0 :: s.seq) s.seq (.op (.readBuffer m) 0 :: .op i 0 :: s.seq)
    (.op (.readBuffer m) 0 :: s.seq) s.seq s
  rw [e] at hb ht
  refine ⟨{ t with ret := .bytes (s.rx.take m) }, ?_, rfl, ?_⟩
  · change (readBytes m s.seq s).finish _ = _
    rw [readBytes_now s.seq hn, e]; rfl
  · rw [readInt, readBytes_now _ hn, Flow.finish, hb, ht, back_eta hseq]; rfl

theorem readInt_short (i : Instr) {m : Nat} {s : State} (hn : s.rx.length < m) :
    readInt i m s = .next { s with seq := waitFrame m s.rxTimeout :: .op (.readBuffer m) 0 :: .op i 0 :: s.seq } := by
  rw [readInt, readBytes_held _ hn]; rfl

/-- What a short read leaves, once the operation that called READ_BUFFER has returned too. -/
theorem ShortEnd.back {n : Nat} {base : List Frame} {s t : State} (h : ShortEnd n base s t) (base' : List Frame) :
    ShortEnd n base' s (t.back base') := by
  obtain ⟨l, hhost, hhist, hrx, ho⟩ := h
  exact ⟨l, hhost, hhist, hrx, ho.1, congrArg (State.back base') ho.2⟩

/-- Two bytes are a signed 16-bit value (R63). -/
theorem signedOf_two_le {bs : List Byte} (h : bs.length = 2) : signedOf bs ≤ 32767 := by
  match bs with
  | [b0, b1] => exact BitVec.toInt_le

/-- Every address of an EEPROM within R5 is below 2^15. -/
theorem maxAddress_le {c : Config} (h : c.addrWidth ≤ 15) : maxAddress c ≤ 32767 :=
  Nat.sub_le_sub_right (Nat.pow_le_pow_right Nat.two_pos h) 1

/-- Settles O34: each integer read is READ_BUFFER of its width, whose bytes decode as `signedOf` does
(`leiDecode_eq_signedOf`). -/
theorem integerReads : Obligations.IntegerReads := by
  intro i m s (h : IntRead i m)
  have hsigned {l : List Byte} (hl : l.length = m) : leiDecode m l = signedOf l := leiDecode_eq_signedOf h.width hl
  refine ⟨fun hn => ?_, fun hn => ?_, fun d base hr hc hl hn hs => ?_, fun bs hm hbs => signedOf_two_le (hbs.trans hm),
    maxAddress_le⟩
  · rw [h.exec_eq, ← hsigned (List.length_take_of_le hn)]
    exact readInt_now i hn
  · rw [h.exec_eq]
    exact readInt_short i hn
  · obtain ⟨bs, t, e, hbytes, hend⟩ := step_readBuffer_late hr hc hl hn hs
    exact ⟨bs, t.back base, by rw [e, h.goesOn, hsigned hbytes.1], hbytes, hend.back base⟩

end Sys2Proof.Machine
end

section
/-! REGISTER_HANDLER (spec/43_command_server.md R109): the reserved opcodes (spec/30_encoding.md R67) and the slot it writes. -/

namespace Sys2Proof.Machine

/-- SYN, BYE and the deployment's extra opcodes are reserved, no others (R67). -/
theorem reservedOpcode_iff {c : Config} {op : Byte} :
    reservedOpcode c op = true ↔ op = 0x73 ∨ op = 0x62 ∨ op ∈ c.extraReserved := by
  simp only [reservedOpcode, codeSyn, codeBye, Bool.or_eq_true, beq_iff_eq, List.contains_iff_mem, or_assoc]

/-- A registration outside a handler, past the check of R67. -/
theorem exec_registerHandler_ok {op : Byte} {h : HandlerName} {s : State} (ht : s.inHandler = false)
    (hr : ¬ reservedOpcode s.cfg op = true) (hb : (bodyOf s.cfg h).isSome = true) :
    exec (.registerHandler op h) s = .next { s with table := sparsePut s.table op.toNat h } := by
  refine (unlessHandler_top ht _ _).trans ?_
  rw [if_neg hr, if_pos hb]

theorem exec_registerHandler_reserved {op : Byte} (h : HandlerName) {s : State} (ht : s.inHandler = false)
    (hr : reservedOpcode s.cfg op = true) :
    exec (.registerHandler op h) s = .next (stoppedAt (.registerHandler op h) (.reservedOpcode op) s) := by
  refine (unlessHandler_top ht _ _).trans ?_
  rw [if_pos hr]
  rfl

/-- Settles O38: the table is a sparse map from opcodes, read back at the key written and at every other. -/
theorem registersHandler : Obligations.RegistersHandler := by
  intro op h s ht
  refine ⟨fun hr => exec_registerHandler_reserved h ht (reservedOpcode_iff.2 hr), fun hsyn hbye hextra hb => ?_⟩
  have hr : ¬ reservedOpcode s.cfg op = true := by
    rw [reservedOpcode_iff]
    exact not_or.2 ⟨hsyn, not_or.2 ⟨hbye, hextra⟩⟩
  exact ⟨_, exec_registerHandler_ok ht hr hb, rfl, sparseGet_put_same _ _ _,
    fun op' hop => sparseGet_put_other _ _ fun he => hop (BitVec.eq_of_toNat_eq he)⟩

end Sys2Proof.Machine
end

section
/-! SERVE by the connection state (spec/43_command_server.md R110): one handshake attempt, or one server call, with SERVE's own
place below it (spec/10_state.md R27). -/

namespace Sys2Proof.Machine

/-! ### Where the server's calls stand -/

/-- HANDSHAKE_ATTEMPT has returned to its caller, or is held in its wait, where only the place has changed. -/
theorem handshakeAttempt_cases (base : List Frame) (s : State) :
    (∃ t, handshakeAttempt base s = .ok () t ∧ t.seq = base) ∨
      handshakeAttempt base s =
        .stop { s with seq := waitFrame 1 .tHandshake :: .op .handshakeAttempt 0 :: base } := by
  rw [handshakeAttempt]
  by_cases h : 1 ≤ s.rx.length
  · rw [waitBytes_now _ _ h]
    exact .inl ⟨_, rfl, handshakeRest_place _ _ _⟩
  · rw [waitBytes_held _ _ (Nat.lt_of_not_le h)]
    exact .inr rfl

theorem dispatchOpcode_stopped {op : Byte} {base : List Frame} {s t : State}
    (h : dispatchOpcode op base s = .stop t) : base.length < t.seq.length := by
  unfold dispatchOpcode at h
  split at h
  · split at h <;> cases h
    · exact Nat.lt_succ_of_lt (Nat.lt_succ_self _)
    · exact Nat.lt_succ_self _
  · cases h

theorem connectedRest_stopped {ok : Bool} {base : List Frame} {s t : State}
    (h : connectedRest ok base s = .stop t) : base.length < t.seq.length := by
  unfold connectedRest connectedByte at h
  split at h
  · split at h
    · split at h
      · cases h
      · exact dispatchOpcode_stopped h
    · cases h
  · cases h

/-- SERVE_CONNECTED that has not returned stands above its caller: in its wait, at a refusal, or below the handler it
started. -/
theorem serveConnected_stopped {base : List Frame} {s t : State} (h : serveConnected base s = .stop t) :
    base.length < t.seq.length := by
  rw [serveConnected] at h
  by_cases hn : 1 ≤ s.rx.length
  · rw [waitBytes_now _ _ hn] at h
    exact connectedRest_stopped h
  · rw [waitBytes_held _ _ (Nat.lt_of_not_le hn)] at h
    cases h
    exact Nat.lt_succ_of_lt (Nat.lt_succ_self _)

theorem serveConnected_returned {base : List Frame} {s t : State} (h : serveConnected base s = .ok () t) :
    t.seq = base := by
  rw [serveConnected] at h
  by_cases hn : 1 ≤ s.rx.length
  · rw [waitBytes_now _ _ hn] at h
    exact connectedRest_returned h
  · rw [waitBytes_held _ _ (Nat.lt_of_not_le hn)] at h
    cases h

/-! ### SERVE -/

/-- SERVE's loop after an attempt: back at the caller in CONNECTED, and where it stands otherwise (R110, assumption log 16). -/
theorem serveAgain_state {base : List Frame} {t : State} (h : t.seq = .op .serve 0 :: base) :
    (serveAgain base t).state = if t.fsm = .connected then { t with seq := base } else t := by
  unfold serveAgain
  split
  · rfl
  · exact back_eta h

section serve

variable {s : State} (h : s.inHandler = false)
include h

theorem exec_serve_top : exec .serve s = .next (serve s.seq s).state :=
  (unlessHandler_top h _ _).trans (finish_state _)

/-- SERVE in DISCONNECTED is the attempt called from SERVE's place, and returns where that leaves CONNECTED (R110). -/
theorem exec_serve_disconnected (hf : s.fsm = .disconnected) :
    ∃ t, exec .handshakeAttempt { s with seq := .op .serve 0 :: s.seq } = .next t ∧
      exec .serve s = .next (if t.fsm = .connected then { t with seq := s.seq } else t) := by
  refine ⟨(handshakeAttempt (.op .serve 0 :: s.seq) s).state, finish_state _, ?_⟩
  rw [exec_serve_top h, serve, hf]
  rcases handshakeAttempt_cases (.op .serve 0 :: s.seq) s with ⟨t, e, ht⟩ | e <;> simp only [e]
  · exact congrArg Host.Outcome.next (serveAgain_state ht)
  · have hstays : s.fsm ≠ .connected := by rw [hf]; nofun
    exact congrArg Host.Outcome.next (if_neg hstays).symm

/-- SERVE in CONNECTED is SERVE_CONNECTED called from SERVE's place, and returns where that does (R110). -/
theorem exec_serve_connected (hf : s.fsm = .connected) :
    ∃ t, exec .serveConnected { s with seq := .op .serve 1 :: s.seq } = .next t ∧
      exec .serve s = .next (if t.seq = .op .serve 1 :: s.seq then { t with seq := s.seq } else t) := by
  refine ⟨(serveConnected (.op .serve 1 :: s.seq) s).state, finish_state _, ?_⟩
  rw [exec_serve_top h, serve, hf]
  cases e : serveConnected (.op .serve 1 :: s.seq) s with
  | ok _ t => exact congrArg Host.Outcome.next (if_pos (serveConnected_returned e)).symm
  | stop t =>
    have hstays : t.seq ≠ .op .serve 1 :: s.seq := fun ht =>
      (serveConnected_stopped e).ne (congrArg List.length ht.symm)
    exact congrArg Host.Outcome.next (if_neg hstays).symm

end serve

/-- Settles O40: the two branches of SERVE's pseudocode. -/
theorem serveByState : Obligations.ServeByState := fun _ h =>
  ⟨exec_serve_disconnected h, exec_serve_connected h⟩

end Sys2Proof.Machine
end

section
/-! What a running handler may issue (spec/43_command_server.md R108, spec/60_exceptions.md R117): the closed operations are
refused in it, and no exposed one sets the mark of a refusal. -/

namespace Sys2Proof.Machine

/-! ### The closed operations -/

theorem unlessHandler_refuses {s : State} (h : s.inHandler = true) (i : Instr)
    (k : Host.Outcome State Fault Refusal) : unlessHandler i s k = .next (refusedAt i (.notExposed i) s) :=
  if_pos h

/-- An operation that R108 does not expose is refused while a handler runs. -/
theorem exec_notExposed {i : Instr} {s : State} (h : s.inHandler = true) (hm : handlerMayIssue i = false)
    (hc : notACall i = false) : exec i s = .next (refusedAt i (.notExposed i) s) := by
  cases i with
  | push8 _ | latch | dataDir _ _ | dataOut _ _ | dataIn _ | wePulse | delay _ => exact unlessHandler_refuses h _ _
  | init | setAddress _ _ => exact unlessHandler_refuses h _ _
  | registerHandler _ _ | serve | handshakeAttempt | serveConnected => exact unlessHandler_refuses h _ _
  | syn | ack | err | rst | bye | request _ => exact unlessHandler_refuses h _ _
  | fin | hostSend _ | hostLinkUp | hostLinkDown | eeComplete => cases hc
  | _ => cases hm

/-! ### The exposed operations -/

theorem waitBytes_refused (n : Nat) (d : Duration) (base : List Frame) (s : State) :
    (waitBytes n d base s).state.refused = s.refused := by
  obtain ⟨l, e⟩ := waitBytes_seq n d base s
  rw [e]

theorem readBytes_refused (n : Nat) (base : List Frame) (s : State) :
    (readBytes n base s).state.refused = s.refused := by
  rcases readBytes_cases n base s with ⟨_, t, _, e, _, hrun, _⟩ | ⟨_, e⟩ <;> rw [e, Flow.state]
  rw [hrun.2]

theorem sendAll_refused (i : Instr) (l : List Byte) (s : State) : (sendAll i l s).refused = s.refused := by
  obtain ⟨_, _, hrun, _⟩ := txAll_spec i s.seq 0 l s
  rw [sendAll, back_refused, hrun.2]

theorem printText_refused (i : Instr) (text : List Byte) (s : State) : (printText i text s).refused = s.refused := by
  unfold printText
  split
  · rfl
  · exact sendAll_refused i _ s

/-- An operation that answers a value leaves the mark as its pieces do. -/
theorem finish_refused {α : Type} {s t : State} {x : Flow α} {k : α → State → State}
    (e : x.finish k = .next t) (h : x.state.refused = s.refused) (hk : ∀ a u, (k a u).refused = u.refused) :
    t.refused = s.refused :=
  finish_elim (P := fun t => t.refused = s.refused) h (fun a u hu => (hk a u).trans hu) e

/-- No operation that R108 exposes is refused. -/
theorem exec_exposed_refused {i : Instr} {s t : State} (h : handlerMayIssue i = true) (e : exec i s = .next t) :
    t.refused = s.refused := by
  cases i with
  | read a =>
    exact busGuard_elim (P := fun t => t.refused = s.refused) (fun _ => rfl)
      (fun e => finish_refused (k := fun r u => { u with ret := .u8 r }) e (readCell_busOnly a s.seq s).refused
        fun _ _ => rfl) e
  | write a v =>
    exact busGuard_elim (P := fun t => t.refused = s.refused) (fun _ => rfl)
      (fun e => finish_refused e (writeCell_busOnly a v s.seq s).refused fun _ _ => rfl) e
  | isConnected | setRxTimeout _ | available => cases e; rfl
  | waitForBytes n d => exact finish_refused e (waitBytes_refused n d s.seq s) fun _ _ => rfl
  | readBuffer n => exact finish_refused e (readBytes_refused n s.seq s) fun _ _ => rfl
  | readI8 | readI16 | readI32 => exact finish_refused e (readBytes_refused _ _ s) fun _ _ => rfl
  | writeBuffer _ | writeI8 _ | writeI16 _ | writeI32 _ => cases e; exact sendAll_refused _ _ s
  | print _ | println _ => cases e; exact printText_refused _ _ s
  | _ => cases h

/-- Settles O44: every operation answers a next state (`exec_keeps`); R108 divides those that are calls. -/
theorem handlerRestriction : Obligations.HandlerRestriction := by
  intro i s
  refine ⟨exec_notExposed, fun h => ?_⟩
  obtain ⟨t, e, -⟩ := exec_keeps i s
  exact ⟨t, e, exec_exposed_refused h e⟩

end Sys2Proof.Machine
end

section
/-! A running handler's turn (spec/43_command_server.md R107, R112): its call and the result's way into its variable, and FIN on
its return. -/

namespace Sys2Proof.Machine

/-! ### The handler's variables -/

theorem varGet_varPut_same (vars : List (Nat × Value)) (k : Nat) (v : Value) : varGet (varPut vars k v) k = v := by
  simp [varGet, varPut]

/-- Dropping the entries of one variable leaves what is found for another. -/
theorem lookup_filter_other {k k' : Nat} (h : k' ≠ k) (vars : List (Nat × Value)) :
    (vars.filter fun e => e.1 != k).lookup k' = vars.lookup k' := by
  induction vars with
  | nil => rfl
  | cons e r ih =>
    obtain ⟨j, v⟩ := e
    by_cases hj : j = k
    · subst hj
      simp [List.lookup_cons, ih, beq_false_of_ne h]
    · simp [List.lookup_cons, ih, hj]

theorem varGet_varPut_other {k k' : Nat} (h : k' ≠ k) (vars : List (Nat × Value)) (v : Value) :
    varGet (varPut vars k v) k' = varGet vars k' := by
  simp [varGet, varPut, List.lookup_cons, beq_false_of_ne h, lookup_filter_other h]

/-- The result of the call at `pc` goes into the variable it names, and every other variable stays (R32, R107). -/
theorem varGet_takeResult {body : Handler} {pc : Nat} {dst : Option Nat} {c : Call}
    (h : body[pc]? = some (.call dst c)) (vars : List (Nat × Value)) (v : Value) :
    (∀ k, dst = some k → varGet (takeResult body pc vars v) k = v) ∧
      ∀ k, dst ≠ some k → varGet (takeResult body pc vars v) k = varGet vars k := by
  unfold takeResult
  rw [h]
  cases dst with
  | none => exact ⟨nofun, fun _ _ => rfl⟩
  | some j =>
    refine ⟨fun k hk => ?_, fun k hk => ?_⟩
    · cases hk
      exact varGet_varPut_same vars j v
    · exact varGet_varPut_other (fun he => hk (congrArg some he.symm)) vars v

/-! ### The turns -/

section turns

variable {s : State} {op : Byte} {body : Handler} {pc : Nat} {vars : List (Nat × Value)} {base : List Frame}
  (hs : s.seq = .handler op body pc vars :: base)
include hs

theorem ctrlTurn_handlerCall {dst : Option Nat} {c : Call} {i : Instr} (hb : body[pc]? = some (.call dst c))
    (hi : callInstr vars c = some i) (late : Bool) : ctrlTurn late s = .run i s.seq s := by
  simp only [ctrlTurn, hs, handlerTurn, hb, hi]

theorem ctrlTurn_handlerReturns (hb : body[pc]? = none ∨ body[pc]? = some .ret) (late : Bool) :
    ctrlTurn late s = .run .fin base s := by
  rcases hb with hb | hb <;> simp only [ctrlTurn, hs, handlerTurn, hb]

/-- FIN sends its byte, delivered where the link is up, and drops the running handler's frame (R58, R112). -/
theorem sendFin_eq : ∃ d n, sendFin s = { s with
    seq := base, hist := s.hist ++ [.tx 0x66], toHost := s.toHost ++ d, draws := n } ∧ d.Sublist [0x66] ∧
      (s.link = true → d = [0x66] ∧ n = s.draws) := by
  obtain ⟨d, n, e, hd, hl⟩ := txPush_eq codeFin s
  refine ⟨d, n, ?_, hd, hl⟩
  simp only [sendFin, e, hs]
  rfl

end turns

/-- What follows an operation at which CTRL has not stopped. -/
theorem afterRun_running {base : List Frame} {t : State} (h : t.Running) :
    afterRun base t = if t.seq = base then returnTo base t.ret { t with ret := .none } else { t with ret := .none } := by
  split
  case isTrue hs => exact afterRun_returned h hs
  case isFalse hs => exact afterRun_stays hs

/-- Settles O45: the handler's turn runs the call's operation from the handler's own frame, to which its result returns. -/
theorem handlerCallStep : Obligations.HandlerCallStep := by
  intro s op body pc vars base dst c i hr hc hs hb hi
  refine ⟨fun t e ht => ?_, fun v u => ⟨takeResult body pc vars v, ?_, varGet_takeResult hb vars v⟩⟩
  · obtain ⟨t', e', hstep⟩ := step_runs hr hc (ctrlTurn_handlerCall (s := s.turnTaken) hs hb hi _)
    cases e.symm.trans e'
    rw [hstep, afterRun_running ht]
    rfl
  · rw [hs, returnTo]
    rfl

/-! ### The envelope -/

/-- CTRL's turn with the handler returned: FIN, and the frame below goes on (R112, corner case 3). -/
theorem step_handlerReturns {s : State} {op : Byte} {body : Handler} {pc : Nat} {vars : List (Nat × Value)}
    {base : List Frame} (hr : s.Running) (hc : CtrlTurn s) (hs : s.seq = .handler op body pc vars :: base)
    (hb : body[pc]? = none ∨ body[pc]? = some .ret) :
    ∃ d n, d.Sublist [0x66] ∧ (s.link = true → d = [0x66] ∧ n = s.draws) ∧
      step s = .next (returnTo base .none { s.turnTaken with
        seq := base, ret := .none, hist := s.hist ++ [.tx 0x66], toHost := s.toHost ++ d, draws := n }) := by
  obtain ⟨d, n, hfin, hd, hl⟩ := sendFin_eq (s := { s.turnTaken with ret := .none }) hs
  obtain ⟨t, e, hstep⟩ := step_runs hr hc (ctrlTurn_handlerReturns (s := s.turnTaken) hs hb _)
  cases (congrArg Host.Outcome.next hfin).symm.trans e
  exact ⟨d, n, hd, hl, hstep.trans (congrArg Host.Outcome.next (afterRun_returned hr rfl))⟩

/-- SERVE_CONNECTED's dispatch and SERVE in CONNECTED end where the handler has (R110, R112). -/
theorem returnTo_serve_dispatched (s : State) :
    returnTo [.op .serveConnected 3, .op .serve 1] .none s = { s with seq := [] } := rfl

/-- SERVE in session takes a registered opcode: ACK, and the handler stands at its first statement above SERVE's frames
(R112, R114). -/
theorem exec_serve_dispatches {s : State} {op : Byte} {r : List Byte} {h : HandlerName} {body : Handler}
    (hi : s.inHandler = false) (hq : s.Quiet) (hl : s.link = true) (hf : s.fsm = .connected) (hx : s.rx = op :: r)
    (hop : op ≠ 0x62) (ht : s.tableAt op = some h) (hb : bodyOf s.cfg h = some body) :
    exec .serve s = .next (sent [0x61] { s with
      rx := r, seq := .handler op body 0 [] :: .op .serveConnected 3 :: .op .serve 1 :: s.seq }) := by
  have hcall : exec .serveConnected { s with seq := .op .serve 1 :: s.seq } = .next (sent [0x61] { s with
      rx := r, seq := .handler op body 0 [] :: .op .serveConnected 3 :: .op .serve 1 :: s.seq }) := by
    rw [exec_serveConnected_quiet (by exact rfl) (by exact hq) (by exact hx),
      connectedByte_registered_up (by exact hl) _ hop (by exact ht) (by exact hb)]
    rfl
  obtain ⟨t, e, hserve⟩ := exec_serve_connected hi hf
  cases hcall.symm.trans e
  rw [hserve]
  exact congrArg Host.Outcome.next (if_neg fun he => nomatch he)

/-! The envelope where nothing but SERVE is to run: no step of HOST or EE is due, and the link is up. -/

section quiet

variable {s : State} (hr : s.Running) (hq : s.Quiet) (hbusy : s.busy = none) (hret : s.ret = .none) (hl : s.link = true)
  {op : Byte} {body : Handler}
include hr hq hbusy hret hl

/-- SERVE's step at TOP that takes a registered opcode begins the envelope with ACK (R112, R114). -/
theorem step_serve_dispatches (hs : s.seq = []) (hcalls : s.calls = []) (hf : s.fsm = .connected) {r : List Byte}
    (hx : s.rx = op :: r) (hop : op ≠ 0x62) {h : HandlerName} (ht : s.tableAt op = some h)
    (hb : bodyOf s.cfg h = some body) :
    step s = .next (sent [0x61] { s with
      rx := r, seq := [.handler op body 0 [], .op .serveConnected 3, .op .serve 1] }) := by
  have hserve := exec_serve_dispatches (by rw [State.inHandler, hs]) hq hl hf hx hop ht hb
  have hstart : ({ s.turnTaken with ret := .none } : State) = s := by
    rw [State.turnTaken, hq, List.tail_nil, quiet_eta hq, ret_eta hret]
  obtain ⟨t, e, hstep⟩ := step_runs hr (lastTurn hq hbusy).1 (ctrlTurn_serve (s := s.turnTaken) hs hcalls _)
  rw [hstart] at e
  rw [hs] at hserve
  cases hserve.symm.trans e
  exact hstep.trans (congrArg Host.Outcome.next (afterRun_top hret))

/-- The handler's return ends the envelope with FIN, and SERVE with it (R112). -/
theorem step_handlerReturns_served {pc : Nat} {vars : List (Nat × Value)}
    (hs : s.seq = [.handler op body pc vars, .op .serveConnected 3, .op .serve 1])
    (hb : body[pc]? = none ∨ body[pc]? = some .ret) : step s = .next (sent [0x66] { s with seq := [] }) := by
  have hsched : s.sched = [] := hq
  obtain ⟨d, n, -, hup, hstep⟩ := step_handlerReturns hr (lastTurn hq hbusy).1 hs hb
  obtain ⟨rfl, rfl⟩ := hup hl
  rw [hstep, returnTo_serve_dispatched]
  simp [sent, State.turnTaken, hsched, hret]

end quiet

/-- Settles O46: FIN ends the running handler (`step_handlerReturns`), and before it ACK has started it
(`step_serve_dispatches`). -/
theorem envelopeAroundHandler : Obligations.EnvelopeAroundHandler := by
  refine ⟨fun s op body pc vars base hr hc hs hb => ?_, fun s op r h hr hq hs hcalls hbusy hret hl hf hx hop ht hb => ?_⟩
  · obtain ⟨d, n, hd, hl, hstep⟩ := step_handlerReturns hr hc hs hb
    refine ⟨d, n, hd, hl, hstep, fun hbase => ?_⟩
    rw [hstep, hbase]
    exact congrArg _ (returnTo_serve_dispatched _)
  · refine ⟨_, step_serve_dispatches hr hq hbusy hret hl hs hcalls hf hx hop ht hb, rfl, rfl, ?_⟩
    rw [step_handlerReturns_served (s := sent [0x61] { s with
      rx := r, seq := [.handler op [] 0 [], .op .serveConnected 3, .op .serve 1] }) hr hq hbusy hret hl rfl (.inl rfl)]
    simp [sent, hs]

end Sys2Proof.Machine
end

section
/-! The operand shapes the operations table does not list: a data line above 7 and a DELAY of another duration than T_SETTLE
and T_IDLE (spec/60_exceptions.md R117, spec/40_bus_primitives.md R79). -/

namespace Sys2Proof.Machine

/-- A pin index above 7 names no data line (R70). -/
theorem lineOf_above {p : Nat} (hp : 7 < p) : lineOf p = none := dif_neg (Nat.not_lt.2 hp)

section calls

variable {s : State} (h : s.inHandler = false)
include h

theorem exec_dataDir_above {p : Nat} (hp : 7 < p) (d : Dir) :
    exec (.dataDir p d) s = .next (refusedAt (.dataDir p d) (.unmodelled (.dataDir p d)) s) := by
  change unlessHandler _ _ _ = _
  rw [unlessHandler_top h, lineOf_above hp]
  rfl

theorem exec_dataOut_above {p : Nat} (hp : 7 < p) (x : Bool) :
    exec (.dataOut p x) s = .next (refusedAt (.dataOut p x) (.unmodelled (.dataOut p x)) s) := by
  change unlessHandler _ _ _ = _
  rw [unlessHandler_top h, lineOf_above hp]
  rfl

theorem exec_dataIn_above {p : Nat} (hp : 7 < p) :
    exec (.dataIn p) s = .next (refusedAt (.dataIn p) (.unmodelled (.dataIn p)) s) := by
  change unlessHandler _ _ _ = _
  rw [unlessHandler_top h, lineOf_above hp]
  rfl

/-- DELAY has a meaning for the two durations of R79 only. -/
theorem exec_delay_other {t : Duration} (hs : t ≠ .tSettle) (hi : t ≠ .tIdle) :
    exec (.delay t) s = .next (refusedAt (.delay t) (.unmodelled (.delay t)) s) := by
  refine (unlessHandler_top h _ _).trans ?_
  cases t with
  | tSettle => exact absurd rfl hs
  | tIdle => exact absurd rfl hi
  | _ => rfl

end calls

/-- Settles O13: outside a handler the three line operations find no line above 7 (`lineOf_above`), and DELAY no meaning for
another duration (`exec_delay_other`). -/
theorem unmodelledShapes : Obligations.UnmodelledShapes := by
  intro s p d x t h hp hs hi
  exact ⟨exec_dataDir_above h hp d, exec_dataOut_above h hp x, exec_dataIn_above h hp, exec_delay_other h hs hi⟩

end Sys2Proof.Machine
end

section
/-! The state at power-on (spec/70_reset_and_hazards.md R129), under any configuration: what its empty array and its empty
table read as, and the invariants it meets. -/

namespace Sys2Proof.Machine

variable (c : Config)

/-- Nothing has written a cell yet, so each reads as its free power-on contents (R28; assumption log 6). -/
theorem powerOn_cellByte (a : Nat) : (State.powerOn c).cellByte a = Config.powerOnCell a := rfl

/-- Every slot of the handler table is absent (R26). -/
theorem powerOn_tableAt (op : Byte) : (State.powerOn c).tableAt op = none := rfl

theorem powerOn_cellsOk : CellsOk (State.powerOn c) := ⟨rfl, List.forall_mem_nil _, nofun⟩

theorem powerOn_tableOk : TableOk (State.powerOn c) := ⟨rfl, List.forall_mem_nil _⟩

/-- The control pins are not ready and INIT has not completed, so `PinsOk` asks nothing of the pins (R19, R20). -/
theorem powerOn_pinsOk : PinsOk (State.powerOn c) := ⟨nofun, nofun⟩

theorem powerOn_inv {c : Config} (hc : ConfigOk c) : Inv (State.powerOn c) :=
  ⟨hc, powerOn_cellsOk c, powerOn_tableOk c, powerOn_pinsOk c, Nat.zero_le c.rxCapacity, rfl⟩

/-- Nothing has been received and nothing sent (R49). -/
theorem powerOn_wireFifo : WireFifo (State.powerOn c) := ⟨List.nil_suffix, List.nil_sublist _⟩

/-- Settles O55: of the configuration only the bounds of R5 are needed, and by the machine's invariant only. -/
theorem powerOnMeetsInvariants : Obligations.PowerOnMeetsInvariants :=
  fun c hc => ⟨powerOn_inv hc, powerOn_wireFifo c⟩

/-- Settles O58: the fields are `State.powerOn`'s own, and the two lookups find nothing. -/
theorem powerOnState : Obligations.PowerOnState := by
  intro c s
  exact ⟨rfl, rfl, rfl, rfl, rfl, rfl, rfl, rfl, powerOn_tableAt c, rfl, rfl, rfl, rfl, powerOn_cellByte c, rfl⟩

end Sys2Proof.Machine
end
